-- ==== Sys2Proof/Word.lean ====
section
/-! DEFINITION. The word types of QRDC-1: bytes (R8 `u8`, and the field elements of R91) and 32-bit words (R8 `u32`). -/

namespace Sys2Proof

/-- A byte, R8; also a codeword and an element of GF(256), R91. -/
abbrev Byte := BitVec 8

/-- A 32-bit word, R8: a register, a command word, a field of a chunk record. -/
abbrev Word := BitVec 32

end Sys2Proof
end

