-- ==== Sys2Proof/Syntax.lean ====
section
/-! DEFINITION. The instructions of QRDC-1, one constructor per row of spec/opcode_table.json: the command words (R64, R71) and the
segments of the data stream (R73, R80, R83). A segment's operands are the raw fields the stream holds. -/

namespace Sys2Proof

/-- R74: the size class of a symbol version. -/
inductive SizeClass
  | small    -- versions 1 to 9
  | medium   -- versions 10 to 26
  | large    -- versions 27 to 40
  deriving DecidableEq, Repr

/-- R76: what follows the groups of three digits of a numeric segment. -/
inductive NumTail
  | none                    -- count mod 3 = 0
  | one (v : BitVec 4)      -- count mod 3 = 1: a 4-bit group
  | two (v : BitVec 7)      -- count mod 3 = 2: a 7-bit group
  deriving DecidableEq, Repr

/-- One constructor per row of the opcode table. -/
inductive Instr
  -- command words, R64
  | nop
  | extract (ver : BitVec 6) (mask : BitVec 3)
  | deinterleave (ver : BitVec 6) (ecl : BitVec 2)
  | rsDecode (n nec : BitVec 8)
  | rsDecodeAll (ver : BitVec 6) (ecl : BitVec 2)
  | parse (ver : BitVec 6)
  | decode (ver : BitVec 6) (ecl : BitVec 2) (mask : BitVec 3)
  | rsEncode (n nec : BitVec 8)
  | rsFill (n nec : BitVec 8)
  | init
  -- reserved and illegal command words, R71
  | reservedOp9
  | reservedOpA
  | reservedOpB
  | reservedOpC
  | reservedOpD
  | reservedOpE
  | illegalRsv (op : BitVec 4)
  -- segments of the data stream, R73
  | term
  | num (groups : List (BitVec 10)) (tail : NumTail)
  | alnum (pairs : List (BitVec 11)) (last : Option (BitVec 6))
  | sa (cur tot : BitVec 4) (par : BitVec 8)
  | byte (bytes : List (BitVec 8))
  | kanji (chars : List (BitVec 13))
  | eci7 (a : BitVec 7)
  | eci14 (a : BitVec 14)
  | eci21 (a : BitVec 21)
  | eciCorrupt
  -- mode indicators the source does not list, R83
  | unlisted5
  | unlisted6
  | unlisted9
  | unlistedA
  | unlistedB
  | unlistedC
  | unlistedD
  | unlistedE
  | unlistedF
  deriving DecidableEq, Repr

end Sys2Proof
end

