-- ==== Sys2Proof/Machine/SizeClass.lean ====
section
/-! DEFINITION. The size class of a version and the count-field widths of the segment modes (R74, R75), and the number of characters a
segment's operands stand for (its count field, R76 to R79). -/

namespace Sys2Proof

/-- R74: `sc(VER)` is 0 for VER 1–9, 1 for 10–26 and 2 for 27–40. -/
def sizeClassOf (ver : BitVec 6) : SizeClass :=
  if ver.toNat ≤ 9 then .small else if ver.toNat ≤ 26 then .medium else .large

/-- R75, Numeric: 10, 12 or 14 bits. -/
def numCountWidth : SizeClass → Nat
  | .small => 10
  | .medium => 12
  | .large => 14

/-- R75, Alphanumeric: 9, 11 or 13 bits. -/
def alnumCountWidth : SizeClass → Nat
  | .small => 9
  | .medium => 11
  | .large => 13

/-- R75, Byte: 8, 16 or 16 bits. -/
def byteCountWidth : SizeClass → Nat
  | .small => 8
  | .medium => 16
  | .large => 16

/-- R75, Kanji: 8, 10 or 12 bits. -/
def kanjiCountWidth : SizeClass → Nat
  | .small => 8
  | .medium => 10
  | .large => 12

/-- R76: how many digits the tail of a numeric segment stands for. -/
def NumTail.digits : NumTail → Nat
  | .none => 0
  | .one _ => 1
  | .two _ => 2

/-- R76: the count of a numeric segment. -/
def numCount (groups : List (BitVec 10)) (tail : NumTail) : Nat := 3 * groups.length + tail.digits

/-- R77: the count of an alphanumeric segment. -/
def alnumCount (pairs : List (BitVec 11)) (last : Option (BitVec 6)) : Nat :=
  2 * pairs.length + (if last.isSome then 1 else 0)

end Sys2Proof
end

