-- ==== Sys2Proof/WellFormed.lean ====
section
/-! DEFINITION. Which instructions an encoding exists for. Every operand of a command word fills its field (the operand types have the
field's width, R63), so commands are always well formed; a segment with a count field must hold no more characters than the count
field of its size class can say (R75). -/

namespace Sys2Proof

/-- An instruction the size class `sc` can encode (R63, R75). -/
def Instr.wellFormed (sc : SizeClass) : Instr → Bool
  | .num groups tail => numCount groups tail < 2 ^ numCountWidth sc
  | .alnum pairs last => alnumCount pairs last < 2 ^ alnumCountWidth sc
  | .byte bytes => bytes.length < 2 ^ byteCountWidth sc
  | .kanji chars => chars.length < 2 ^ kanjiCountWidth sc
  | .nop => true
  | .extract _ _ => true
  | .deinterleave _ _ => true
  | .rsDecode _ _ => true
  | .rsDecodeAll _ _ => true
  | .parse _ => true
  | .decode _ _ _ => true
  | .rsEncode _ _ => true
  | .rsFill _ _ => true
  | .init => true
  | .reservedOp9 => true
  | .reservedOpA => true
  | .reservedOpB => true
  | .reservedOpC => true
  | .reservedOpD => true
  | .reservedOpE => true
  | .illegalRsv _ => true
  | .term => true
  | .sa _ _ _ => true
  | .eci7 _ => true
  | .eci14 _ => true
  | .eci21 _ => true
  | .eciCorrupt => true
  | .unlisted5 => true
  | .unlisted6 => true
  | .unlisted9 => true
  | .unlistedA => true
  | .unlistedB => true
  | .unlistedC => true
  | .unlistedD => true
  | .unlistedE => true
  | .unlistedF => true

end Sys2Proof
end

