-- ==== Sys2Proof/Decode.lean ====
section
/-! DEFINITION. The decoder and, after it, the encoder: command words (R63, R64, R71) and segments of the data stream (R72 to R83). A
stream is the list of its bits in reading order, most significant bit of byte 0 first (R72). -/

namespace Sys2Proof

/-- Why nothing could be decoded. -/
inductive Reject
  /-- fewer than the four bytes of a command word (R63): raised by `decodeCommandBytes`; safe -/
  | shortCommand
  /-- fewer than the four bits of a mode indicator remain (R72, R151): raised by `decodeSegment`; safe, it ends the parse loop -/
  | endOfStream
  deriving DecidableEq, Repr

/-! ## Command words -/

/-- R63: bits 9:4. -/
def fieldVer (w : Word) : BitVec 6 := w.extractLsb' 4 6
/-- R63: bits 11:10. -/
def fieldEcl (w : Word) : BitVec 2 := w.extractLsb' 10 2
/-- R63: bits 14:12. -/
def fieldMask (w : Word) : BitVec 3 := w.extractLsb' 12 3
/-- R63: bits 23:16. -/
def fieldN (w : Word) : BitVec 8 := w.extractLsb' 16 8
/-- R63: bits 31:24. -/
def fieldNec (w : Word) : BitVec 8 := w.extractLsb' 24 8
/-- R63: bits 3:0. -/
def fieldOp (w : Word) : BitVec 4 := w.extractLsb' 0 4

/-- R64, R68, R71: the command a word stands for; every word stands for one. Where bit 15 is 1 and OP is reserved too, the
two table rows that match mean the same (log 14). -/
def decodeCommand (w : Word) : Instr :=
  if w.getLsbD 15 then .illegalRsv (fieldOp w)
  else match (fieldOp w).toNat with
    | 0x0 => .nop
    | 0x1 => .extract (fieldVer w) (fieldMask w)
    | 0x2 => .deinterleave (fieldVer w) (fieldEcl w)
    | 0x3 => .rsDecode (fieldN w) (fieldNec w)
    | 0x4 => .rsDecodeAll (fieldVer w) (fieldEcl w)
    | 0x5 => .parse (fieldVer w)
    | 0x6 => .decode (fieldVer w) (fieldEcl w) (fieldMask w)
    | 0x7 => .rsEncode (fieldN w) (fieldNec w)
    | 0x8 => .rsFill (fieldN w) (fieldNec w)
    | 0x9 => .reservedOp9
    | 0xA => .reservedOpA
    | 0xB => .reservedOpB
    | 0xC => .reservedOpC
    | 0xD => .reservedOpD
    | 0xE => .reservedOpE
    | _ => .init

/-- R50: the word whose four bytes, lowest address first, are given. -/
def wordOfBytes (b0 b1 b2 b3 : Byte) : Word := b3 ++ b2 ++ b1 ++ b0

/-- R50: the four bytes of a word, lowest address first. -/
def bytesOfWord (w : Word) : List Byte :=
  [w.extractLsb' 0 8, w.extractLsb' 8 8, w.extractLsb' 16 8, w.extractLsb' 24 8]

/-- A command word as the bytes the host writes to CMD (R50). -/
def decodeCommandBytes : List Byte → Except Reject Instr
  | b0 :: b1 :: b2 :: b3 :: _ => .ok (decodeCommand (wordOfBytes b0 b1 b2 b3))
  | _ => .error .shortCommand

/-! ## The data stream -/

/-- R140: the next `k` bits as an unsigned number, most significant first, `acc` being what was read before them. A bit past
the end of the stream counts as 0; the segment's meaning checks that the field lay inside the stream (log 22). -/
def takeNat : Nat → List Bool → Nat → Nat
  | 0, _, acc => acc
  | k + 1, [], acc => takeNat k [] (2 * acc)
  | k + 1, b :: bs, acc => takeNat k bs (2 * acc + b.toNat)

/-- The next `k` bits as a field of `k` bits. -/
def takeField (k : Nat) (bits : List Bool) : BitVec k := BitVec.ofNat k (takeNat k bits 0)

/-- The next `n` fields of `k` bits each. -/
def takeFields (k : Nat) : Nat → List Bool → List (BitVec k)
  | 0, _ => []
  | n + 1, bits => takeField k bits :: takeFields k n (bits.drop k)

/-- R76: a numeric segment after its mode indicator. -/
def decodeNum (sc : SizeClass) (body : List Bool) : Instr :=
  let cc := numCountWidth sc
  let n := takeNat cc body 0
  let data := body.drop cc
  let rest := data.drop (10 * (n / 3))
  .num (takeFields 10 (n / 3) data)
    (match n % 3 with
      | 0 => .none
      | 1 => .one (takeField 4 rest)
      | _ => .two (takeField 7 rest))

/-- R77: an alphanumeric segment after its mode indicator. -/
def decodeAlnum (sc : SizeClass) (body : List Bool) : Instr :=
  let cc := alnumCountWidth sc
  let n := takeNat cc body 0
  let data := body.drop cc
  .alnum (takeFields 11 (n / 2) data)
    (if n % 2 = 1 then some (takeField 6 (data.drop (11 * (n / 2)))) else none)

/-- R78: a byte segment after its mode indicator. -/
def decodeByte (sc : SizeClass) (body : List Bool) : Instr :=
  let cc := byteCountWidth sc
  .byte (takeFields 8 (takeNat cc body 0) (body.drop cc))

/-- R79: a Kanji segment after its mode indicator. -/
def decodeKanji (sc : SizeClass) (body : List Bool) : Instr :=
  let cc := kanjiCountWidth sc
  .kanji (takeFields 13 (takeNat cc body 0) (body.drop cc))

/-- R80: an ECI designator after its mode indicator. -/
def decodeEci (body : List Bool) : Instr :=
  let b0 : BitVec 8 := takeField 8 body
  if b0.getLsbD 7 = false then .eci7 (b0.extractLsb' 0 7)
  else if b0.getLsbD 6 = false then .eci14 (b0.extractLsb' 0 6 ++ (takeField 8 (body.drop 8)))
  else if b0.getLsbD 5 = false then .eci21 (b0.extractLsb' 0 5 ++ (takeField 16 (body.drop 8)))
  else .eciCorrupt

/-- R81: a Structured Append segment after its mode indicator. -/
def decodeSa (body : List Bool) : Instr :=
  .sa (takeField 4 body) (takeField 4 (body.drop 4)) (takeField 8 (body.drop 8))

/-- R72, R73: the segment at the head of the stream, for the size class `sc`. -/
def decodeSegment (sc : SizeClass) : List Bool → Except Reject Instr
  | b3 :: b2 :: b1 :: b0 :: body =>
    .ok (match takeNat 4 [b3, b2, b1, b0] 0 with
      | 0x0 => .term
      | 0x1 => decodeNum sc body
      | 0x2 => decodeAlnum sc body
      | 0x3 => decodeSa body
      | 0x4 => decodeByte sc body
      | 0x5 => .unlisted5
      | 0x6 => .unlisted6
      | 0x7 => decodeEci body
      | 0x8 => decodeKanji sc body
      | 0x9 => .unlisted9
      | 0xA => .unlistedA
      | 0xB => .unlistedB
      | 0xC => .unlistedC
      | 0xD => .unlistedD
      | 0xE => .unlistedE
      | _ => .unlistedF)
  | _ => .error .endOfStream

/-! ## The encoder -/

/-- The `k` low bits of `n`, most significant first. -/
def natBits : Nat → Nat → List Bool
  | 0, _ => []
  | k + 1, n => n.testBit k :: natBits k n

/-- The bits of a field, most significant first (R72). -/
def fieldBits {k : Nat} (v : BitVec k) : List Bool := natBits k v.toNat

/-- R63, R87: a command word from its fields. -/
def commandWord (op : BitVec 4) (ver : BitVec 6) (ecl : BitVec 2) (mask : BitVec 3) (rsv : BitVec 1) (n nec : BitVec 8) : Word :=
  nec ++ n ++ rsv ++ mask ++ ecl ++ ver ++ op

/-- What an instruction is encoded as: a command word, or bits of the data stream. -/
inductive Code
  | command (w : Word)
  | segment (bits : List Bool)
  deriving DecidableEq, Repr

/-- R76: the bits of a numeric tail. -/
def NumTail.bits : NumTail → List Bool
  | .none => []
  | .one v => fieldBits v
  | .two v => fieldBits v

/-- R63, R64, R71 and R72 to R83: the encoding of an instruction, a segment's for the size class `sc`. Unused and ignored
bits (R70, and the x bits of a corrupted ECI designator, R80) are written as 0. -/
def encode (sc : SizeClass) : Instr → Code
  | .nop => .command (commandWord 0x0 0 0 0 0 0 0)
  | .extract ver mask => .command (commandWord 0x1 ver 0 mask 0 0 0)
  | .deinterleave ver ecl => .command (commandWord 0x2 ver ecl 0 0 0 0)
  | .rsDecode n nec => .command (commandWord 0x3 0 0 0 0 n nec)
  | .rsDecodeAll ver ecl => .command (commandWord 0x4 ver ecl 0 0 0 0)
  | .parse ver => .command (commandWord 0x5 ver 0 0 0 0 0)
  | .decode ver ecl mask => .command (commandWord 0x6 ver ecl mask 0 0 0)
  | .rsEncode n nec => .command (commandWord 0x7 0 0 0 0 n nec)
  | .rsFill n nec => .command (commandWord 0x8 0 0 0 0 n nec)
  | .init => .command (commandWord 0xF 0 0 0 0 0 0)
  | .reservedOp9 => .command (commandWord 0x9 0 0 0 0 0 0)
  | .reservedOpA => .command (commandWord 0xA 0 0 0 0 0 0)
  | .reservedOpB => .command (commandWord 0xB 0 0 0 0 0 0)
  | .reservedOpC => .command (commandWord 0xC 0 0 0 0 0 0)
  | .reservedOpD => .command (commandWord 0xD 0 0 0 0 0 0)
  | .reservedOpE => .command (commandWord 0xE 0 0 0 0 0 0)
  | .illegalRsv op => .command (commandWord op 0 0 0 1 0 0)
  | .term => .segment (natBits 4 0x0)
  | .num groups tail =>
    .segment (natBits 4 0x1 ++ natBits (numCountWidth sc) (numCount groups tail) ++ groups.flatMap fieldBits ++ tail.bits)
  | .alnum pairs last =>
    .segment (natBits 4 0x2 ++ natBits (alnumCountWidth sc) (alnumCount pairs last) ++ pairs.flatMap fieldBits
      ++ last.toList.flatMap fieldBits)
  | .sa cur tot par => .segment (natBits 4 0x3 ++ fieldBits cur ++ fieldBits tot ++ fieldBits par)
  | .byte bytes => .segment (natBits 4 0x4 ++ natBits (byteCountWidth sc) bytes.length ++ bytes.flatMap fieldBits)
  | .kanji chars => .segment (natBits 4 0x8 ++ natBits (kanjiCountWidth sc) chars.length ++ chars.flatMap fieldBits)
  | .eci7 a => .segment (natBits 4 0x7 ++ [false] ++ fieldBits a)
  | .eci14 a => .segment (natBits 4 0x7 ++ [true, false] ++ fieldBits a)
  | .eci21 a => .segment (natBits 4 0x7 ++ [true, true, false] ++ fieldBits a)
  | .eciCorrupt => .segment (natBits 4 0x7 ++ [true, true, true, false, false, false, false, false])
  | .unlisted5 => .segment (natBits 4 0x5)
  | .unlisted6 => .segment (natBits 4 0x6)
  | .unlisted9 => .segment (natBits 4 0x9)
  | .unlistedA => .segment (natBits 4 0xA)
  | .unlistedB => .segment (natBits 4 0xB)
  | .unlistedC => .segment (natBits 4 0xC)
  | .unlistedD => .segment (natBits 4 0xD)
  | .unlistedE => .segment (natBits 4 0xE)
  | .unlistedF => .segment (natBits 4 0xF)

/-- R84: the length in bits of what an instruction is encoded as, for the size class `sc`; a command word has 32 bits (R63). -/
def Code.length : Code → Nat
  | .command _ => 32
  | .segment bits => bits.length

/-! ## Table words -/

/-- How a table row's number is read (log 15). The table numbers a command word as its 32 bits (`cmd32`), a mode indicator as
its 4 bits (`stream_mode4`) and an ECI form as 12 bits, indicator then designator byte (`stream_eci12`); the format is told
by the row's length in whole bytes. -/
inductive TableForm
  | command
  | mode
  | eci
  deriving DecidableEq, Repr

/-- The format of a table word of `nbits` bits. -/
def tableForm (nbits w : Nat) : TableForm :=
  if nbits ≤ 8 ∧ w < 16 then .mode
  else if nbits ≤ 16 ∧ w / 256 = 7 then .eci
  else .command

/-- The stream a table word of the mode or ECI format stands for; every later bit is 0. -/
def tableStream (form : TableForm) (w : Nat) : List Bool :=
  match form with
  | .eci => natBits 12 w ++ List.replicate 20 false
  | _ => natBits 4 w ++ List.replicate 28 false

/-- The instruction the decoder reads from a word of the opcode table. -/
def decodeTableWord (nbits w : Nat) : Option Instr :=
  if nbits = 0 ∨ nbits > 32 then none
  else match tableForm nbits w with
    | .command => (decodeCommandBytes (bytesOfWord (BitVec.ofNat 32 w))).toOption
    | form => (decodeSegment .small (tableStream form w)).toOption

end Sys2Proof
end

