-- ==== Sys2Proof/Config.lean ====
section
/-! DEFINITION. What an implementation fixes (the OPEN parameters of 00_scope.md R7) and the free values: every value the spec
calls unspecified or undefined is an opaque constant applied to plain data, so that no proof can see what it is. -/

namespace Sys2Proof

/-- R83, R150: what the parser does with a mode indicator the source does not list. -/
inductive UnknownModePolicy
  | skip   -- the default: a 4-bit segment with no fields
  | fail   -- the parse ends with STREAM_UNKNOWN_MODE
  deriving DecidableEq, Repr

/-- R151: what the parser does with 1 to 3 trailing bits that are not all zero. -/
inductive TrailingPolicy
  | accept   -- the default
  | reject   -- the parse ends with STREAM_TRAILING
  deriving DecidableEq, Repr

/-- R108: one `ecBlocks` group, `{numBlocks, dataCodewordsPerBlock}`. -/
structure BlockGroup where
  numBlocks : Nat
  dataPerBlock : Nat
  deriving DecidableEq, Repr

/-- R108: one of the four `ecLevels` entries of a version. -/
structure EcEntry where
  ecPerBlock : Nat
  groups : List BlockGroup
  deriving DecidableEq, Repr

/-- R108: one record of VERSION_TABLE; the four entries stand in EC level code order, 0 = M, 1 = L, 2 = H, 3 = Q (R66). -/
structure VersionRecord where
  alignment : List Nat
  code0 : EcEntry
  code1 : EcEntry
  code2 : EcEntry
  code3 : EcEntry
  deriving DecidableEq, Repr

/-- R7: the OPEN parameters a result can depend on. `baseBlock` gives BASE = 65536 * baseBlock (64 KiB aligned);
`versionTable` lists the records of VER = 1, 2, … in order. -/
structure Params where
  baseBlock : Nat
  versionTable : List VersionRecord
  unknownMode : UnknownModePolicy
  trailing : TrailingPolicy
  deriving DecidableEq, Repr

/-- R62, R177: the value of a buffer byte the spec calls unspecified; a function of the draw it belongs to and of the
byte's offset, so one value per byte, fixed until written. No body: nothing can be proved of it. -/
opaque Config.unspecifiedByte : Nat → Nat → Byte

/-- R36, R57: the value a read returns while BUSY = 1, one for each draw. No body. -/
opaque Config.unspecifiedWord : Nat → Word

/-- R95: log(0) is undefined and no rule takes it (log 19). No body. -/
opaque Config.logOfZero : Nat

/-- R97: inv(0) is undefined and no rule takes it (log 19). No body. -/
opaque Config.inverseOfZero : Byte

end Sys2Proof
end

