-- ==== Sys2Proof/Machine/VersionTable.lean ====
section
/-! DEFINITION. VERSION_TABLE: the default table of R109 and R110, its lookup (R65, R66, R108) and the conditions of R111 a platform's
table must meet for a command that uses an entry. -/

namespace Sys2Proof

/-- R109: a cell with one group, `ec; blocks×data`. -/
def EcEntry.one (ec blocks data : Nat) : EcEntry := ⟨ec, [⟨blocks, data⟩]⟩

/-- R109: a cell with two groups, `ec; blocks1×data1 + blocks2×data2`. -/
def EcEntry.two (ec blocks1 data1 blocks2 data2 : Nat) : EcEntry := ⟨ec, [⟨blocks1, data1⟩, ⟨blocks2, data2⟩]⟩

/-- R109, R110: versions 1 to 10 (columns in code order M, L, H, Q). -/
def versionTable1 : List VersionRecord := [
  ⟨[],
    .one 10 1 16, .one 7 1 19, .one 17 1 9, .one 13 1 13⟩,
  ⟨[6, 18],
    .one 16 1 28, .one 10 1 34, .one 28 1 16, .one 22 1 22⟩,
  ⟨[6, 22],
    .one 26 1 44, .one 15 1 55, .one 22 2 13, .one 18 2 17⟩,
  ⟨[6, 26],
    .one 18 2 32, .one 20 1 80, .one 16 4 9, .one 26 2 24⟩,
  ⟨[6, 30],
    .one 24 2 43, .one 26 1 108, .two 22 2 11 2 12, .two 18 2 15 2 16⟩,
  ⟨[6, 34],
    .one 16 4 27, .one 18 2 68, .one 28 4 15, .one 24 4 19⟩,
  ⟨[6, 22, 38],
    .one 18 4 31, .one 20 2 78, .two 26 4 13 1 14, .two 18 2 14 4 15⟩,
  ⟨[6, 24, 42],
    .two 22 2 38 2 39, .one 24 2 97, .two 26 4 14 2 15, .two 22 4 18 2 19⟩,
  ⟨[6, 26, 46],
    .two 22 3 36 2 37, .one 30 2 116, .two 24 4 12 4 13, .two 20 4 16 4 17⟩,
  ⟨[6, 28, 50],
    .two 26 4 43 1 44, .two 18 2 68 2 69, .two 28 6 15 2 16, .two 24 6 19 2 20⟩]

/-- R109, R110: versions 11 to 20 (columns in code order M, L, H, Q). -/
def versionTable11 : List VersionRecord := [
  ⟨[6, 30, 54],
    .two 30 1 50 4 51, .one 20 4 81, .two 24 3 12 8 13, .two 28 4 22 4 23⟩,
  ⟨[6, 32, 58],
    .two 22 6 36 2 37, .two 24 2 92 2 93, .two 28 7 14 4 15, .two 26 4 20 6 21⟩,
  ⟨[6, 34, 62],
    .two 22 8 37 1 38, .one 26 4 107, .two 22 12 11 4 12, .two 24 8 20 4 21⟩,
  ⟨[6, 26, 46, 66],
    .two 24 4 40 5 41, .two 30 3 115 1 116, .two 24 11 12 5 13, .two 20 11 16 5 17⟩,
  ⟨[6, 26, 48, 70],
    .two 24 5 41 5 42, .two 22 5 87 1 88, .two 24 11 12 7 13, .two 30 5 24 7 25⟩,
  ⟨[6, 26, 50, 74],
    .two 28 7 45 3 46, .two 24 5 98 1 99, .two 30 3 15 13 16, .two 24 15 19 2 20⟩,
  ⟨[6, 30, 54, 78],
    .two 28 10 46 1 47, .two 28 1 107 5 108, .two 28 2 14 17 15, .two 28 1 22 15 23⟩,
  ⟨[6, 30, 56, 82],
    .two 26 9 43 4 44, .two 30 5 120 1 121, .two 28 2 14 19 15, .two 28 17 22 1 23⟩,
  ⟨[6, 30, 58, 86],
    .two 26 3 44 11 45, .two 28 3 113 4 114, .two 26 9 13 16 14, .two 26 17 21 4 22⟩,
  ⟨[6, 34, 62, 90],
    .two 26 3 41 13 42, .two 28 3 107 5 108, .two 28 15 15 10 16, .two 30 15 24 5 25⟩]

/-- R109, R110: versions 21 to 30 (columns in code order M, L, H, Q). -/
def versionTable21 : List VersionRecord := [
  ⟨[6, 28, 50, 72, 94],
    .one 26 17 42, .two 28 4 116 4 117, .two 30 19 16 6 17, .two 28 17 22 6 23⟩,
  ⟨[6, 26, 50, 74, 98],
    .one 28 17 46, .two 28 2 111 7 112, .one 24 34 13, .two 30 7 24 16 25⟩,
  ⟨[6, 30, 54, 78, 102],
    .two 28 4 47 14 48, .two 30 4 121 5 122, .two 30 16 15 14 16, .two 30 11 24 14 25⟩,
  ⟨[6, 28, 54, 80, 106],
    .two 28 6 45 14 46, .two 30 6 117 4 118, .two 30 30 16 2 17, .two 30 11 24 16 25⟩,
  ⟨[6, 32, 58, 84, 110],
    .two 28 8 47 13 48, .two 26 8 106 4 107, .two 30 22 15 13 16, .two 30 7 24 22 25⟩,
  ⟨[6, 30, 58, 86, 114],
    .two 28 19 46 4 47, .two 28 10 114 2 115, .two 30 33 16 4 17, .two 28 28 22 6 23⟩,
  ⟨[6, 34, 62, 90, 118],
    .two 28 22 45 3 46, .two 30 8 122 4 123, .two 30 12 15 28 16, .two 30 8 23 26 24⟩,
  ⟨[6, 26, 50, 74, 98, 122],
    .two 28 3 45 23 46, .two 30 3 117 10 118, .two 30 11 15 31 16, .two 30 4 24 31 25⟩,
  ⟨[6, 30, 54, 78, 102, 126],
    .two 28 21 45 7 46, .two 30 7 116 7 117, .two 30 19 15 26 16, .two 30 1 23 37 24⟩,
  ⟨[6, 26, 52, 78, 104, 130],
    .two 28 19 47 10 48, .two 30 5 115 10 116, .two 30 23 15 25 16, .two 30 15 24 25 25⟩]

/-- R109, R110: versions 31 to 40 (columns in code order M, L, H, Q). -/
def versionTable31 : List VersionRecord := [
  ⟨[6, 30, 56, 82, 108, 134],
    .two 28 2 46 29 47, .two 30 13 115 3 116, .two 30 23 15 28 16, .two 30 42 24 1 25⟩,
  ⟨[6, 34, 60, 86, 112, 138],
    .two 28 10 46 23 47, .one 30 17 115, .two 30 19 15 35 16, .two 30 10 24 35 25⟩,
  ⟨[6, 30, 58, 86, 114, 142],
    .two 28 14 46 21 47, .two 30 17 115 1 116, .two 30 11 15 46 16, .two 30 29 24 19 25⟩,
  ⟨[6, 34, 62, 90, 118, 146],
    .two 28 14 46 23 47, .two 30 13 115 6 116, .two 30 59 16 1 17, .two 30 44 24 7 25⟩,
  ⟨[6, 30, 54, 78, 102, 126, 150],
    .two 28 12 47 26 48, .two 30 12 121 7 122, .two 30 22 15 41 16, .two 30 39 24 14 25⟩,
  ⟨[6, 24, 50, 76, 102, 128, 154],
    .two 28 6 47 34 48, .two 30 6 121 14 122, .two 30 2 15 64 16, .two 30 46 24 10 25⟩,
  ⟨[6, 28, 54, 80, 106, 132, 158],
    .two 28 29 46 14 47, .two 30 17 122 4 123, .two 30 24 15 46 16, .two 30 49 24 10 25⟩,
  ⟨[6, 32, 58, 84, 110, 136, 162],
    .two 28 13 46 32 47, .two 30 4 122 18 123, .two 30 42 15 32 16, .two 30 48 24 14 25⟩,
  ⟨[6, 26, 54, 82, 110, 138, 166],
    .two 28 40 47 7 48, .two 30 20 117 4 118, .two 30 10 15 67 16, .two 30 43 24 22 25⟩,
  ⟨[6, 30, 58, 86, 114, 142, 170],
    .two 28 18 47 31 48, .two 30 19 118 6 119, .two 30 20 15 61 16, .two 30 34 24 34 25⟩]

/-- R109, R110: the default VERSION_TABLE. -/
def defaultVersionTable : List VersionRecord := versionTable1 ++ versionTable11 ++ versionTable21 ++ versionTable31

/-- R7: the parameters at their defaults; BASE has none in the spec (log 1). -/
def Params.standard : Params where
  baseBlock := 0
  versionTable := defaultVersionTable
  unknownMode := .skip
  trailing := .accept

/-- R65: `VERSION_TABLE[VER]`. -/
def Params.record? (p : Params) (ver : BitVec 6) : Option VersionRecord :=
  if ver.toNat = 0 then none else p.versionTable[ver.toNat - 1]?

/-- R66: `ecLevels[ECL]`. -/
def VersionRecord.level (r : VersionRecord) (ecl : BitVec 2) : EcEntry :=
  match ecl.toNat with
  | 0 => r.code0
  | 1 => r.code1
  | 2 => r.code2
  | _ => r.code3

/-- R118: the data codeword count of each block, in block order. -/
def EcEntry.blocks (e : EcEntry) : List Nat := e.groups.flatMap fun g => List.replicate g.numBlocks g.dataPerBlock

/-- R119: `total`, the codewords of all blocks. -/
def EcEntry.total (e : EcEntry) : Nat := (e.blocks.map (· + e.ecPerBlock)).sum

/-- R111 (a), (c), (d): outside these conditions "the behaviour is outside QRDC-1 and a model may reject the table" (log 17).
Condition (b) is not among them: with a table that breaks it the commands still act by their rules. -/
def EcEntry.ok (e : EcEntry) : Bool :=
  (e.groups.length == 1 || e.groups.length == 2)
    && e.groups.all (fun g => 1 ≤ g.numBlocks && 1 ≤ g.dataPerBlock && g.dataPerBlock + e.ecPerBlock ≤ 255)
    && e.blocks.length ≤ 81
    && e.total ≤ 4096
    && e.blocks.sum ≤ 4096

/-- R66, R118: the entry of (VER, ECL), where the table has one that R111 admits. -/
def Params.entry? (p : Params) (ver : BitVec 6) (ecl : BitVec 2) : Option EcEntry :=
  match p.record? ver with
  | some r => if (r.level ecl).ok then some (r.level ecl) else none
  | none => none

end Sys2Proof
end

