-- ==== Sys2Proof/Machine/State.lean ====
section
/-! DEFINITION. The state of one QRDC block, as plain data: the registers of R11, the sequencer's hidden state of R37, the buffers of
R41, the parameters of R7, and the model's own fields (the bus response, the count of free values drawn, the pending host events). -/

namespace Sys2Proof.Machine

/-- R164: every completion code; codes not listed are never produced. -/
inductive ErrorCode
  | ok
  | illegalCmd
  | notReady
  | param
  | shortCodewords
  | rsZeroDivisor
  | rsNoDecrease
  | rsSigma0Zero
  | rsRootcount
  | rsPosition
  | rsErasureCount
  | rsInconsistent
  | streamNumericRange
  | streamAlnumRange
  | streamUnderrun
  | streamTrailing
  | streamUnknownMode
  | outOverflow
  deriving DecidableEq, Repr

/-- R37: SEQ. -/
inductive Seq
  | idle
  | run
  deriving DecidableEq, Repr

/-- R37, "the in-flight state of the running command": what the engine does next while SEQ = RUN. -/
inductive Stage
  | issue   -- the accepted word's checks (R157) and its command rule
  | parse   -- the parse loop (R142)
  deriving DecidableEq, Repr

/-- R37, R140, R142: the parser's in-flight registers. -/
structure Parser where
  /-- the bit position `pos` -/
  pos : Nat
  /-- the size class of the running command's VER -/
  sizeClass : SizeClass
  /-- OUTLEN so far -/
  outLen : Nat
  /-- NCHUNK so far -/
  nChunk : Nat
  deriving DecidableEq, Repr

/-- R37, R96: GFTAB, exp[0..255] and log[1..255]. -/
structure GfTab where
  exp : List Byte
  log : List Byte
  deriving DecidableEq, Repr

/-- A run of offsets `lo ≤ a < hi` whose bytes are unspecified, each holding the free value of the draw `draw`. -/
structure Drawn where
  lo : Nat
  hi : Nat
  draw : Nat
  deriving DecidableEq, Repr

/-- The bytes of the window (R41), by offset. `drawn` lists the runs of offsets whose bytes are unspecified and have not been
written since; `cells` lists the other bytes that are not 0. An offset in neither reads 0 (log 3). -/
structure Memory where
  cells : List Host.Cell
  drawn : List Drawn
  deriving DecidableEq, Repr

/-- R52, R53: the width of a host access. -/
inductive Width
  | w8
  | w16
  | w32
  | other   -- any other width: a bus error
  deriving DecidableEq, Repr

/-- What the host does next (R88, R176; log 6). Addresses are bus addresses. -/
inductive HostEvent
  /-- a bus write -/
  | write (addr : Nat) (width : Width) (value : Word)
  /-- a bus read -/
  | read (addr : Nat) (width : Width)
  /-- no access: the engine moves once if it runs -/
  | pause
  /-- R88 `wait`: the engine moves until BUSY = 0 -/
  | wait
  /-- R176: the reset input -/
  | reset
  deriving DecidableEq, Repr

/-- The state of one QRDC block. -/
structure State where
  /-- R7: the OPEN parameters; no step writes them -/
  params : Params
  /-- R14: STATUS.READY -/
  ready : Bool
  /-- R16: STATUS.DONE -/
  done : Bool
  /-- R17: STATUS.ERR -/
  err : Bool
  /-- R17: STATUS.ERRCODE -/
  errCode : ErrorCode
  /-- R19: STATUS.OVERRUN -/
  overrun : Bool
  /-- R20: STATUS.ACCVIOL -/
  accViol : Bool
  /-- R21: STATUS.BUSERR -/
  busErr : Bool
  /-- R22: IRQ_EN -/
  irqEn : Bool
  /-- R22: IRQ_PEND -/
  irqPend : Bool
  /-- R37: LCMD, which CMD reads (R13) -/
  lcmd : Word
  /-- R37: SEQ; STATUS.BUSY reads SEQ = RUN (R15) -/
  seq : Seq
  /-- R37: in-flight state -/
  stage : Stage
  /-- R37: in-flight state of the parse loop -/
  parser : Parser
  /-- R37, R96: GFTAB; none while it is invalid -/
  gfTab : Option GfTab
  /-- R23: DLEN -/
  dlen : BitVec 13
  /-- R24: CWCOUNT -/
  cwCount : BitVec 13
  /-- R25: REMBITS -/
  remBits : BitVec 3
  /-- R26: TOTALCW -/
  totalCw : BitVec 13
  /-- R27: NBLOCKS -/
  nBlocks : BitVec 7
  /-- R28: ECCOUNT -/
  ecCount : BitVec 8
  /-- R29: ERRCNT -/
  errCnt : BitVec 16
  /-- R30: FAILBLK -/
  failBlk : BitVec 8
  /-- R31: BITPOS -/
  bitPos : BitVec 16
  /-- R32: NCHUNK -/
  nChunk : BitVec 12
  /-- R33: OUTLEN -/
  outLen : BitVec 14
  /-- R34: ERASE0–ERASE7 as the one map they hold: bit p is position p -/
  erase : BitVec 256
  /-- R41 to R49: the buffers and BLKDESC -/
  mem : Memory
  /-- the model's own: the read data of the last host read (log 8) -/
  rdata : Word
  /-- the model's own: how many free values have been drawn (log 10) -/
  draws : Nat
  /-- the model's own: the pending host events, oldest first (log 6) -/
  host : List HostEvent
  deriving DecidableEq, Repr

/-- Why the model stops. -/
inductive Fault
  /-- R41: a host access whose address is outside the 64 KiB window at BASE; raised by the bus step; safe (log 16) -/
  | outsideWindow
  deriving DecidableEq, Repr

/-- Why the model has no meaning to give. -/
inductive Refusal
  /-- an instruction that has no meaning yet; raised by `exec`; safe -/
  | notModelled (mnemonic : String)
  /-- R111: VERSION_TABLE has no entry for (VER, ECL), or one that breaks (a), (c) or (d): "the behaviour is outside QRDC-1
  and a model may reject the table"; raised by the commands that use the entry; safe (log 17) -/
  | versionTable
  deriving DecidableEq, Repr

/-- The outcome of a step of this machine. -/
abbrev Result := Host.Outcome State Fault Refusal

/-- R62, R176, R177: memory after reset: every RAM byte unspecified, of the draw `draw`; every BLKDESC entry 0. -/
def Memory.atReset (draw : Nat) : Memory where
  cells := []
  drawn := [⟨0x1000, 0x5100, draw⟩, ⟨0x6000, 0x10000, draw⟩]

/-- R176: the state after reset, with the parameters `params` (which reset does not change), the RAM contents of the draw
`draw` and the host events `host` still to come. The in-flight fields hold no command (log 9). -/
def State.afterReset (params : Params) (draw : Nat) (host : List HostEvent) : State where
  params := params
  ready := false
  done := false
  err := false
  errCode := .ok
  overrun := false
  accViol := false
  busErr := false
  irqEn := false
  irqPend := false
  lcmd := 0x00000000
  seq := .idle
  stage := .issue
  parser := ⟨0, .small, 0, 0⟩
  gfTab := none
  dlen := 0
  cwCount := 0
  remBits := 0
  totalCw := 0
  nBlocks := 0
  ecCount := 0
  errCnt := 0
  failBlk := 0xFF
  bitPos := 0
  nChunk := 0
  outLen := 0
  erase := 0
  mem := Memory.atReset draw
  rdata := 0
  draws := draw + 1
  host := host

/-- R176: the machine right after reset, with the default parameters (R7) and nothing pending. -/
def State.reset : State := State.afterReset Params.standard 0 []

end Sys2Proof.Machine
end

