-- ==== Sys2Proof/Machine/Ops.lean ====
section
/-! DEFINITION. The named operations over memory and registers: the address map (R41), reads and writes of bytes, and the two ends of a
command: acceptance (R156) and completion (R158), the one way an error is taken. -/

namespace Sys2Proof.Machine

/-! ## The address map, R41 (offsets in the window) -/

def moduleRam : Nat := 0x1000
def cwRam : Nat := 0x2000
def blkRam : Nat := 0x3000
def dataRam : Nat := 0x4000
def rsRam : Nat := 0x5000
def blkDesc : Nat := 0x5400
def outRam : Nat := 0x6000
def chunkRam : Nat := 0x8000
def windowEnd : Nat := 0x10000

/-- R33, R152: OUT_CAP. -/
def outCap : Nat := 8192
/-- R32, R152: CHUNK_CAP. -/
def chunkCap : Nat := 2048

/-! ## Memory -/

/-- The listed byte at `a`, if one is listed. -/
def cellAt : List Host.Cell → Nat → Option Byte
  | [], _ => none
  | (b, v) :: rest, a => if a = b then some v else cellAt rest a

/-- The draw of the unspecified byte at `a`, if it is one. -/
def drawAt : List Drawn → Nat → Option Nat
  | [], _ => none
  | r :: rest, a => if r.lo ≤ a ∧ a < r.hi then some r.draw else drawAt rest a

/-- What an unlisted offset reads as: the free value of its draw where the byte is unspecified (R62, R177), else 0. -/
def Memory.unlisted (m : Memory) (a : Nat) : Byte :=
  match drawAt m.drawn a with
  | some d => Config.unspecifiedByte d a
  | none => 0

/-- The byte at offset `a`. -/
def Memory.read (m : Memory) (a : Nat) : Byte :=
  match cellAt m.cells a with
  | some v => v
  | none => m.unlisted a

/-- Lists the byte `v` at `a`, keeping the addresses rising. -/
def cellPut (a : Nat) (v : Byte) : List Host.Cell → List Host.Cell
  | [] => [(a, v)]
  | (b, w) :: rest =>
    if a < b then (a, v) :: (b, w) :: rest
    else if a = b then (a, v) :: rest
    else (b, w) :: cellPut a v rest

/-- Takes `a` out of the list. -/
def cellDrop (a : Nat) : List Host.Cell → List Host.Cell
  | [] => []
  | (b, w) :: rest => if a = b then cellDrop a rest else (b, w) :: cellDrop a rest

/-- The run `lo ≤ a < hi`, where it is not empty. -/
def drawnRun (lo hi draw : Nat) : List Drawn := if lo < hi then [⟨lo, hi, draw⟩] else []

/-- Takes the offsets `lo ≤ a < hi` out of every run. -/
def drawnCut (lo hi : Nat) : List Drawn → List Drawn
  | [] => []
  | r :: rest => drawnRun r.lo (min r.hi lo) r.draw ++ drawnRun (max r.lo hi) r.hi r.draw ++ drawnCut lo hi rest

/-- R55: the byte `v` at `a` is written; every other byte keeps its value. -/
def Memory.write (m : Memory) (a : Nat) (v : Byte) : Memory where
  cells := if v = 0 then cellDrop a m.cells else cellPut a v m.cells
  drawn := drawnCut a (a + 1) m.drawn

/-- R9: `MemWrite` of the bytes `bs` from offset `a` on. -/
def Memory.writeBytes (m : Memory) : Nat → List Byte → Memory
  | _, [] => m
  | a, b :: bs => (m.write a b).writeBytes (a + 1) bs

/-- R9: `MemRead` of `n` bytes from offset `a` on. -/
def Memory.readBytes (m : Memory) (a n : Nat) : List Byte := (List.range n).map fun i => m.read (a + i)

/-- Writes each byte at its offset from `base`. -/
def Memory.scatter (m : Memory) (base : Nat) : List (Nat × Byte) → Memory
  | [] => m
  | (off, v) :: rest => (m.write (base + off) v).scatter base rest

/-- The cells rise strictly by address and none holds 0. -/
def cellsWf : List Host.Cell → Bool
  | [] => true
  | [c] => c.2 != 0
  | c :: d :: rest => c.2 != 0 && c.1 < d.1 && cellsWf (d :: rest)

/-- The runs are not empty, rise, and do not overlap. -/
def drawnWf : List Drawn → Bool
  | [] => true
  | [r] => r.lo < r.hi
  | r :: s :: rest => r.lo < r.hi && r.hi ≤ s.lo && drawnWf (s :: rest)

/-- The canonical form of memory: cells rising, none equal to what its offset reads as when unlisted (so none 0, and none
where the byte is unspecified), runs rising and apart. -/
def Memory.wf (m : Memory) : Bool :=
  cellsWf m.cells && drawnWf m.drawn && m.cells.all fun c => (drawAt m.drawn c.1).isNone

/-! ## Acceptance and completion -/

/-- R15, R37: STATUS.BUSY reads SEQ = RUN. -/
def State.busy (s : State) : Bool :=
  match s.seq with
  | .idle => false
  | .run => true

/-- R156: an accepted command word: LCMD ← w, SEQ ← RUN, DONE, ERR and ERRCODE ← 0; IRQ_PEND is not changed. -/
def State.accept (s : State) (w : Word) : State :=
  { s with lcmd := w, seq := .run, stage := .issue, done := false, err := false, errCode := .ok }

/-- R158: `complete(code)`, in one step: ERRCODE ← code, ERR ← (code ≠ 0), DONE ← 1, SEQ ← IDLE, IRQ_PEND ← 1. -/
def State.complete (s : State) (code : ErrorCode) : State :=
  { s with errCode := code, err := code != .ok, done := true, seq := .idle, stage := .issue, irqPend := true }

/-- R157 step 2: every command but NOP and INIT completes with NOT_READY while READY = 0. -/
def State.whenReady (s : State) (k : Result) : Result := if s.ready then k else .next (s.complete .notReady)

/-- R157 step 3: a command whose parameter check fails completes with PARAM. -/
def State.whenParam (s : State) (check : Bool) (k : Result) : Result := if check then k else .next (s.complete .param)

/-- R65, R108: the command's record of VERSION_TABLE (log 17). -/
def State.withRecord (s : State) (ver : BitVec 6) (k : VersionRecord → Result) : Result :=
  match s.params.record? ver with
  | some r => k r
  | none => .refused .versionTable

/-- R66, R118: the command's entry of VERSION_TABLE (log 17). -/
def State.withEntry (s : State) (ver : BitVec 6) (ecl : BitVec 2) (k : EcEntry → Result) : Result :=
  match s.params.entry? ver ecl with
  | some e => k e
  | none => .refused .versionTable

end Sys2Proof.Machine
end

