-- ==== Sys2Proof/Machine/Flags.lean ====
section
/-! DEFINITION. The flags (R39): the codes of ERRCODE (R164), STATUS and IRQ as the host reads and writes them (R14 to R22), the
interrupt line (R169). -/

namespace Sys2Proof.Machine

/-- R164: the code of each completion. -/
def ErrorCode.toByte : ErrorCode → Byte
  | .ok => 0x00
  | .illegalCmd => 0x01
  | .notReady => 0x02
  | .param => 0x03
  | .shortCodewords => 0x10
  | .rsZeroDivisor => 0x20
  | .rsNoDecrease => 0x21
  | .rsSigma0Zero => 0x22
  | .rsRootcount => 0x23
  | .rsPosition => 0x24
  | .rsErasureCount => 0x25
  | .rsInconsistent => 0x26
  | .streamNumericRange => 0x30
  | .streamAlnumRange => 0x31
  | .streamUnderrun => 0x32
  | .streamTrailing => 0x33
  | .streamUnknownMode => 0x34
  | .outOverflow => 0x35

/-- One flag as a bit. -/
def bit (b : Bool) : BitVec 1 := BitVec.ofBool b

/-- R14 to R21: STATUS as a 32-bit read returns it; reserved bits read 0. -/
def State.statusWord (s : State) : Word :=
  (0 : BitVec 13) ++ bit s.busErr ++ bit s.accViol ++ bit s.overrun ++ s.errCode.toByte
    ++ (0 : BitVec 4) ++ bit s.err ++ bit s.done ++ bit s.busy ++ bit s.ready

/-- R19 to R21: a write to STATUS clears the sticky bits whose written value is 1 and changes nothing else. -/
def State.writeStatus (s : State) (v : Word) : State :=
  { s with
    overrun := s.overrun && !v.getLsbD 16
    accViol := s.accViol && !v.getLsbD 17
    busErr := s.busErr && !v.getLsbD 18 }

/-- R22: IRQ as a 32-bit read returns it. -/
def State.irqWord (s : State) : Word := (0 : BitVec 30) ++ bit s.irqPend ++ bit s.irqEn

/-- R22: a write to IRQ sets IRQ_EN and, where bit 1 is written 1, clears IRQ_PEND. -/
def State.writeIrq (s : State) (v : Word) : State :=
  { s with irqEn := v.getLsbD 0, irqPend := s.irqPend && !v.getLsbD 1 }

/-- R169: the interrupt output, `IRQ_EN & IRQ_PEND`. -/
def State.irq (s : State) : Bool := s.irqEn && s.irqPend

end Sys2Proof.Machine
end

