-- ==== Sys2Proof/Machine/Operands.lean ====
section
/-! DEFINITION. The operand forms of the commands and their parameter checks (R65, R69, R157), the erasure map (R34), the modules of the
grid (R42) and the data stream as bits (R72, R140). -/

namespace Sys2Proof.Machine

/-- R65: VER is 1..40. -/
def verOk (ver : BitVec 6) : Bool := 1 ≤ ver.toNat && ver.toNat ≤ 40

/-- R69: N ≠ 0 and NEC ≤ N. -/
def blockOk (n nec : BitVec 8) : Bool := n.toNat != 0 && nec.toNat ≤ n.toNat

/-- R42, R65: `dim = 17 + 4·VER`. -/
def dimOf (ver : BitVec 6) : Nat := 17 + 4 * ver.toNat

/-- R42: `Module(x, y)` of a grid `dim` modules wide. -/
def State.module (s : State) (dim x y : Nat) : Bool :=
  (s.mem.read (moduleRam + (y * dim + x) / 8)).getLsbD ((y * dim + x) % 8)

/-- R34: whether position `p` of RS_RAM is marked erased. -/
def State.erased (s : State) (p : Nat) : Bool := s.erase.getLsbD p

/-- R34: register ERASE`k`. -/
def State.eraseReg (s : State) (k : Nat) : Word := s.erase.extractLsb' (32 * k) 32

/-- R34: the erasure map with register ERASE`k` written. -/
def setEraseReg (map : BitVec 256) (k : Nat) (v : Word) : BitVec 256 :=
  (map &&& ~~~((0xFFFFFFFF#256) <<< (32 * k))) ||| (v.setWidth 256 <<< (32 * k))

/-- R140: how many bits the stream has, 8·DLEN. -/
def State.streamEnd (s : State) : Nat := 8 * s.dlen.toNat

/-- R140: bit `q` of the stream, most significant bit of byte 0 first. -/
def State.streamBit (s : State) (q : Nat) : Bool := (s.mem.read (dataRam + q / 8)).getLsbD (7 - q % 8)

/-- R140: the bits from position `q` on, `n` of them. -/
def State.streamBitsFrom (s : State) : Nat → Nat → List Bool
  | _, 0 => []
  | q, n + 1 => s.streamBit q :: s.streamBitsFrom (q + 1) n

/-- R140: the bits of the stream from the parser's position to its end. -/
def State.streamRest (s : State) : List Bool := s.streamBitsFrom s.parser.pos (s.streamEnd - s.parser.pos)

end Sys2Proof.Machine
end

