-- ==== Sys2Proof/Machine/Bus.lean ====
section
/-! DEFINITION. Host accesses to the window (R41, R50 to R57): the register map (R11, R35), reads and writes of registers and buffers, what
each does while BUSY = 1 (R18 to R20, R36, R57) and the bus errors (R21, R53). Offsets are offsets in the window. -/

namespace Sys2Proof.Machine

/-- R11: the registers; `erase k` is ERASEk, `unlisted` an offset R11 does not list (R35). -/
inductive Reg
  | id
  | cmd
  | status
  | irq
  | dlen
  | cwCount
  | remBits
  | totalCw
  | nBlocks
  | ecCount
  | errCnt
  | failBlk
  | bitPos
  | nChunk
  | outLen
  | erase (k : Nat)
  | unlisted
  deriving DecidableEq, Repr

/-- R11: the register at the word offset `off` of 0x000–0x0FFF. -/
def regAt (off : Nat) : Reg :=
  match off with
  | 0x000 => .id
  | 0x004 => .cmd
  | 0x008 => .status
  | 0x00C => .irq
  | 0x010 => .dlen
  | 0x014 => .cwCount
  | 0x018 => .remBits
  | 0x01C => .totalCw
  | 0x020 => .nBlocks
  | 0x024 => .ecCount
  | 0x028 => .errCnt
  | 0x02C => .failBlk
  | 0x030 => .bitPos
  | 0x034 => .nChunk
  | 0x038 => .outLen
  | off => if 0x040 ≤ off ∧ off ≤ 0x05C then .erase ((off - 0x040) / 4) else .unlisted

/-- R41: what stands at an offset. -/
inductive Region
  | register (r : Reg)
  | ram        -- a buffer the host may read and write
  | blkDesc    -- BLKDESC, read-only to the host
  | reserved   -- reads 0, ignores writes
  deriving DecidableEq, Repr

/-- R41: the region of an offset; a register is told by its word. -/
def regionOf (off : Nat) : Region :=
  if off < 0x1000 then .register (regAt (off - off % 4))
  else if off < 0x5100 then .ram
  else if off < 0x5400 then .reserved
  else if off < 0x5544 then .blkDesc
  else if off < 0x6000 then .reserved
  else .ram

/-- R41, R7: the offset of a bus address in the 64 KiB window at BASE; an access is in the window where its first byte is
(log 30). -/
def windowOffset (p : Params) (addr : Nat) : Option Nat :=
  if addr / 0x10000 = p.baseBlock then some (addr % 0x10000) else none

/-- R52, R53: an access of this width at this offset is aligned and of a width its region takes. An access R53 names is a bus
error wherever it goes, a reserved range, an unlisted register and BLKDESC among them (log 29). -/
def accessOk (off : Nat) (w : Width) : Bool :=
  match w with
  | .w8 => 0x1000 ≤ off
  | .w16 => 0x1000 ≤ off && off % 2 == 0
  | .w32 => off % 4 == 0
  | .other => false

/-- R50: how many bytes a width reaches. -/
def Width.bytes : Width → Nat
  | .w8 => 1
  | .w16 => 2
  | .w32 => 4
  | .other => 0

/-- The low bits of a word that an access of this width carries, zero-extended (log 25). -/
def Width.clip (w : Width) (v : Word) : Word :=
  match w with
  | .w8 => (v.setWidth 8).setWidth 32
  | .w16 => (v.setWidth 16).setWidth 32
  | .w32 => v
  | .other => 0

/-- R50: the little-endian number of a list of bytes. -/
def leWord : List Byte → Word
  | [] => 0
  | b :: bs => (leWord bs <<< 8) ||| b.setWidth 32

/-- R20, R36: the operand registers, which the engine owns while BUSY = 1. -/
def Reg.isOperand : Reg → Bool
  | .dlen => true
  | .cwCount => true
  | .erase _ => true
  | .id => false
  | .cmd => false
  | .status => false
  | .irq => false
  | .remBits => false
  | .totalCw => false
  | .nBlocks => false
  | .ecCount => false
  | .errCnt => false
  | .failBlk => false
  | .bitPos => false
  | .nChunk => false
  | .outLen => false
  | .unlisted => false

/-- R18, R35, R36: the registers whose value is defined while BUSY = 1. -/
def Reg.definedWhileBusy : Reg → Bool
  | .id => true
  | .cmd => true
  | .status => true
  | .irq => true
  | .unlisted => true
  | .dlen => false
  | .cwCount => false
  | .remBits => false
  | .totalCw => false
  | .nBlocks => false
  | .ecCount => false
  | .errCnt => false
  | .failBlk => false
  | .bitPos => false
  | .nChunk => false
  | .outLen => false
  | .erase _ => false

/-- R11 to R35: a register as a 32-bit read returns it; reserved bits read 0. -/
def State.readReg (s : State) : Reg → Word
  | .id => 0x51524401
  | .cmd => s.lcmd
  | .status => s.statusWord
  | .irq => s.irqWord
  | .dlen => s.dlen.setWidth 32
  | .cwCount => s.cwCount.setWidth 32
  | .remBits => s.remBits.setWidth 32
  | .totalCw => s.totalCw.setWidth 32
  | .nBlocks => s.nBlocks.setWidth 32
  | .ecCount => s.ecCount.setWidth 32
  | .errCnt => s.errCnt.setWidth 32
  | .failBlk => s.failBlk.setWidth 32
  | .bitPos => s.bitPos.setWidth 32
  | .nChunk => s.nChunk.setWidth 32
  | .outLen => s.outLen.setWidth 32
  | .erase k => s.eraseReg k
  | .unlisted => 0

/-- R13, R21 to R24, R34 to R36, R156: a 32-bit write to a register. -/
def State.writeReg (s : State) (r : Reg) (v : Word) : State :=
  match r with
  | .cmd => if s.busy then { s with overrun := true } else s.accept v
  | .status => s.writeStatus v
  | .irq => s.writeIrq v
  | .dlen => if s.busy then { s with accViol := true } else { s with dlen := v.setWidth 13 }
  | .cwCount => if s.busy then { s with accViol := true } else { s with cwCount := v.setWidth 13 }
  | .erase k => if s.busy then { s with accViol := true } else { s with erase := setEraseReg s.erase k v }
  | .id => s
  | .remBits => s
  | .totalCw => s
  | .nBlocks => s
  | .ecCount => s
  | .errCnt => s
  | .failBlk => s
  | .bitPos => s
  | .nChunk => s
  | .outLen => s
  | .unlisted => s

/-- R20: whether an access to this region while BUSY = 1 sets ACCVIOL: any access to a buffer window and any write to an
operand register. Of BLKDESC a read is a buffer read (R57), and a write is ignored and sets no status bit (R54; log 12). -/
def Region.violates (reg : Region) (isWrite : Bool) : Bool :=
  match reg with
  | .ram => true
  | .blkDesc => !isWrite
  | .register r => isWrite && r.isOperand
  | .reserved => false

/-- R21, R53: a misaligned or wrong-width access sets BUSERR; R20 sets ACCVIOL too where it applies (log 13), which is judged by
the region or register word of the access's first byte alone, also where its bytes would reach into the next one (log 30). -/
def State.busError (s : State) (off : Nat) (isWrite : Bool) : State :=
  { s with busErr := true, accViol := s.accViol || (s.busy && (regionOf off).violates isWrite) }

/-- R36, R57: a read that returns an unspecified value of the width `w` (log 5). -/
def State.drawRead (s : State) (w : Width) : State :=
  { s with rdata := w.clip (Config.unspecifiedWord s.draws), draws := s.draws + 1 }

/-- A host read at offset `off` (R35, R36, R50 to R54, R57); the value goes to the bus response `rdata`. -/
def State.hostRead (s : State) (off : Nat) (w : Width) : State :=
  if accessOk off w then
    match regionOf off with
    | .register r =>
      if s.busy && !r.definedWhileBusy then s.drawRead w else { s with rdata := s.readReg r }
    | .reserved => { s with rdata := 0 }
    | .ram =>
      if s.busy then { s with accViol := true }.drawRead w else { s with rdata := leWord (s.mem.readBytes off w.bytes) }
    | .blkDesc =>
      if s.busy then { s with accViol := true }.drawRead w else { s with rdata := leWord (s.mem.readBytes off w.bytes) }
  else { s.busError off false with rdata := 0 }

/-- A host write of `v` at offset `off` (R13, R19 to R22, R35, R50 to R54, R57, R156). -/
def State.hostWrite (s : State) (off : Nat) (w : Width) (v : Word) : State :=
  if accessOk off w then
    match regionOf off with
    | .register r => s.writeReg r v
    | .reserved => s
    | .ram =>
      if s.busy then { s with accViol := true }
      else { s with mem := s.mem.writeBytes off ((bytesOfWord v).take w.bytes) }
    | .blkDesc => s
  else s.busError off true

end Sys2Proof.Machine
end

