-- ==== Sys2Proof/Machine/Gf256.lean ====
section
/-! DEFINITION. GF(256) arithmetic (R91 to R98), GFTAB (R96) and polynomials over GF(256) (R99 to R105). Addition of field elements is
`^^^` (R92). Field operations are computed directly, as R96 allows a model to do (log 18). -/

namespace Sys2Proof.Machine

/-- R93: `r·z mod P`, the inner step of the bit-serial product; also `mul(r, 0x02)` (R94). -/
def gfDouble (r : Byte) : Byte :=
  let t : BitVec 9 := r.setWidth 9 <<< 1
  (if t.getLsbD 8 then t ^^^ 0x11D else t).setWidth 8

/-- R93: the bit-serial product, from bit 7 of `b` down to bit 0. -/
def gfMul (a b : Byte) : Byte :=
  [7, 6, 5, 4, 3, 2, 1, 0].foldl (fun r i => if b.getLsbD i then gfDouble r ^^^ a else gfDouble r) 0

/-- R94: `exp[i]`, the power α^i of α = 0x02. -/
def gfExp : Nat → Byte
  | 0 => 0x01
  | i + 1 => gfDouble (gfExp i)

/-- The first exponent from `i` on, among the next `fuel`, whose power of α is `e`; `x` is α^i. -/
def gfLogFrom (e : Byte) : Nat → Nat → Byte → Option Nat
  | 0, _, _ => none
  | fuel + 1, i, x => if x = e then some i else gfLogFrom e fuel (i + 1) (gfDouble x)

/-- R95: `log(e)`, the i in 0..254 with exp[i] = e. log(0) is undefined and no rule takes it (log 19). -/
def gfLog (e : Byte) : Nat := (gfLogFrom e 255 0 0x01).getD Config.logOfZero

/-- R97: `inv(a) = exp[(255 − log a) mod 255]` for a nonzero a; inv(0) is undefined, a free value (log 19). -/
def gfInv (a : Byte) : Byte := if a = 0 then Config.inverseOfZero else gfExp ((255 - gfLog a) % 255)

/-- R97: `a / b = a · inv(b)`. -/
def gfDiv (a b : Byte) : Byte := gfMul a (gfInv b)

/-- `n` successive powers of α from `x` on. -/
def gfPowers : Nat → Byte → List Byte
  | 0, _ => []
  | n + 1, x => x :: gfPowers n (gfDouble x)

/-- R94 to R96: GFTAB as INIT computes it: exp[0..255], with exp[255] = exp[0], and log[1..255]. -/
def GfTab.build : GfTab where
  exp := gfPowers 255 0x01 ++ [0x01]
  log := (List.range 255).map fun i => BitVec.ofNat 8 (gfLog (BitVec.ofNat 8 (i + 1)))

/-! ## Polynomials (R99): lists of coefficients, lowest power first -/

/-- R99: a polynomial over GF(256). Trailing zeros carry no meaning. -/
abbrev Poly := List Byte

/-- R99: every coefficient is 0. -/
def Poly.isZero (p : Poly) : Bool := p.all (· == 0)

/-- R99: `p_i`. -/
def Poly.coeff (p : Poly) (i : Nat) : Byte := p.getD i 0

/-- R99: the largest i with p_i ≠ 0, and deg(0) = 0. -/
def Poly.deg : Poly → Nat
  | [] => 0
  | _ :: p => if Poly.isZero p then 0 else Poly.deg p + 1

/-- R99: the coefficient at the degree. -/
def Poly.lead (p : Poly) : Byte := p.coeff p.deg

/-- R100: the sum. -/
def Poly.add : Poly → Poly → Poly
  | [], q => q
  | p, [] => p
  | a :: p, b :: q => (a ^^^ b) :: Poly.add p q

/-- R100: `c·p`. -/
def Poly.scale (c : Byte) (p : Poly) : Poly := p.map (gfMul c)

/-- R100: `p·x^d`. -/
def Poly.shift (d : Nat) (p : Poly) : Poly := List.replicate d 0 ++ p

/-- R100: the product. -/
def Poly.mul : Poly → Poly → Poly
  | [], _ => []
  | a :: p, q => Poly.add (Poly.scale a q) (0 :: Poly.mul p q)

/-- R99: `c·x^d`. -/
def Poly.mono (d : Nat) (c : Byte) : Poly := Poly.shift d [c]

/-- R101: the loop of `divmod`, at most `fuel` passes; `li` is inv(lead(b)). -/
def Poly.divLoop (b : Poly) (li : Byte) : Nat → Poly → Poly → Poly × Poly
  | 0, q, r => (q, r)
  | fuel + 1, q, r =>
    if !r.isZero && r.deg ≥ b.deg then
      let m := Poly.mono (r.deg - b.deg) (gfMul r.lead li)
      Poly.divLoop b li fuel (Poly.add q m) (Poly.add r (Poly.mul m b))
    else (q, r)

/-- R101: division with remainder. Each pass clears the leading coefficient of r, so deg(a) + 1 passes are enough (log 21). -/
def Poly.divmod (a b : Poly) : Poly × Poly := Poly.divLoop b (gfInv b.lead) (a.deg + 1) [] a

/-- R102: `p(e)`, by Horner's rule from the top coefficient down. -/
def Poly.eval : Poly → Byte → Byte
  | [], _ => 0
  | c :: p, e => gfMul (Poly.eval p e) e ^^^ c

/-- R103: the codeword polynomial of a block: the first codeword is the highest coefficient. -/
def codewordPoly (c : List Byte) : Poly := c.reverse

/-- R104: `S_j = C(α^j)` for j in 0..nEC−1. -/
def syndromes (c : List Byte) (nEc : Nat) : List Byte :=
  (List.range nEc).map fun j => (codewordPoly c).eval (gfExp j)

/-- R105: the generator polynomial, the product of (x + α^j) for j in 0..nEC−1. -/
def generator : Nat → Poly
  | 0 => [0x01]
  | j + 1 => Poly.mul (generator j) [gfExp j, 0x01]

end Sys2Proof.Machine
end

