-- ==== Sys2Proof/Machine/ReedSolomon.lean ====
section
/-! DEFINITION. The Reed-Solomon engine: the block decode function rsdecode (R126 to R133), the block encoder (R137), the erasure filler
(R138), and the commands RS_DECODE, RS_ENCODE and RS_FILL on RS_RAM (R135, R137, R138). -/

namespace Sys2Proof.Machine

/-! ## The block decode function -/

/-- What rsdecode returns: `OK(c', ν)` or `FAIL(code)`. -/
inductive RsResult
  | ok (block : List Byte) (nu : Nat)
  | fail (code : ErrorCode)
  deriving DecidableEq, Repr

/-- What the extended Euclidean algorithm leaves. -/
inductive EuclidResult
  | ok (t r : Poly)
  | fail (code : ErrorCode)
  deriving DecidableEq, Repr

/-- R127: the loop, `rLast`, `r`, `tLast`, `t` being the spec's variables. Each pass lowers deg(r), so nEC + 1 rounds are
enough; the arm of no rounds left is not reached (log 21). -/
def euclidLoop (nEc : Nat) : Nat → Poly → Poly → Poly → Poly → EuclidResult
  | 0, _, _, _, _ => .fail .rsNoDecrease
  | fuel + 1, rLast, r, tLast, t =>
    if 2 * r.deg ≥ nEc then
      if r.isZero then .fail .rsZeroDivisor
      else
        let qr := Poly.divmod rLast r
        let t' := Poly.add (Poly.mul qr.1 t) tLast
        if qr.2.deg ≥ r.deg then .fail .rsNoDecrease
        else euclidLoop nEc fuel r qr.2 t t'
    else .ok t r

/-- R127: the algorithm on x^nEC and S(x). -/
def euclid (nEc : Nat) (s : Poly) : EuclidResult := euclidLoop nEc (nEc + 1) (Poly.mono nEc 0x01) s [] [0x01]

/-- R129: the roots of σ among 0x01..0xFF, in increasing numeric order. -/
def chienRoots (sigma : Poly) : List Byte :=
  ((List.range 255).map fun i => BitVec.ofNat 8 (i + 1)).filter fun e => sigma.eval e == 0

/-- R130: the product of (1 ⊕ X_j·inv(X_i)) over the other locations; `others` are the X_j. -/
def forneyDenominator (xi : Byte) : List Byte → Byte
  | [] => 0x01
  | xj :: others => gfMul (0x01 ^^^ gfMul xj (gfInv xi)) (forneyDenominator xi others)

/-- R130: the magnitude at location `xi`. -/
def forneyMagnitude (omega : Poly) (xi : Byte) (others : List Byte) : Byte :=
  gfDiv (omega.eval (gfInv xi)) (forneyDenominator xi others)

/-- R130: the magnitude of each location of `xs`, in order; `before` are the locations already passed. -/
def forneyAll (omega : Poly) : List Byte → List Byte → List Byte
  | _, [] => []
  | before, x :: xs => forneyMagnitude omega x (before ++ xs) :: forneyAll omega (before ++ [x]) xs

/-- R132: XORs each magnitude into the codeword at its position. -/
def xorAt : List Byte → List (Nat × Byte) → List Byte
  | c, [] => c
  | c, (p, e) :: rest => xorAt (c.set p (c.getD p 0 ^^^ e)) rest

/-- R128 to R132: from the Euclidean algorithm's t and r to the corrected block. -/
def rsCorrect (c : List Byte) (t r : Poly) : RsResult :=
  let s0 := t.coeff 0
  if s0 = 0 then .fail .rsSigma0Zero
  else
    let sigma := Poly.scale (gfInv s0) t
    let omega := Poly.scale (gfInv s0) r
    let locations := (chienRoots sigma).map gfInv
    if locations.length ≠ sigma.deg then .fail .rsRootcount
    else if locations.any fun x => gfLog x ≥ c.length then .fail .rsPosition
    else
      let positions := locations.map fun x => c.length - 1 - gfLog x
      .ok (xorAt c (positions.zip (forneyAll omega [] locations))) sigma.deg

/-- R126 to R133: `rsdecode(c, nEC)`. -/
def rsdecode (c : List Byte) (nEc : Nat) : RsResult :=
  let s := syndromes c nEc
  if s.all (· == 0) then .ok c 0
  else match euclid nEc s with
    | .fail code => .fail code
    | .ok t r => rsCorrect c t r

/-! ## The block encoder, R137 -/

/-- R137: one pass of the encoder for the data codeword `d`; `gt` is gh[1..NEC]. -/
def encodeStep (gt : List Byte) (rem : List Byte) (d : Byte) : List Byte :=
  let fb := d ^^^ rem.headD 0
  List.zipWith (fun x g => x ^^^ gfMul fb g) (rem.tail ++ [0]) gt

/-- R137: the EC codewords of the data codewords `data`. -/
def rsEncodeBlock (data : List Byte) (nEc : Nat) : List Byte :=
  data.foldl (encodeStep (generator nEc).reverse.tail) (List.replicate nEc 0)

/-! ## The erasure filler, R138 -/

/-- R138: E, the positions p in 0..<N whose ERASE bit is 1. -/
def State.erasedPositions (s : State) (n : Nat) : List Nat := (List.range n).filter s.erased

/-- The erasure locator, the product of (1 + X·x) over the erased locations. -/
def erasureLocator : List Byte → Poly
  | [] => [0x01]
  | x :: xs => Poly.mul [0x01, x] (erasureLocator xs)

/-- Writes the value `v` at each position `p`. -/
def setAt : List Byte → List (Nat × Byte) → List Byte
  | c, [] => c
  | c, (p, v) :: rest => setAt (c.set p v) rest

/-- R138: the block whose erased positions are filled so that the first |E| syndromes are 0 (log 20): the erased bytes are
taken as 0, and the value at each erased location is the Forney magnitude of the erasure locator. -/
def fillErasures (c : List Byte) (positions : List Nat) : List Byte :=
  let c0 := setAt c (positions.map fun p => (p, 0))
  let xs := positions.map fun p => gfExp (c.length - 1 - p)
  let omega := (Poly.mul (syndromes c0 xs.length) (erasureLocator xs)).take xs.length
  setAt c0 (positions.zip (forneyAll omega [] xs))

/-- R138: the filled block, where a fill makes every one of the nEC syndromes 0. -/
def rsFillBlock (c : List Byte) (nEc : Nat) (positions : List Nat) : Option (List Byte) :=
  let c' := fillErasures c positions
  if (syndromes c' nEc).all (· == 0) then some c' else none

/-! ## The commands -/

/-- R135: RS_DECODE. -/
def execRsDecode (n nec : BitVec 8) (s : State) : Result :=
  s.whenReady <| s.whenParam (blockOk n nec) <|
    match rsdecode (s.mem.readBytes rsRam n.toNat) nec.toNat with
    | .ok c' nu =>
      .next ({ s with mem := s.mem.writeBytes rsRam c', errCnt := BitVec.ofNat 16 nu }.complete .ok)
    | .fail code => .next ({ s with errCnt := 0 }.complete code)

/-- R137: RS_ENCODE. -/
def execRsEncode (n nec : BitVec 8) (s : State) : Result :=
  s.whenReady <| s.whenParam (blockOk n nec) <|
    let k := n.toNat - nec.toNat
    let ec := rsEncodeBlock (s.mem.readBytes rsRam k) nec.toNat
    .next ({ s with mem := s.mem.writeBytes (rsRam + k) ec, errCnt := 0 }.complete .ok)

/-- R138: RS_FILL. -/
def execRsFill (n nec : BitVec 8) (s : State) : Result :=
  s.whenReady <| s.whenParam (blockOk n nec) <|
    let positions := s.erasedPositions n.toNat
    if positions.length > nec.toNat then .next ({ s with errCnt := 0 }.complete .rsErasureCount)
    else match rsFillBlock (s.mem.readBytes rsRam n.toNat) nec.toNat positions with
      | some c' =>
        let filled := positions.map fun p => (p, c'.getD p 0)
        .next ({ s with mem := s.mem.scatter rsRam filled, errCnt := BitVec.ofNat 16 positions.length }.complete .ok)
      | none => .next ({ s with errCnt := 0 }.complete .rsInconsistent)

end Sys2Proof.Machine
end

