-- ==== Sys2Proof/Machine/Blocks.lean ====
section
/-! DEFINITION. Block assembly and the decoding of every block: the block list (R118, R119), the deal (R120), the descriptors (R121),
DEINTERLEAVE (R122) and RS_DECODE_ALL (R136). -/

namespace Sys2Proof.Machine

/-- One block of a symbol: its offset in BLK_RAM, its data codewords and all its codewords (R45, R118, R119). -/
structure Block where
  start : Nat
  ndata : Nat
  ntotal : Nat
  deriving DecidableEq, Repr

/-- R118, R119: the blocks of the data counts `ndatas`, one after another from `start` on. -/
def blocksFrom (ec : Nat) : Nat → List Nat → List Block
  | _, [] => []
  | start, nd :: rest => ⟨start, nd, nd + ec⟩ :: blocksFrom ec (start + (nd + ec)) rest

/-- R118, R119: the block list of an entry. -/
def blockList (e : EcEntry) : List Block := blocksFrom e.ecPerBlock 0 e.blocks

/-- R119: `dmax`. -/
def maxData (bs : List Block) : Nat := (bs.map (·.ndata)).foldl max 0

/-- R119: `dmin`. -/
def minData : List Block → Nat
  | [] => 0
  | b :: bs => (bs.map (·.ndata)).foldl min b.ndata

/-- R120: the destinations of one row: each block's offset `start_b + r`. -/
def dealRow (bs : List Block) (r : Nat) : List Nat := bs.map fun b => b.start + r

/-- R120: the offsets in BLK_RAM the codewords go to, in the order they are dealt. -/
def dealOrder (ec : Nat) (bs : List Block) : List Nat :=
  let dmin := minData bs
  let dmax := maxData bs
  (List.range dmin).flatMap (dealRow bs)
    ++ (List.range (dmax - dmin)).flatMap (fun i => dealRow (bs.filter fun b => b.ndata > dmin + i) (dmin + i))
    ++ (List.range ec).flatMap fun r => bs.map fun b => b.start + b.ndata + r

/-- R45: BLKDESC entry of a block. -/
def Block.descriptor (b : Block) : Word :=
  (0 : BitVec 4) ++ BitVec.ofNat 8 b.ntotal ++ BitVec.ofNat 8 b.ndata ++ BitVec.ofNat 12 b.start

/-- R121: the 81 entries of BLKDESC: one for each block, the others 0. -/
def descriptorWords (bs : List Block) : List Word :=
  bs.map Block.descriptor ++ List.replicate (81 - bs.length) 0

/-- R121: the block descriptors: TOTALCW, NBLOCKS, ECCOUNT and BLKDESC. -/
def State.writeDescriptors (s : State) (e : EcEntry) : State :=
  { s with
    totalCw := BitVec.ofNat 13 e.total
    nBlocks := BitVec.ofNat 7 e.blocks.length
    ecCount := BitVec.ofNat 8 e.ecPerBlock
    mem := s.mem.writeBytes blkDesc ((descriptorWords (blockList e)).flatMap bytesOfWord) }

/-- R122: the effects of DEINTERLEAVE before its completion, and the code it completes with. -/
def State.deinterleaveStage (s : State) (e : EcEntry) : State × ErrorCode :=
  let s1 := s.writeDescriptors e
  if s.cwCount.toNat < e.total then (s1, .shortCodewords)
  else
    let cw := s1.mem.readBytes cwRam e.total
    ({ s1 with mem := s1.mem.scatter blkRam ((dealOrder e.ecPerBlock (blockList e)).zip cw) }, .ok)

/-- What decoding the blocks in order gives: memory, the sum of ν so far, and where a block failed its index and code. -/
structure AllResult where
  mem : Memory
  sum : Nat
  failed : Option (Nat × ErrorCode)
  deriving DecidableEq, Repr

/-- R136: the first loop; `b` is the index of the first block of the list. -/
def decodeBlocks (ec : Nat) : Memory → Nat → Nat → List Block → AllResult
  | m, _, sum, [] => ⟨m, sum, none⟩
  | m, b, sum, blk :: rest =>
    match rsdecode (m.readBytes (blkRam + blk.start) blk.ntotal) ec with
    | .ok c' nu => decodeBlocks ec (m.writeBytes (blkRam + blk.start) c') (b + 1) (sum + nu) rest
    | .fail code => ⟨m, sum, some (b, code)⟩

/-- R136: the second loop: the data codewords of every block, in block order. -/
def gatherData (m : Memory) (bs : List Block) : List Byte :=
  bs.flatMap fun b => m.readBytes (blkRam + b.start) b.ndata

/-- R136: the effects of RS_DECODE_ALL before its completion, and the code it completes with. -/
def State.rsDecodeAllStage (s : State) (e : EcEntry) : State × ErrorCode :=
  let s1 := s.writeDescriptors e
  let all := decodeBlocks e.ecPerBlock s1.mem 0 0 (blockList e)
  match all.failed with
  | some (b, code) =>
    ({ s1 with mem := all.mem, errCnt := BitVec.ofNat 16 all.sum, failBlk := BitVec.ofNat 8 b }, code)
  | none =>
    let stream := gatherData all.mem (blockList e)
    ({ s1 with
       mem := all.mem.writeBytes dataRam stream
       dlen := BitVec.ofNat 13 stream.length
       errCnt := BitVec.ofNat 16 all.sum
       failBlk := 0xFF }, .ok)

/-- R122: DEINTERLEAVE. -/
def execDeinterleave (ver : BitVec 6) (ecl : BitVec 2) (s : State) : Result :=
  s.whenReady <| s.whenParam (verOk ver && s.cwCount.toNat ≤ 4096) <| s.withEntry ver ecl fun e =>
    let r := s.deinterleaveStage e
    .next (r.1.complete r.2)

/-- R136: RS_DECODE_ALL. -/
def execRsDecodeAll (ver : BitVec 6) (ecl : BitVec 2) (s : State) : Result :=
  s.whenReady <| s.whenParam (verOk ver) <| s.withEntry ver ecl fun e =>
    let r := s.rsDecodeAllStage e
    .next (r.1.complete r.2)

end Sys2Proof.Machine
end

