-- ==== Sys2Proof/Machine/Extract.lean ====
section
/-! DEFINITION. The bit-extraction engine: the function-pattern mask (R112), the data masks (R113), the zig-zag scan (R114), bit packing
(R115) and EXTRACT (R116). -/

namespace Sys2Proof.Machine

/-- A rectangle of modules, `(left, top, width, height)` (R112); left and top may be negative for a centre near the edge. -/
structure Rect where
  left : Int
  top : Int
  width : Nat
  height : Nat
  deriving DecidableEq, Repr

/-- Whether the rectangle covers (x, y). -/
def Rect.covers (r : Rect) (x y : Nat) : Bool :=
  r.left ≤ x && x < r.left + r.width && r.top ≤ y && y < r.top + r.height

/-- R112: the alignment patterns of the centres `centres`, at every pair but the three that overlap a finder pattern. -/
def alignmentRects (dim : Nat) (centres : List Nat) : List Rect :=
  (centres.flatMap fun cx => centres.map fun cy => (cx, cy)).filterMap fun c =>
    if c = (6, 6) ∨ c = (6, dim - 7) ∨ c = (dim - 7, 6) then none
    else some ⟨c.1 - 2, c.2 - 2, 5, 5⟩

/-- R112: the rectangles of the function-pattern mask. -/
def functionRects (ver : BitVec 6) (centres : List Nat) : List Rect :=
  let dim := dimOf ver
  [⟨0, 0, 9, 9⟩, ⟨dim - 8, 0, 8, 9⟩, ⟨0, dim - 8, 9, 8⟩]
    ++ alignmentRects dim centres
    ++ [⟨6, 9, 1, dim - 17⟩, ⟨9, 6, dim - 17, 1⟩]
    ++ (if ver.toNat > 6 then [⟨dim - 11, 0, 3, 6⟩, ⟨0, dim - 11, 6, 3⟩] else [])

/-- R112: `F(x, y)`, given the rectangles. -/
def functionModule (rects : List Rect) (x y : Nat) : Bool := rects.any fun r => r.covers x y

/-- R113: `DM_m(x, y)`, x the column and y the row. -/
def dataMask (m : BitVec 3) (x y : Nat) : Bool :=
  match m.toNat with
  | 0 => (x + y) % 2 == 0
  | 1 => y % 2 == 0
  | 2 => x % 3 == 0
  | 3 => (x + y) % 3 == 0
  | 4 => (y / 2 + x / 3) % 2 == 0
  | 5 => (x * y) % 2 + (x * y) % 3 == 0
  | 6 => ((x * y) % 2 + (x * y) % 3) % 2 == 0
  | _ => ((x + y) % 2 + (x * y) % 3) % 2 == 0

/-- R114: the right column of each pair, from `col` on: while col > 0, with column 6 skipped. -/
def scanColumns : Nat → Nat → List Nat
  | 0, _ => []
  | fuel + 1, col =>
    if col > 0 then
      let c := if col = 6 then 5 else col
      c :: scanColumns fuel (c - 2)
    else []

/-- R114: the modules of one column pair, bottom to top when `up`, the right module of each row first. -/
def scanPair (dim : Nat) (up : Bool) (col : Nat) : List (Nat × Nat) :=
  (List.range dim).flatMap fun i =>
    let y := if up then dim - 1 - i else i
    [(col, y), (col - 1, y)]

/-- R114: the pairs one after another, the direction alternating. -/
def scanPairs (dim : Nat) : Bool → List Nat → List (Nat × Nat)
  | _, [] => []
  | up, col :: cols => scanPair dim up col ++ scanPairs dim (!up) cols

/-- R114: `scan(VER)`, the data modules in the order they are visited. -/
def scan (ver : BitVec 6) (centres : List Nat) : List (Nat × Nat) :=
  let dim := dimOf ver
  let rects := functionRects ver centres
  (scanPairs dim true (scanColumns dim (dim - 1))).filter fun p => !functionModule rects p.1 p.2

/-- R115, R116: packs bits most significant first, `acc` and `k` being the spec's; gives the whole codewords and the count of
the bits left over. -/
def packBits : Byte → Nat → List Bool → List Byte × Nat
  | _, k, [] => ([], k)
  | acc, k, b :: bits =>
    let acc' : Byte := (acc <<< 1) ||| (BitVec.ofBool b).setWidth 8
    if k + 1 = 8 then
      let rest := packBits 0 0 bits
      (acc' :: rest.1, rest.2)
    else packBits acc' (k + 1) bits

/-- R115: the bit `Module(x, y) ⊕ DM_MASK(x, y)` of each visited module. -/
def State.dataBits (s : State) (ver : BitVec 6) (mask : BitVec 3) (centres : List Nat) : List Bool :=
  (scan ver centres).map fun p => s.module (dimOf ver) p.1 p.2 ^^ dataMask mask p.1 p.2

/-- R116: the effects of EXTRACT before its completion: CW_RAM, CWCOUNT, REMBITS. -/
def State.extractStage (s : State) (ver : BitVec 6) (mask : BitVec 3) (centres : List Nat) : State :=
  let packed := packBits 0 0 (s.dataBits ver mask centres)
  { s with
    mem := s.mem.writeBytes cwRam packed.1
    cwCount := BitVec.ofNat 13 packed.1.length
    remBits := BitVec.ofNat 3 packed.2 }

/-- R116: EXTRACT. -/
def execExtract (ver : BitVec 6) (mask : BitVec 3) (s : State) : Result :=
  s.whenReady <| s.whenParam (verOk ver) <| s.withRecord ver fun r =>
    .next ((s.extractStage ver mask r.alignment).complete .ok)

end Sys2Proof.Machine
end

