-- ==== Sys2Proof/Machine/Segments.lean ====
section
/-! DEFINITION. The segment parser: reading fields (R140, R141), emitting a segment (R152), ending a parse (R153), one meaning per segment of
the data stream (R143 to R150), the loop's exit (R151) and PARSE (R154). A segment's meaning starts at the mode indicator, at the
parser's position, and leaves the parser after the segment or the parse ended. -/

namespace Sys2Proof.Machine

/-! ## Reading, emitting, ending -/

/-- One `ReadBits(width)` of a segment, with what follows from the value read: whether it is in range, and the bytes it gives. -/
structure Field where
  width : Nat
  inRange : Bool
  out : List Byte
  deriving DecidableEq, Repr

/-- A field with no range and no bytes: a mode indicator, a count, a header field. -/
def Field.plain (width : Nat) : Field := ⟨width, true, []⟩

/-- What reading a segment's fields gives: the position after them and their bytes, or the code that ends the parse and the
position of the field at fault. -/
inductive ReadResult
  | ok (pos : Nat) (out : List Byte)
  | stop (code : ErrorCode) (at_ : Nat)
  deriving DecidableEq, Repr

/-- R140, R141, R144, R145: reads the fields in order from `pos`. A field that runs past `limit` is an underrun at its own
position; a value out of range ends the parse with `bad` at its field's position. -/
def readFields (limit : Nat) (bad : ErrorCode) : Nat → List Field → ReadResult
  | pos, [] => .ok pos []
  | pos, f :: fs =>
    if pos + f.width > limit then .stop .streamUnderrun pos
    else if f.inRange then
      match readFields limit bad (pos + f.width) fs with
      | .ok p out => .ok p (f.out ++ out)
      | .stop code p => .stop code p
    else .stop bad pos

/-- R153, R154: the parse ends with `code` and BITPOS = `at_`: NCHUNK and OUTLEN count what was emitted, and the command
completes. The bytes of OUT_RAM and the records of CHUNK_RAM past the counts, which R153 leaves unspecified, keep their old
contents, as 93_implementation_defined.md has a model treat them (log 4). -/
def State.endParse (s : State) (code : ErrorCode) (at_ : Nat) : State :=
  { s with
    nChunk := BitVec.ofNat 12 s.parser.nChunk
    outLen := BitVec.ofNat 14 s.parser.outLen
    bitPos := BitVec.ofNat 16 at_ }.complete code

/-- R85: word W0 of a chunk record. -/
def chunkWord0 (typ : BitVec 4) (sbit : Nat) : Word := (0 : BitVec 8) ++ BitVec.ofNat 16 sbit ++ (0 : BitVec 4) ++ typ

/-- R86: a word that holds a 14-bit offset, length or count (log 26). -/
def word14 (n : Nat) : Word := (0 : BitVec 18) ++ BitVec.ofNat 14 n

/-- R85: the 16 bytes of a record. -/
def recordBytes (w0 w1 w2 w3 : Word) : List Byte := [w0, w1, w2, w3].flatMap bytesOfWord

/-- R152: the capacity checks, then the bytes `out` and the record with the words `w1`, `w2`, `w3`, then the counts; `next` is
the position after the segment. -/
def State.emit (s : State) (typ : BitVec 4) (out : List Byte) (w1 w2 w3 : Word) (next : Nat) : State :=
  if s.parser.outLen + out.length > outCap then s.endParse .outOverflow s.parser.pos
  else if s.parser.nChunk + 1 > chunkCap then s.endParse .outOverflow s.parser.pos
  else
    { s with
      mem := (s.mem.writeBytes (outRam + s.parser.outLen) out).writeBytes (chunkRam + 16 * s.parser.nChunk)
        (recordBytes (chunkWord0 typ s.parser.pos) w1 w2 w3)
      parser := { s.parser with
        pos := next
        outLen := s.parser.outLen + out.length
        nChunk := s.parser.nChunk + 1 } }

/-- R86, R152: a segment of bytes: reads its fields, then emits OFF, LEN and COUNT. -/
def State.bytesSegment (s : State) (typ : BitVec 4) (bad : ErrorCode) (fields : List Field) (count : Nat) : State :=
  match readFields s.streamEnd bad s.parser.pos fields with
  | .stop code p => s.endParse code p
  | .ok p out => s.emit typ out (word14 s.parser.outLen) (word14 out.length) (word14 count) p

/-- R86, R152: a segment of header fields only: reads them, then emits `w1`. -/
def State.headerSegment (s : State) (typ : BitVec 4) (fields : List Field) (w1 : Word) : State :=
  match readFields s.streamEnd .streamUnderrun s.parser.pos fields with
  | .stop code p => s.endParse code p
  | .ok p _ => s.emit typ [] w1 0 0 p

/-! ## The fields of each mode -/

/-- R144: the ASCII code of a digit. -/
def digitByte (d : Nat) : Byte := BitVec.ofNat 8 (0x30 + d)

/-- R144: a 10-bit group. -/
def numGroupField (g : BitVec 10) : Field :=
  ⟨10, g.toNat < 1000, [digitByte (g.toNat / 100), digitByte (g.toNat / 10 % 10), digitByte (g.toNat % 10)]⟩

/-- R144: the last group of one or two digits. -/
def numTailFields : NumTail → List Field
  | .none => []
  | .one g => [⟨4, g.toNat < 10, [digitByte g.toNat]⟩]
  | .two g => [⟨7, g.toNat < 100, [digitByte (g.toNat / 10), digitByte (g.toNat % 10)]⟩]

/-- R77: the byte of symbol `i` of the 45-symbol alphabet. -/
def alnumByte (i : Nat) : Byte :=
  if i < 10 then BitVec.ofNat 8 (0x30 + i)
  else if i < 36 then BitVec.ofNat 8 (0x41 + (i - 10))
  else [0x20, 0x24, 0x25, 0x2A, 0x2B, 0x2D, 0x2E, 0x2F, 0x3A].getD (i - 36) 0

/-- R145: an 11-bit pair. -/
def alnumPairField (v : BitVec 11) : Field :=
  ⟨11, v.toNat < 2025, [alnumByte (v.toNat / 45), alnumByte (v.toNat % 45)]⟩

/-- R145: the 6-bit single of an odd count. -/
def alnumLastField (v : BitVec 6) : Field := ⟨6, v.toNat < 45, [alnumByte v.toNat]⟩

/-- R146: one raw byte. -/
def byteField (b : BitVec 8) : Field := ⟨8, true, [b]⟩

/-- R79, R147: the Shift-JIS pair of a 13-bit value, as the 16-bit number high byte first. -/
def kanjiCode (k : BitVec 13) : BitVec 16 :=
  let c := (k.toNat / 0xC0) * 0x100 + k.toNat % 0xC0
  BitVec.ofNat 16 (if c < 0x1F00 then c + 0x8140 else c + 0xC140)

/-- R147: one 13-bit character. -/
def kanjiField (k : BitVec 13) : Field :=
  ⟨13, true, [(kanjiCode k).extractLsb' 8 8, (kanjiCode k).extractLsb' 0 8]⟩

/-! ## The segments -/

/-- R143: the terminator: the parse ends with OK, BITPOS after its 4 bits. -/
def execTerm (s : State) : Result :=
  match readFields s.streamEnd .streamUnderrun s.parser.pos [.plain 4] with
  | .stop code p => .next (s.endParse code p)
  | .ok p _ => .next (s.endParse .ok p)

/-- R144: numeric. -/
def execNum (groups : List (BitVec 10)) (tail : NumTail) (s : State) : Result :=
  .next (s.bytesSegment 0x1 .streamNumericRange
    (.plain 4 :: .plain (numCountWidth s.parser.sizeClass) :: (groups.map numGroupField ++ numTailFields tail))
    (numCount groups tail))

/-- R145: alphanumeric. -/
def execAlnum (pairs : List (BitVec 11)) (last : Option (BitVec 6)) (s : State) : Result :=
  .next (s.bytesSegment 0x2 .streamAlnumRange
    (.plain 4 :: .plain (alnumCountWidth s.parser.sizeClass) :: (pairs.map alnumPairField ++ last.toList.map alnumLastField))
    (alnumCount pairs last))

/-- R146: byte. -/
def execByte (bytes : List (BitVec 8)) (s : State) : Result :=
  .next (s.bytesSegment 0x4 .streamUnderrun
    (.plain 4 :: .plain (byteCountWidth s.parser.sizeClass) :: bytes.map byteField) bytes.length)

/-- R147: Kanji. -/
def execKanji (chars : List (BitVec 13)) (s : State) : Result :=
  .next (s.bytesSegment 0x8 .streamUnderrun
    (.plain 4 :: .plain (kanjiCountWidth s.parser.sizeClass) :: chars.map kanjiField) chars.length)

/-- R148: ECI, a 7-bit assignment number: the indicator, then b0. -/
def execEci7 (a : BitVec 7) (s : State) : Result :=
  .next (s.headerSegment 0x7 [.plain 4, .plain 8] (a.setWidth 32))

/-- R148: ECI, a 14-bit assignment number: the indicator, b0, then 8 bits more. -/
def execEci14 (a : BitVec 14) (s : State) : Result :=
  .next (s.headerSegment 0x7 [.plain 4, .plain 8, .plain 8] (a.setWidth 32))

/-- R148: ECI, a 21-bit assignment number: the indicator, b0, then 16 bits more. -/
def execEci21 (a : BitVec 21) (s : State) : Result :=
  .next (s.headerSegment 0x7 [.plain 4, .plain 8, .plain 16] (a.setWidth 32))

/-- R148: a corrupted ECI designator: the assignment number is −1, nothing more is read, and it is no error. -/
def execEciCorrupt (s : State) : Result :=
  .next (s.headerSegment 0x7 [.plain 4, .plain 8] 0xFFFFFFFF)

/-- R149: Structured Append. -/
def execSa (cur tot : BitVec 4) (par : BitVec 8) (s : State) : Result :=
  .next (s.headerSegment 0x3 [.plain 4, .plain 4, .plain 4, .plain 8] ((0 : BitVec 16) ++ par ++ tot ++ cur))

/-- R83, R150: an unlisted mode indicator, by the policy. -/
def State.unlistedMode (s : State) : State :=
  match readFields s.streamEnd .streamUnderrun s.parser.pos [.plain 4] with
  | .stop code p => s.endParse code p
  | .ok p _ =>
    match s.params.unknownMode with
    | .skip => { s with parser := { s.parser with pos := p } }
    | .fail => s.endParse .streamUnknownMode s.parser.pos

/-- R150: mode indicator 0101. -/
def execUnlisted5 (s : State) : Result := .next s.unlistedMode
/-- R150: mode indicator 0110. -/
def execUnlisted6 (s : State) : Result := .next s.unlistedMode
/-- R150: mode indicator 1001. -/
def execUnlisted9 (s : State) : Result := .next s.unlistedMode
/-- R150: mode indicator 1010. -/
def execUnlistedA (s : State) : Result := .next s.unlistedMode
/-- R150: mode indicator 1011. -/
def execUnlistedB (s : State) : Result := .next s.unlistedMode
/-- R150: mode indicator 1100. -/
def execUnlistedC (s : State) : Result := .next s.unlistedMode
/-- R150: mode indicator 1101. -/
def execUnlistedD (s : State) : Result := .next s.unlistedMode
/-- R150: mode indicator 1110. -/
def execUnlistedE (s : State) : Result := .next s.unlistedMode
/-- R150: mode indicator 1111. -/
def execUnlistedF (s : State) : Result := .next s.unlistedMode

/-! ## The loop's exit and PARSE -/

/-- R151: fewer than 4 bits remain. With none, or none but zeros, or under TRAILING_POLICY = accept, the parse ends with OK at
the end of the stream; else with STREAM_TRAILING at the position. -/
def State.parseExit (s : State) : State :=
  if s.streamRest.all (· == false) then s.endParse .ok s.streamEnd
  else match s.params.trailing with
    | .accept => s.endParse .ok s.streamEnd
    | .reject => s.endParse .streamTrailing s.parser.pos

/-- R142: the start of the parse loop: pos = 0, OUTLEN = 0, NCHUNK = 0, the size class of VER. -/
def State.beginParse (s : State) (ver : BitVec 6) : State :=
  { s with stage := .parse, parser := ⟨0, sizeClassOf ver, 0, 0⟩ }

/-- R154: PARSE: after the checks the parse loop begins; it runs one segment a step, fetched from DATA_RAM, and its end
completes the command (log 7). -/
def execParse (ver : BitVec 6) (s : State) : Result :=
  s.whenReady <| s.whenParam (verOk ver && s.dlen.toNat ≤ 4096) <| .next (s.beginParse ver)

end Sys2Proof.Machine
end

