-- ==== Sys2Proof/Machine/Control.lean ====
section
/-! DEFINITION. The sequencer's commands NOP, INIT and DECODE (R160 to R162) and the reserved and illegal command words (R71). -/

namespace Sys2Proof.Machine

/-- R160: NOP: completes with OK and has no other effect, READY or not. -/
def execNop (s : State) : Result := .next (s.complete .ok)

/-- R161: INIT: builds GFTAB, sets READY and completes with OK. -/
def execInit (s : State) : Result := .next ({ s with ready := true, gfTab := some GfTab.build }.complete .ok)

/-- R162: DECODE: the stages EXTRACT, DEINTERLEAVE, RS_DECODE_ALL, then the parse loop; a stage that would complete with an
error completes the command, and the later stages do not run. The stages' own PARAM checks cannot fail here (log 28). -/
def execDecode (ver : BitVec 6) (ecl : BitVec 2) (mask : BitVec 3) (s : State) : Result :=
  s.whenReady <| s.whenParam (verOk ver) <| s.withRecord ver fun r => s.withEntry ver ecl fun e =>
    let s1 := s.extractStage ver mask r.alignment
    let r2 := s1.deinterleaveStage e
    if r2.2 ≠ .ok then .next (r2.1.complete r2.2)
    else
      let r3 := r2.1.rsDecodeAllStage e
      if r3.2 ≠ .ok then .next (r3.1.complete r3.2)
      else .next (r3.1.beginParse ver)

/-- R71: OP 0x9 completes with ILLEGAL_CMD. -/
def execReservedOp9 (s : State) : Result := .next (s.complete .illegalCmd)
/-- R71: OP 0xA completes with ILLEGAL_CMD. -/
def execReservedOpA (s : State) : Result := .next (s.complete .illegalCmd)
/-- R71: OP 0xB completes with ILLEGAL_CMD. -/
def execReservedOpB (s : State) : Result := .next (s.complete .illegalCmd)
/-- R71: OP 0xC completes with ILLEGAL_CMD. -/
def execReservedOpC (s : State) : Result := .next (s.complete .illegalCmd)
/-- R71: OP 0xD completes with ILLEGAL_CMD. -/
def execReservedOpD (s : State) : Result := .next (s.complete .illegalCmd)
/-- R71: OP 0xE completes with ILLEGAL_CMD. -/
def execReservedOpE (s : State) : Result := .next (s.complete .illegalCmd)
/-- R68, R71: bit 15 = 1 completes with ILLEGAL_CMD, whatever OP is. -/
def execIllegalRsv (_ : BitVec 4) (s : State) : Result := .next (s.complete .illegalCmd)

end Sys2Proof.Machine
end

