-- ==== Sys2Proof/Machine/Dispatch.lean ====
section
/-! DEFINITION. The meaning of each instruction, one arm per constructor. -/

namespace Sys2Proof.Machine

def exec (i : Instr) (s : State) : Host.Outcome State Fault Refusal :=
  match i with
  | .nop => Sys2Proof.Machine.execNop s
  | .extract ver mask => Sys2Proof.Machine.execExtract ver mask s
  | .deinterleave ver ecl => Sys2Proof.Machine.execDeinterleave ver ecl s
  | .rsDecode n nec => Sys2Proof.Machine.execRsDecode n nec s
  | .rsDecodeAll ver ecl => Sys2Proof.Machine.execRsDecodeAll ver ecl s
  | .parse ver => Sys2Proof.Machine.execParse ver s
  | .decode ver ecl mask => Sys2Proof.Machine.execDecode ver ecl mask s
  | .rsEncode n nec => Sys2Proof.Machine.execRsEncode n nec s
  | .rsFill n nec => Sys2Proof.Machine.execRsFill n nec s
  | .init => Sys2Proof.Machine.execInit s
  | .reservedOp9 => Sys2Proof.Machine.execReservedOp9 s
  | .reservedOpA => Sys2Proof.Machine.execReservedOpA s
  | .reservedOpB => Sys2Proof.Machine.execReservedOpB s
  | .reservedOpC => Sys2Proof.Machine.execReservedOpC s
  | .reservedOpD => Sys2Proof.Machine.execReservedOpD s
  | .reservedOpE => Sys2Proof.Machine.execReservedOpE s
  | .illegalRsv op => Sys2Proof.Machine.execIllegalRsv op s
  | .term => Sys2Proof.Machine.execTerm s
  | .num groups tail => Sys2Proof.Machine.execNum groups tail s
  | .alnum pairs last => Sys2Proof.Machine.execAlnum pairs last s
  | .sa cur tot par => Sys2Proof.Machine.execSa cur tot par s
  | .byte bytes => Sys2Proof.Machine.execByte bytes s
  | .kanji chars => Sys2Proof.Machine.execKanji chars s
  | .eci7 a => Sys2Proof.Machine.execEci7 a s
  | .eci14 a => Sys2Proof.Machine.execEci14 a s
  | .eci21 a => Sys2Proof.Machine.execEci21 a s
  | .eciCorrupt => Sys2Proof.Machine.execEciCorrupt s
  | .unlisted5 => Sys2Proof.Machine.execUnlisted5 s
  | .unlisted6 => Sys2Proof.Machine.execUnlisted6 s
  | .unlisted9 => Sys2Proof.Machine.execUnlisted9 s
  | .unlistedA => Sys2Proof.Machine.execUnlistedA s
  | .unlistedB => Sys2Proof.Machine.execUnlistedB s
  | .unlistedC => Sys2Proof.Machine.execUnlistedC s
  | .unlistedD => Sys2Proof.Machine.execUnlistedD s
  | .unlistedE => Sys2Proof.Machine.execUnlistedE s
  | .unlistedF => Sys2Proof.Machine.execUnlistedF s

end Sys2Proof.Machine
end

