-- ==== Sys2Proof/Machine/Engine.lean ====
section
/-! DEFINITION. One move of the engine (which fetches its instruction from LCMD, or in the parse loop from DATA_RAM at the parser's
position) and one pending host event. -/

namespace Sys2Proof.Machine

/-- R142: the segment at the parser's position, or that fewer than 4 bits remain. -/
def State.fetchSegment (s : State) : Except Reject Instr := decodeSegment s.parser.sizeClass s.streamRest

/-- One move of a running engine: the accepted command (R157), or one round of the parse loop (R142, R151). -/
def engineStep (s : State) : Result :=
  match s.stage with
  | .issue => exec (decodeCommand s.lcmd) s
  | .parse =>
    match s.fetchSegment with
    | .ok i => exec i s
    | .error _ => .next s.parseExit

/-- R175: an idle engine changes nothing. -/
def engineTurn (s : State) : Result := if s.busy then engineStep s else .next s

/-- One pending host event (log 6), `rest` being those after it. -/
def hostStep (s : State) (e : HostEvent) (rest : List HostEvent) : Result :=
  match e with
  | .write addr w v =>
    match windowOffset s.params addr with
    | some off => .next ({ s with host := rest }.hostWrite off w v)
    | none => .fault .outsideWindow
  | .read addr w =>
    match windowOffset s.params addr with
    | some off => .next ({ s with host := rest }.hostRead off w)
    | none => .fault .outsideWindow
  | .pause => engineTurn { s with host := rest }
  | .wait => if s.busy then engineStep s else .next { s with host := rest }
  | .reset => .next (State.afterReset s.params s.draws rest)

/-- The bytes of a stream's bits, `n` of them. -/
def streamBytes : Nat → List Bool → List Byte
  | 0, _ => []
  | n + 1, bits => takeField 8 bits :: streamBytes n (bits.drop 8)

/-- The state in which the very next move of the engine fetches the command word `w` (R156), nothing else being pending. -/
def State.withCommand (s : State) (w : Word) : State := { s.accept w with host := [] }

/-- The state in which the very next move of the engine fetches a segment from `bits`: a PARSE of version 1 runs, at the start
of its loop (R142), on these bits in the first 4 bytes of DATA_RAM. -/
def State.withStream (s : State) (bits : List Bool) : State :=
  { (s.accept 0x00000015).beginParse 1 with
    dlen := 4
    mem := s.mem.writeBytes dataRam (streamBytes 4 bits)
    host := [] }

/-- The state in which the very next move fetches a word of the opcode table (log 15). -/
def State.withTableWord (s : State) (nbits w : Nat) : State :=
  match tableForm nbits w with
  | .command => s.withCommand (BitVec.ofNat 32 w)
  | form => s.withStream (tableStream form w)

end Sys2Proof.Machine
end

