-- ==== Sys2Proof/Safety.lean ====
section
/-! DEFINITION. The terms statements are made in: the invariant of every step, what a completion, an ended parse and an emitted segment
are, which bytes an instruction may store to, and the values the rules give, written from the rules' own words. -/

namespace Sys2Proof.Machine

/-! ## Frames -/

/-- `s` with the fields a completion sets (R158: ERRCODE, ERR, DONE, SEQ, IRQ_PEND, and the stage, log 9) as `t` has them. -/
def State.withCompletionOf (s t : State) : State :=
  { s with errCode := t.errCode, err := t.err, done := t.done, seq := t.seq, stage := t.stage, irqPend := t.irqPend }

/-- Every byte of memory reads as before but those of `p`. -/
def SameBytesBut (s t : State) (p : Nat → Prop) : Prop := ∀ a, ¬ p a → t.mem.read a = s.mem.read a

/-- The `n` offsets from `lo` on. -/
def Within (lo n a : Nat) : Prop := lo ≤ a ∧ a < lo + n

/-- R50: the 32-bit word stored at offset `a`, as a number. -/
def Memory.word (m : Memory) (a : Nat) : Nat :=
  (m.read a).toNat + 2 ^ 8 * (m.read (a + 1)).toNat + 2 ^ 16 * (m.read (a + 2)).toNat + 2 ^ 24 * (m.read (a + 3)).toNat

/-! ## Completion -/

/-- R158: what a completion with `code` leaves in STATUS, SEQ and IRQ. -/
structure Completed (t : State) (code : ErrorCode) : Prop where
  errCode : t.errCode = code
  err : t.err = true ↔ code ≠ .ok
  done : t.done = true
  idle : t.busy = false
  irqPend : t.irqPend = true

/-- The command `i` completes with `code` and changes nothing but what a completion sets. -/
def CompletesWithNothingElse (i : Instr) (s : State) (code : ErrorCode) : Prop :=
  ∃ t, exec i s = .next t ∧ Completed t code ∧ t = s.withCompletionOf t

end Sys2Proof.Machine

namespace Sys2Proof

open Sys2Proof.Machine

/-- R64: the commands that need READY, all but NOP and INIT (R14). -/
def Instr.needsReady : Instr → Prop
  | .extract _ _ | .deinterleave _ _ | .rsDecode _ _ | .rsDecodeAll _ _ | .parse _ | .decode _ _ _ | .rsEncode _ _
  | .rsFill _ _ => True
  | .nop | .init | .reservedOp9 | .reservedOpA | .reservedOpB | .reservedOpC | .reservedOpD | .reservedOpE
  | .illegalRsv _ | .term | .num _ _ | .alnum _ _ | .sa _ _ _ | .byte _ | .kanji _ | .eci7 _ | .eci14 _ | .eci21 _
  | .eciCorrupt | .unlisted5 | .unlisted6 | .unlisted9 | .unlistedA | .unlistedB | .unlistedC | .unlistedD
  | .unlistedE | .unlistedF => False

/-- R157 step 3: when a command completes with PARAM. -/
def Instr.badParam (s : State) : Instr → Prop
  | .extract ver _ => ver.toNat = 0 ∨ 40 < ver.toNat
  | .deinterleave ver _ => ver.toNat = 0 ∨ 40 < ver.toNat ∨ 4096 < s.cwCount.toNat
  | .rsDecode n nec => n.toNat = 0 ∨ n.toNat < nec.toNat
  | .rsDecodeAll ver _ => ver.toNat = 0 ∨ 40 < ver.toNat
  | .parse ver => ver.toNat = 0 ∨ 40 < ver.toNat ∨ 4096 < s.dlen.toNat
  | .decode ver _ _ => ver.toNat = 0 ∨ 40 < ver.toNat
  | .rsEncode n nec => n.toNat = 0 ∨ n.toNat < nec.toNat
  | .rsFill n nec => n.toNat = 0 ∨ n.toNat < nec.toNat
  | .nop | .init | .reservedOp9 | .reservedOpA | .reservedOpB | .reservedOpC | .reservedOpD | .reservedOpE
  | .illegalRsv _ | .term | .num _ _ | .alnum _ _ | .sa _ _ _ | .byte _ | .kanji _ | .eci7 _ | .eci14 _ | .eci21 _
  | .eciCorrupt | .unlisted5 | .unlisted6 | .unlisted9 | .unlistedA | .unlistedB | .unlistedC | .unlistedD
  | .unlistedE | .unlistedF => False

/-- R111: the table has an admissible entry for every (VER, ECL) a command can name. -/
def Params.Admissible (p : Params) : Prop := ∀ (ver : BitVec 6) (ecl : BitVec 2), verOk ver = true → (p.entry? ver ecl).isSome = true

/-! ## The buffers an instruction may store to -/

/-- R41, "engine use": the offsets the engine may store to while it runs `i`. -/
def Instr.stores : Instr → Nat → Prop
  | .extract _ _, a => Within cwRam 4096 a
  | .deinterleave _ _, a => Within blkRam 4096 a ∨ Within blkDesc 324 a
  | .rsDecode _ _, a => Within rsRam 256 a
  | .rsDecodeAll _ _, a => Within blkRam 4096 a ∨ Within dataRam 4096 a ∨ Within blkDesc 324 a
  | .decode _ _ _, a => Within cwRam 4096 a ∨ Within blkRam 4096 a ∨ Within dataRam 4096 a ∨ Within blkDesc 324 a
  | .rsEncode _ _, a => Within rsRam 256 a
  | .rsFill _ _, a => Within rsRam 256 a
  | .num _ _, a | .alnum _ _, a | .sa _ _ _, a | .byte _, a | .kanji _, a | .eci7 _, a | .eci14 _, a | .eci21 _, a
  | .eciCorrupt, a => Within outRam 8192 a ∨ Within chunkRam 32768 a
  | .nop, _ | .parse _, _ | .init, _ | .reservedOp9, _ | .reservedOpA, _ | .reservedOpB, _ | .reservedOpC, _
  | .reservedOpD, _ | .reservedOpE, _ | .illegalRsv _, _ | .term, _ | .unlisted5, _ | .unlisted6, _ | .unlisted9, _
  | .unlistedA, _ | .unlistedB, _ | .unlistedC, _ | .unlistedD, _ | .unlistedE, _ | .unlistedF, _ => False

end Sys2Proof

namespace Sys2Proof.Machine

/-- R41: the offsets that hold a byte: the buffers and BLKDESC. -/
def Stored (a : Nat) : Prop := Within moduleRam 0x4100 a ∨ Within blkDesc 324 a ∨ Within outRam 0xA000 a

/-! ## Extraction -/

/-- R113: the value of which the condition of mask `m` at column `x`, row `y` says that it is 0. -/
def maskValue (m : BitVec 3) (x y : Nat) : Nat :=
  [(x + y) % 2, y % 2, x % 3, (x + y) % 3, (y / 2 + x / 3) % 2, x * y % 2 + x * y % 3, (x * y % 2 + x * y % 3) % 2,
    ((x + y) % 2 + x * y % 3) % 2].getD m.toNat 0

/-- R114: the number of the column pair a module lies in, counted from the right; column 6 lies in none. -/
def pairOf (dim x : Nat) : Nat := if x > 6 then (dim - 1 - x) / 2 else (dim - 2 - x) / 2

/-- R114: where a module comes in the zig-zag: its column pair, then its row in the direction of the pair (upwards in the even
pairs), then the right module of the row before the left. -/
def zigzagRank (dim x y : Nat) : Nat :=
  let row := if pairOf dim x % 2 = 0 then dim - 1 - y else y
  let left := if x > 6 then x % 2 else 1 - x % 2
  2 * (dim * pairOf dim x + row) + left

/-! ## Reed-Solomon -/

/-- R104, R134 (b): every syndrome of the block is 0. -/
def Codeword (c : List Byte) (nEc : Nat) : Prop := ∀ j < nEc, (codewordPoly c).eval (gfExp j) = 0

/-- The number of positions two blocks differ in. -/
def differences (c d : List Byte) : Nat := (List.range c.length).countP fun k => c.getD k 0 != d.getD k 0

/-- R138: E, the erased positions of a block of N. -/
def State.inErased (s : State) (n p : Nat) : Prop := p < n ∧ s.erased p = true

/-- R138: `c'` agrees with RS_RAM outside E and has every syndrome 0. -/
structure FillOf (s : State) (n nec : Nat) (c' : List Byte) : Prop where
  length : c'.length = n
  kept : ∀ p < n, ¬ s.inErased n p → c'.getD p 0 = s.mem.read (rsRam + p)
  codeword : Codeword c' nec

/-! ## Block assembly -/

/-- R119: `start_b`. -/
def startOf (e : EcEntry) (b : Nat) : Nat := ((e.blocks.take b).map (· + e.ecPerBlock)).sum

/-- R118: `ndata_b`. -/
def ndataOf (e : EcEntry) (b : Nat) : Nat := e.blocks.getD b 0

/-- R120: how many codewords are dealt before row `r` of block `b`'s data: every block's earlier rows, then this row of the
earlier blocks; a block takes part in a row when it has more data codewords than the row's number. -/
def dataIndex (e : EcEntry) (b r : Nat) : Nat :=
  ((List.range r).map fun r' => e.blocks.countP (r' < ·)).sum + (e.blocks.take b).countP (r < ·)

/-- R120: how many codewords are dealt before row `r` of block `b`'s EC codewords. -/
def ecIndex (e : EcEntry) (b r : Nat) : Nat := e.blocks.sum + r * e.blocks.length + b

/-- R136: what rsdecode gives for block `b` as BLK_RAM holds it. -/
def State.decodedBlock (s : State) (e : EcEntry) (b : Nat) : RsResult :=
  rsdecode (s.mem.readBytes (blkRam + startOf e b) (ndataOf e b + e.ecPerBlock)) e.ecPerBlock

/-- R136: ν of a block that decodes. -/
def RsResult.nu : RsResult → Nat
  | .ok _ nu => nu
  | .fail _ => 0

/-- R136: the sum of ν over the first `k` blocks. -/
def State.nuSum (s : State) (e : EcEntry) (k : Nat) : Nat := ((List.range k).map fun b => (s.decodedBlock e b).nu).sum

/-- R45, R121: TOTALCW, NBLOCKS, ECCOUNT and the 81 entries of BLKDESC for an entry of VERSION_TABLE. -/
structure DescriptorsOf (t : State) (e : EcEntry) : Prop where
  total : t.totalCw.toNat = e.total
  blocks : t.nBlocks.toNat = e.blocks.length
  ec : t.ecCount.toNat = e.ecPerBlock
  used : ∀ b < e.blocks.length, t.mem.word (blkDesc + 4 * b)
    = startOf e b + 2 ^ 12 * ndataOf e b + 2 ^ 20 * (ndataOf e b + e.ecPerBlock)
  unused : ∀ b, e.blocks.length ≤ b → b < 81 → t.mem.word (blkDesc + 4 * b) = 0

/-! ## The segment parser -/

/-- R140, R152: the parser's position lies in the stream and its counts within the capacities. -/
structure State.ParserOk (s : State) : Prop where
  pos : s.parser.pos ≤ s.streamEnd
  out : s.parser.outLen ≤ outCap
  chunks : s.parser.nChunk ≤ chunkCap

end Sys2Proof.Machine

namespace Sys2Proof

open Sys2Proof.Machine

/-- R75 to R81: the widths of the fields of a segment, its mode indicator first. -/
def Instr.fieldWidths (sc : SizeClass) : Instr → List Nat
  | .num groups tail => [4, numCountWidth sc] ++ groups.map (fun _ => 10)
      ++ (match tail with
        | .none => []
        | .one _ => [4]
        | .two _ => [7])
  | .alnum pairs last => [4, alnumCountWidth sc] ++ pairs.map (fun _ => 11) ++ last.toList.map (fun _ => 6)
  | .byte bytes => [4, byteCountWidth sc] ++ bytes.map (fun _ => 8)
  | .kanji chars => [4, kanjiCountWidth sc] ++ chars.map (fun _ => 13)
  | .eci7 _ => [4, 8]
  | .eci14 _ => [4, 8, 8]
  | .eci21 _ => [4, 8, 16]
  | .eciCorrupt => [4, 8]
  | .sa _ _ _ => [4, 4, 4, 8]
  | .term | .unlisted5 | .unlisted6 | .unlisted9 | .unlistedA | .unlistedB | .unlistedC | .unlistedD | .unlistedE
  | .unlistedF => [4]
  | .nop | .extract _ _ | .deinterleave _ _ | .rsDecode _ _ | .rsDecodeAll _ _ | .parse _ | .decode _ _ _
  | .rsEncode _ _ | .rsFill _ _ | .init | .reservedOp9 | .reservedOpA | .reservedOpB | .reservedOpC | .reservedOpD
  | .reservedOpE | .illegalRsv _ => []

/-- R84: the length of a segment in bits, by the table of R84. -/
def Instr.tableLength (sc : SizeClass) : Instr → Nat
  | .num groups tail =>
    let n := numCount groups tail
    4 + numCountWidth sc + 10 * (n / 3) + [0, 4, 7].getD (n % 3) 0
  | .alnum pairs last =>
    let n := alnumCount pairs last
    4 + alnumCountWidth sc + 11 * (n / 2) + 6 * (n % 2)
  | .byte bytes => 4 + byteCountWidth sc + 8 * bytes.length
  | .kanji chars => 4 + kanjiCountWidth sc + 13 * chars.length
  | .eci7 _ => 4 + 8
  | .eci14 _ => 4 + 16
  | .eci21 _ => 4 + 24
  | .eciCorrupt => 4 + 8
  | .sa _ _ _ => 20
  | .term | .unlisted5 | .unlisted6 | .unlisted9 | .unlistedA | .unlistedB | .unlistedC | .unlistedD | .unlistedE
  | .unlistedF => 4
  | .nop | .extract _ _ | .deinterleave _ _ | .rsDecode _ _ | .rsDecodeAll _ _ | .parse _ | .decode _ _ _
  | .rsEncode _ _ | .rsFill _ _ | .init | .reservedOp9 | .reservedOpA | .reservedOpB | .reservedOpC | .reservedOpD
  | .reservedOpE | .illegalRsv _ => 32

/-- R76, R77: every value of a segment is in its range. -/
def NumTail.InRange : NumTail → Prop
  | .none => True
  | .one g => g.toNat < 10
  | .two g => g.toNat < 100

end Sys2Proof

namespace Sys2Proof.Machine

/-- R76: the `k` decimal digits of `n`, most significant first, leading zeros kept, as ASCII bytes. -/
def asciiDigits (k n : Nat) : List Byte := (List.range k).map fun i => BitVec.ofNat 8 (0x30 + n / 10 ^ (k - 1 - i) % 10)

/-- R144: the bytes of a numeric segment. -/
def numericBytes (groups : List (BitVec 10)) (tail : NumTail) : List Byte :=
  groups.flatMap (fun g => asciiDigits 3 g.toNat)
    ++ match tail with
      | .none => []
      | .one g => asciiDigits 1 g.toNat
      | .two g => asciiDigits 2 g.toNat

/-- R77: the 45-symbol alphabet in the source's order. -/
def alphabet : List Char :=
  ['0', '1', '2', '3', '4', '5', '6', '7', '8', '9', 'A', 'B', 'C', 'D', 'E', 'F', 'G', 'H', 'I', 'J', 'K', 'L', 'M', 'N', 'O',
   'P', 'Q', 'R', 'S', 'T', 'U', 'V', 'W', 'X', 'Y', 'Z', ' ', '$', '%', '*', '+', '-', '.', '/', ':']

/-- R77: the ASCII byte of symbol `i`. -/
def symbolByte (i : Nat) : Byte := BitVec.ofNat 8 (alphabet.getD i ' ').toNat

/-- R145: the bytes of an alphanumeric segment. -/
def alnumBytes (pairs : List (BitVec 11)) (last : Option (BitVec 6)) : List Byte :=
  pairs.flatMap (fun v => [symbolByte (v.toNat / 45), symbolByte (v.toNat % 45)])
    ++ last.toList.map fun v => symbolByte v.toNat

/-- R79: the Shift-JIS number of a 13-bit value. -/
def sjis (k : Nat) : Nat :=
  let c := 256 * (k / 0xC0) + k % 0xC0
  if c < 0x1F00 then c + 0x8140 else c + 0xC140

/-- R147: the bytes of a Kanji segment. -/
def kanjiBytes (chars : List (BitVec 13)) : List Byte :=
  chars.flatMap fun k => [BitVec.ofNat 8 (sjis k.toNat / 256), BitVec.ofNat 8 (sjis k.toNat % 256)]

end Sys2Proof.Machine

namespace Sys2Proof

open Sys2Proof.Machine

/-- R144, R145: every value of the segment is in its range; the other modes have no range. -/
def Instr.ValuesInRange : Instr → Prop
  | .num groups tail => (∀ g ∈ groups, g.toNat < 1000) ∧ tail.InRange
  | .alnum pairs last => (∀ v ∈ pairs, v.toNat < 2025) ∧ ∀ v ∈ last, v.toNat < 45
  | .byte _ | .kanji _ | .eci7 _ | .eci14 _ | .eci21 _ | .eciCorrupt | .sa _ _ _ | .term | .unlisted5 | .unlisted6
  | .unlisted9 | .unlistedA | .unlistedB | .unlistedC | .unlistedD | .unlistedE | .unlistedF => True
  | .nop | .extract _ _ | .deinterleave _ _ | .rsDecode _ _ | .rsDecodeAll _ _ | .parse _ | .decode _ _ _
  | .rsEncode _ _ | .rsFill _ _ | .init | .reservedOp9 | .reservedOpA | .reservedOpB | .reservedOpC | .reservedOpD
  | .reservedOpE | .illegalRsv _ => True

/-- R144, R145: every value read before field `k` of the segment is in its range; fields 0 and 1 are the mode indicator and
the count, and the other modes have no range. -/
def Instr.ValuesInRangeBefore (k : Nat) : Instr → Prop
  | .num groups tail => (∀ g ∈ groups.take (k - 2), g.toNat < 1000) ∧ (groups.length + 2 < k → tail.InRange)
  | .alnum pairs last => (∀ v ∈ pairs.take (k - 2), v.toNat < 2025) ∧ (pairs.length + 2 < k → ∀ v ∈ last, v.toNat < 45)
  | .byte _ | .kanji _ | .eci7 _ | .eci14 _ | .eci21 _ | .eciCorrupt | .sa _ _ _ | .term | .unlisted5 | .unlisted6
  | .unlisted9 | .unlistedA | .unlistedB | .unlistedC | .unlistedD | .unlistedE | .unlistedF => True
  | .nop | .extract _ _ | .deinterleave _ _ | .rsDecode _ _ | .rsDecodeAll _ _ | .parse _ | .decode _ _ _
  | .rsEncode _ _ | .rsFill _ _ | .init | .reservedOp9 | .reservedOpA | .reservedOpB | .reservedOpC | .reservedOpD
  | .reservedOpE | .illegalRsv _ => True

/-- R152: the bytes a segment emits; none for an instruction that emits no record. -/
def Instr.emittedBytes : Instr → Option (List Byte)
  | .num groups tail => some (numericBytes groups tail)
  | .alnum pairs last => some (alnumBytes pairs last)
  | .byte bytes => some bytes
  | .kanji chars => some (kanjiBytes chars)
  | .eci7 _ | .eci14 _ | .eci21 _ | .eciCorrupt | .sa _ _ _ => some []
  | .term | .unlisted5 | .unlisted6 | .unlisted9 | .unlistedA | .unlistedB | .unlistedC | .unlistedD | .unlistedE
  | .unlistedF => none
  | .nop | .extract _ _ | .deinterleave _ _ | .rsDecode _ _ | .rsDecodeAll _ _ | .parse _ | .decode _ _ _
  | .rsEncode _ _ | .rsFill _ _ | .init | .reservedOp9 | .reservedOpA | .reservedOpB | .reservedOpC | .reservedOpD
  | .reservedOpE | .illegalRsv _ => none

/-- R150: the mode indicators the source does not list. -/
def Instr.isUnlisted : Instr → Prop
  | .unlisted5 | .unlisted6 | .unlisted9 | .unlistedA | .unlistedB | .unlistedC | .unlistedD | .unlistedE
  | .unlistedF => True
  | .nop | .extract _ _ | .deinterleave _ _ | .rsDecode _ _ | .rsDecodeAll _ _ | .parse _ | .decode _ _ _
  | .rsEncode _ _ | .rsFill _ _ | .init | .reservedOp9 | .reservedOpA | .reservedOpB | .reservedOpC | .reservedOpD
  | .reservedOpE | .illegalRsv _ | .term | .num _ _ | .alnum _ _ | .sa _ _ _ | .byte _ | .kanji _ | .eci7 _ | .eci14 _
  | .eci21 _ | .eciCorrupt => False

/-- R71: the words no command is assigned to. -/
def Instr.isIllegal : Instr → Prop
  | .reservedOp9 | .reservedOpA | .reservedOpB | .reservedOpC | .reservedOpD | .reservedOpE | .illegalRsv _ => True
  | .nop | .extract _ _ | .deinterleave _ _ | .rsDecode _ _ | .rsDecodeAll _ _ | .parse _ | .decode _ _ _
  | .rsEncode _ _ | .rsFill _ _ | .init | .term | .num _ _ | .alnum _ _ | .sa _ _ _ | .byte _ | .kanji _ | .eci7 _
  | .eci14 _ | .eci21 _ | .eciCorrupt | .unlisted5 | .unlisted6 | .unlisted9 | .unlistedA | .unlistedB | .unlistedC
  | .unlistedD | .unlistedE | .unlistedF => False

end Sys2Proof

namespace Sys2Proof.Machine

/-- R153: the bytes that are unspecified after a parse that leaves the parser's counts as `s` has them. -/
def UnspecifiedAfterParse (s : State) (a : Nat) : Prop :=
  (outRam + s.parser.outLen ≤ a ∧ a < outRam + outCap) ∨ (chunkRam + 16 * s.parser.nChunk ≤ a ∧ a < windowEnd)

/-- R153, R158: the parse ends at `t` with `code` and BITPOS = `p`, counting what was emitted before. -/
structure ParseEnded (s t : State) (code : ErrorCode) (p : Nat) : Prop where
  completed : Completed t code
  bitPos : t.bitPos.toNat = p
  nChunk : t.nChunk.toNat = s.parser.nChunk
  outLen : t.outLen.toNat = s.parser.outLen
  memory : SameBytesBut s t (UnspecifiedAfterParse s)
  frame : t = { s with nChunk := t.nChunk, outLen := t.outLen, bitPos := t.bitPos, mem := t.mem }.withCompletionOf t

/-- R85, R86, R152: a segment of `bits` bits is emitted: the bytes `out` and a record of type `typ` with the words `w1`, `w2`
and `w3`; the parse goes on after it. -/
structure Emitted (s t : State) (typ : Nat) (out : List Byte) (w1 w2 w3 bits : Nat) : Prop where
  bytes : t.mem.readBytes (outRam + s.parser.outLen) out.length = out
  word0 : t.mem.word (chunkRam + 16 * s.parser.nChunk) = typ + 2 ^ 8 * s.parser.pos
  word1 : t.mem.word (chunkRam + 16 * s.parser.nChunk + 4) = w1
  word2 : t.mem.word (chunkRam + 16 * s.parser.nChunk + 8) = w2
  word3 : t.mem.word (chunkRam + 16 * s.parser.nChunk + 12) = w3
  parser : t.parser = { s.parser with
    pos := s.parser.pos + bits, outLen := s.parser.outLen + out.length, nChunk := s.parser.nChunk + 1 }
  memory : SameBytesBut s t fun a =>
    Within (outRam + s.parser.outLen) out.length a ∨ Within (chunkRam + 16 * s.parser.nChunk) 16 a
  frame : t = { s with mem := t.mem, parser := t.parser }

/-- R140, R152: a segment of `bits` bits that gives `len` bytes fits: the stream holds it and the buffers have room. -/
structure State.Fits (s : State) (bits len : Nat) : Prop where
  stream : s.parser.pos + bits ≤ s.streamEnd
  out : s.parser.outLen + len ≤ outCap
  chunks : s.parser.nChunk + 1 ≤ chunkCap

/-! ## The invariant -/

/-- What every step keeps. -/
structure State.Inv (s : State) : Prop where
  /-- memory keeps its canonical form -/
  memory : s.mem.wf = true
  /-- every run of unspecified bytes is of a draw already made -/
  drawn : ∀ r ∈ s.mem.drawn, r.draw < s.draws
  /-- R41, R54: no offset outside the buffers holds a byte -/
  mapped : ∀ a, ¬ Stored a → s.mem.read a = 0
  /-- R45: no byte of BLKDESC is unspecified -/
  descriptors : ∀ a, Within blkDesc 324 a → drawAt s.mem.drawn a = none
  /-- R17: ERR is `ERRCODE ≠ 0` -/
  err : s.err = true ↔ s.errCode ≠ .ok
  /-- R18: DONE = 0 and ERRCODE = 0 while BUSY = 1 -/
  busy : s.busy = true → s.done = false ∧ s.errCode = .ok
  /-- R37: the parse loop runs only while a command does -/
  idle : s.busy = false → s.stage = .issue
  /-- R37, R96: GFTAB is valid exactly when READY = 1, and then holds the tables -/
  tables : s.gfTab = if s.ready then some GfTab.build else none
  /-- R142: in the parse loop READY = 1, DLEN ≤ 4096, and the parser is in bounds -/
  parse : s.stage = .parse → s.ready = true ∧ s.dlen.toNat ≤ 4096 ∧ s.ParserOk
  /-- R26, R27, R31 to R33: the result registers keep their ranges -/
  results : s.totalCw.toNat ≤ 4096 ∧ s.nBlocks.toNat ≤ 81 ∧ s.bitPos.toNat ≤ 32768 ∧ s.nChunk.toNat ≤ 2048
    ∧ s.outLen.toNat ≤ 8192

end Sys2Proof.Machine
end

