-- ==== Sys2Proof/Certificates/Slice0/Obligations.lean ====
section
/-! DEFINITION. The statements for the provers, from the numbered rules of the spec. -/

open Sys2Proof Sys2Proof.Machine

/-! ## Encoding -/

/-- R63 to R83: every instruction is read back from its encoding, a segment whatever bits follow it. -/
def Obligations.DecodeOfEncode : Prop :=
  ∀ (sc : SizeClass) (i : Instr), i.wellFormed sc = true →
    match encode sc i with
    | .command w => decodeCommand w = i
    | .segment bits => ∀ rest, decodeSegment sc (bits ++ rest) = .ok i

/-- R64 (the opcode map and the fields each command uses), R70 (every other field may hold any value), with the layout of R63
as a number. With RSV = 1 (R68, R71) every word decodes to `illegalRsv`, those with a reserved OP too, which match two rows of
the opcode table: the model's choice (log 14). -/
def Obligations.CommandFields : Prop :=
  ∀ (ver : BitVec 6) (ecl : BitVec 2) (mask : BitVec 3) (n nec : BitVec 8),
    decodeCommand (commandWord 0x0 ver ecl mask 0 n nec) = .nop ∧
    decodeCommand (commandWord 0x1 ver ecl mask 0 n nec) = .extract ver mask ∧
    decodeCommand (commandWord 0x2 ver ecl mask 0 n nec) = .deinterleave ver ecl ∧
    decodeCommand (commandWord 0x3 ver ecl mask 0 n nec) = .rsDecode n nec ∧
    decodeCommand (commandWord 0x4 ver ecl mask 0 n nec) = .rsDecodeAll ver ecl ∧
    decodeCommand (commandWord 0x5 ver ecl mask 0 n nec) = .parse ver ∧
    decodeCommand (commandWord 0x6 ver ecl mask 0 n nec) = .decode ver ecl mask ∧
    decodeCommand (commandWord 0x7 ver ecl mask 0 n nec) = .rsEncode n nec ∧
    decodeCommand (commandWord 0x8 ver ecl mask 0 n nec) = .rsFill n nec ∧
    decodeCommand (commandWord 0x9 ver ecl mask 0 n nec) = .reservedOp9 ∧
    decodeCommand (commandWord 0xA ver ecl mask 0 n nec) = .reservedOpA ∧
    decodeCommand (commandWord 0xB ver ecl mask 0 n nec) = .reservedOpB ∧
    decodeCommand (commandWord 0xC ver ecl mask 0 n nec) = .reservedOpC ∧
    decodeCommand (commandWord 0xD ver ecl mask 0 n nec) = .reservedOpD ∧
    decodeCommand (commandWord 0xE ver ecl mask 0 n nec) = .reservedOpE ∧
    decodeCommand (commandWord 0xF ver ecl mask 0 n nec) = .init ∧
    ∀ (op : BitVec 4),
      decodeCommand (commandWord op ver ecl mask 1 n nec) = .illegalRsv op ∧
      ∀ (rsv : BitVec 1), (commandWord op ver ecl mask rsv n nec).toNat =
        op.toNat + 2 ^ 4 * ver.toNat + 2 ^ 10 * ecl.toNat + 2 ^ 12 * mask.toNat + 2 ^ 15 * rsv.toNat + 2 ^ 16 * n.toNat
          + 2 ^ 24 * nec.toNat

/-- R84: the length of every segment is the one R84 gives. -/
def Obligations.SegmentLengths : Prop :=
  ∀ (sc : SizeClass) (i : Instr), i.wellFormed sc = true → ∀ bits, encode sc i = .segment bits → bits.length = i.tableLength sc

/-- The words R70 and R87 write out, and one segment of each kind written out from R73 to R81, decode to what they stand for. -/
def Obligations.SpecWordsDecode : Prop :=
  decodeCommand 0x0000000F = .init ∧
  decodeCommand 0x00000016 = .decode 1 0 0 ∧
  decodeCommand 0x0A1A0003 = .rsDecode 26 10 ∧
  decodeCommand 0x000000A5 = .parse 10 ∧
  decodeCommand 0x00000000 = .nop ∧
  decodeCommand 0xFFFF0000 = .nop ∧
  decodeCommand 0x00007FF0 = .nop ∧
  decodeSegment .small [false, false, false, false] = .ok .term ∧
  decodeSegment .small ([false, false, false, true] ++ natBits 10 4 ++ natBits 10 12 ++ natBits 4 7)
    = .ok (.num [12] (.one 7)) ∧
  decodeSegment .small ([false, true, true, true] ++ natBits 8 0xC1 ++ natBits 16 0x0203) = .ok (.eci21 0x10203) ∧
  decodeSegment .medium ([false, true, false, false] ++ natBits 16 2 ++ natBits 8 0x00 ++ natBits 8 0xFF)
    = .ok (.byte [0x00, 0xFF])

/-! ## The step -/

/-- What a step runs: the accepted word (R157), in the parse loop the segment at the parser's position (R142) or, with none
left, the loop's exit (R151), nothing while idle (R175); with a pending `pause` or `wait` (the model's own host events, log 6)
the same, a `pause` being taken off and a `wait` only once the block is idle. -/
def Obligations.StepRunsDecoded : Prop :=
  ∀ s : State,
    (s.host = [] → s.busy = false → step s = .next s) ∧
    (s.host = [] → s.busy = true → s.stage = .issue → step s = exec (decodeCommand s.lcmd) s) ∧
    (s.host = [] → s.busy = true → s.stage = .parse →
      (∀ i, decodeSegment s.parser.sizeClass s.streamRest = .ok i → step s = exec i s) ∧
      (s.streamRest.length < 4 → step s = .next s.parseExit)) ∧
    (∀ rest, s.host = .pause :: rest →
      (s.busy = false → step s = .next { s with host := rest }) ∧
      (s.busy = true → s.stage = .issue → step s = exec (decodeCommand s.lcmd) { s with host := rest }) ∧
      (s.busy = true → s.stage = .parse →
        (∀ i, decodeSegment s.parser.sizeClass s.streamRest = .ok i → step s = exec i { s with host := rest }) ∧
        (s.streamRest.length < 4 → step s = .next { s with host := rest }.parseExit))) ∧
    (∀ rest, s.host = .wait :: rest →
      (s.busy = false → step s = .next { s with host := rest }) ∧
      (s.busy = true → s.stage = .issue → step s = exec (decodeCommand s.lcmd) s) ∧
      (s.busy = true → s.stage = .parse →
        (∀ i, decodeSegment s.parser.sizeClass s.streamRest = .ok i → step s = exec i s) ∧
        (s.streamRest.length < 4 → step s = .next s.parseExit)))

/-- A step of the parse loop runs the segment whose encoding stands at the parser's position (R72, R140, R142). -/
def Obligations.StepRunsEncodedSegment : Prop :=
  ∀ (s : State) (i : Instr) (bits rest : List Bool), s.host = [] → s.busy = true → s.stage = .parse →
    i.wellFormed s.parser.sizeClass = true → encode s.parser.sizeClass i = .segment bits →
    s.streamRest = bits ++ rest → step s = exec i s

/-! ## Command control -/

/-- R160: NOP completes with OK and has no other effect, READY or not. -/
def Obligations.NopCompletes : Prop := ∀ s : State, CompletesWithNothingElse .nop s .ok

/-- R161: INIT builds GFTAB by R94 and R95, sets READY and completes with OK; nothing else changes. -/
def Obligations.InitBuildsTables : Prop :=
  ∀ s : State, ∃ t g, exec .init s = .next t ∧ Completed t .ok ∧ t.ready = true ∧ t.gfTab = some g ∧
    t = { s with ready := t.ready, gfTab := t.gfTab }.withCompletionOf t ∧
    g.exp.length = 256 ∧ g.log.length = 255 ∧ g.exp.getD 0 0 = 0x01 ∧
    (∀ i < 254, g.exp.getD (i + 1) 0 = gfMul (g.exp.getD i 0) 0x02) ∧ g.exp.getD 255 0 = g.exp.getD 0 0 ∧
    (∀ i < 255, g.exp.getD i 0 ≠ 0 ∧ g.log.getD ((g.exp.getD i 0).toNat - 1) 0 = BitVec.ofNat 8 i)

/-- R71: the words with OP 0x9 to 0xE or bit 15 = 1, and no others, are illegal; an illegal word completes with ILLEGAL_CMD,
READY or not, and touches nothing else. -/
def Obligations.IllegalCommandsComplete : Prop :=
  (∀ w : Word, (decodeCommand w).isIllegal ↔
    w.getLsbD 15 = true ∨ (9 ≤ (w.extractLsb' 0 4).toNat ∧ (w.extractLsb' 0 4).toNat ≤ 14)) ∧
  ∀ (s : State) (i : Instr), i.isIllegal → CompletesWithNothingElse i s .illegalCmd

/-- R157 steps 2 and 3: NOT_READY before PARAM; a command that completes there changes nothing but what a completion sets. -/
def Obligations.ChecksBeforeTheRule : Prop :=
  ∀ (s : State) (i : Instr),
    (i.needsReady → s.ready = false → CompletesWithNothingElse i s .notReady) ∧
    (i.badParam s → s.ready = true → CompletesWithNothingElse i s .param)

/-- R158, R168, R18: whatever an instruction does, either the command still runs and DONE, ERR, ERRCODE and IRQ_PEND are as
they were, or it completed, and all that R158 lists is done at once. -/
def Obligations.CompletionIsOneStep : Prop :=
  ∀ (i : Instr) (s t : State), s.busy = true → exec i s = .next t →
    (t.busy = true ∧ t.done = s.done ∧ t.err = s.err ∧ t.errCode = s.errCode ∧ t.irqPend = s.irqPend)
      ∨ Completed t t.errCode

/-- R159: every command word, issued to an idle block with an admissible VERSION_TABLE, completes after at most 8194 steps
(the command itself, at most 8192 segments of 4 bits or more in 4096 bytes, and the loop's exit; that each of these is one step
is the model's granularity, log 7). -/
def Obligations.EveryCommandCompletes : Prop :=
  ∀ (s : State) (w : Word), s.params.Admissible → s.busy = false → s.host = [] →
    ∃ k t, k ≤ 8194 ∧ Host.Core.run Sys2Proof.core k (s.accept w) = .next t ∧ Completed t t.errCode ∧ t.lcmd = w

/-- With an admissible VERSION_TABLE (R111) every instruction, in every state, answers a next state. -/
def Obligations.ExecNeverStops : Prop :=
  ∀ (i : Instr) (s : State), s.params.Admissible → ∃ t, exec i s = .next t

/-- The engine writes no parameter, no host-owned flag, not CMD, not the ERASE map (R34), no pending host event; READY and
GFTAB only by INIT (R178). -/
def Obligations.EngineKeepsHostState : Prop :=
  ∀ (i : Instr) (s t : State), exec i s = .next t →
    t.params = s.params ∧ t.irqEn = s.irqEn ∧ t.overrun = s.overrun ∧ t.accViol = s.accViol ∧ t.busErr = s.busErr ∧
    t.lcmd = s.lcmd ∧ t.erase = s.erase ∧ t.rdata = s.rdata ∧ t.host = s.host ∧
    (i ≠ .init → t.ready = s.ready ∧ t.gfTab = s.gfTab)

/-- R41, "engine use", and R182: an instruction stores only to its own buffers: none writes MODULE_RAM, only RS_DECODE,
RS_ENCODE and RS_FILL write RS_RAM; and R55: a step of the parse loop that emits no record stores nothing, whether the parse
goes on or ends (the bytes past OUTLEN and the records past NCHUNK keep their contents, 93_implementation_defined.md; log 4). -/
def Obligations.EngineStoresOnlyInItsBuffers : Prop :=
  (∀ (i : Instr) (s t : State), exec i s = .next t → SameBytesBut s t i.stores) ∧
  (∀ s t : State, s.host = [] → s.busy = true → s.stage = .parse → step s = .next t →
    t.parser.nChunk = s.parser.nChunk → SameBytesBut s t fun _ => False)

/-- R178: READY rises only when an INIT runs and falls only at a reset. -/
def Obligations.ReadyOnlyByInitAndReset : Prop :=
  ∀ s t : State, step s = .next t →
    (s.ready = false → t.ready = true → s.busy = true ∧ s.stage = .issue ∧ decodeCommand s.lcmd = .init) ∧
    (s.ready = true → t.ready = false → ∃ rest, s.host = .reset :: rest)

/-! ## Extraction -/

/-- R116: EXTRACT: codeword i has bit 8i + j of the scan, its module XOR the condition of R113 for MASK, as its bit 7 − j; CWCOUNT and REMBITS count; nothing else
changes; on a bad VER it completes with PARAM. -/
def Obligations.ExtractEffects : Prop :=
  ∀ (s : State) (ver : BitVec 6) (mask : BitVec 3), s.ready = true →
    (∀ r order, verOk ver = true → s.params.record? ver = some r → order = scan ver r.alignment →
      ∃ t, exec (.extract ver mask) s = .next t ∧ Completed t .ok ∧
        t.cwCount.toNat = order.length / 8 ∧ t.remBits.toNat = order.length % 8 ∧
        (∀ i < order.length / 8, ∀ j < 8, ∀ x y, order[8 * i + j]? = some (x, y) →
          (t.mem.read (cwRam + i)).getLsbD (7 - j) = (s.module (dimOf ver) x y ^^ decide (maskValue mask x y = 0))) ∧
        SameBytesBut s t (Within cwRam (order.length / 8)) ∧
        t = { s with mem := t.mem, cwCount := t.cwCount, remBits := t.remBits }.withCompletionOf t) ∧
    (verOk ver = false → CompletesWithNothingElse (.extract ver mask) s .param)

/-- R117: EXTRACT of a grid that holds the codewords `cw`, placed by the inverse of the scan, gives `cw` back, whatever the
function modules and the remainder bits are. -/
def Obligations.ExtractOfPlacement : Prop :=
  ∀ (s : State) (ver : BitVec 6) (mask : BitVec 3) (r : VersionRecord) (order : List (Nat × Nat)) (cw : List Byte),
    s.ready = true → verOk ver = true → s.params.record? ver = some r → order = scan ver r.alignment →
    cw.length = order.length / 8 →
    (∀ k < 8 * cw.length, ∀ x y, order[k]? = some (x, y) →
      s.module (dimOf ver) x y = ((cw.getD (k / 8) 0).getLsbD (7 - k % 8) ^^ dataMask mask x y)) →
    ∃ t, exec (.extract ver mask) s = .next t ∧ Completed t .ok ∧ t.mem.readBytes cwRam cw.length = cw ∧
      t.cwCount.toNat = cw.length

/-- R114, R115: the scan visits every module of the grid outside the function patterns, each once, and no other; so D(VER) is
the number of modules the function-pattern mask leaves. It visits them by column pair from the right, in each pair by row,
upwards and downwards by turns, and in each row the right module first, which fixes the list. -/
def Obligations.ScanVisitsEachDataModuleOnce : Prop :=
  ∀ (ver : BitVec 6) (centres : List Nat), (scan ver centres).Nodup ∧
    ((scan ver centres).Pairwise fun p q => zigzagRank (dimOf ver) p.1 p.2 < zigzagRank (dimOf ver) q.1 q.2) ∧
    ∀ x y, (x, y) ∈ scan ver centres ↔
      x < dimOf ver ∧ y < dimOf ver ∧ functionModule (functionRects ver centres) x y = false

/-- R111: the default table has an entry for every version and code, and each meets (a), (c) and (d); and for versions 1, 2
and 7, as samples, its total is the number of whole codewords of the scan, R111 (b), which `DefaultTableTotals` says of every
version. -/
def Obligations.DefaultTableAdmissible : Prop :=
  Params.standard.Admissible ∧
  ∀ (ver : BitVec 6) (ecl : BitVec 2) (r : VersionRecord), ver = 1 ∨ ver = 2 ∨ ver = 7 →
    Params.standard.record? ver = some r → (scan ver r.alignment).length / 8 = (r.level ecl).total

/-! ## Block assembly -/

/-- R121: DEINTERLEAVE, RS_DECODE_ALL and DECODE write the block descriptors of (VER, ECL), whatever they end with. -/
def Obligations.DescriptorsWritten : Prop :=
  ∀ (s : State) (ver : BitVec 6) (ecl : BitVec 2) (mask : BitVec 3) (e : EcEntry), s.ready = true → verOk ver = true →
    s.params.entry? ver ecl = some e →
    (s.cwCount.toNat ≤ 4096 → ∃ t, exec (.deinterleave ver ecl) s = .next t ∧ DescriptorsOf t e) ∧
    (∃ t, exec (.rsDecodeAll ver ecl) s = .next t ∧ DescriptorsOf t e) ∧
    (∃ t, exec (.decode ver ecl mask) s = .next t ∧ DescriptorsOf t e)

/-- R122: with too few codewords DEINTERLEAVE completes with SHORT_CODEWORDS: the descriptors are written, BLK_RAM and all
else is unchanged. -/
def Obligations.DeinterleaveShort : Prop :=
  ∀ (s : State) (ver : BitVec 6) (ecl : BitVec 2) (e : EcEntry), s.ready = true → verOk ver = true →
    s.params.entry? ver ecl = some e → s.cwCount.toNat < e.total →
    ∃ t, exec (.deinterleave ver ecl) s = .next t ∧ Completed t .shortCodewords ∧ DescriptorsOf t e ∧
      SameBytesBut s t (Within blkDesc 324) ∧
      t = { s with mem := t.mem, totalCw := t.totalCw, nBlocks := t.nBlocks, ecCount := t.ecCount }.withCompletionOf t

/-- R120, R122: DEINTERLEAVE deals the codewords: row r of a block's data is the codeword after all those dealt before it, the
EC codewords follow round-robin; effects BLK_RAM[0..total−1] and the descriptors only. -/
def Obligations.DeinterleaveDeals : Prop :=
  ∀ (s : State) (ver : BitVec 6) (ecl : BitVec 2) (e : EcEntry), s.ready = true → verOk ver = true →
    s.params.entry? ver ecl = some e → e.total ≤ s.cwCount.toNat → s.cwCount.toNat ≤ 4096 →
    ∃ t, exec (.deinterleave ver ecl) s = .next t ∧ Completed t .ok ∧ DescriptorsOf t e ∧
      (∀ b < e.blocks.length, ∀ r < ndataOf e b,
        t.mem.read (blkRam + startOf e b + r) = s.mem.read (cwRam + dataIndex e b r)) ∧
      (∀ b < e.blocks.length, ∀ r < e.ecPerBlock,
        t.mem.read (blkRam + startOf e b + ndataOf e b + r) = s.mem.read (cwRam + ecIndex e b r)) ∧
      SameBytesBut s t (fun a => Within blkRam e.total a ∨ Within blkDesc 324 a) ∧
      t = { s with mem := t.mem, totalCw := t.totalCw, nBlocks := t.nBlocks, ecCount := t.ecCount }.withCompletionOf t

/-- R124: the worked example, VER 5 code 3: where each codeword index goes. -/
def Obligations.WorkedDeal : Prop :=
  ∃ e, Params.standard.entry? 5 3 = some e ∧ e.ecPerBlock = 18 ∧ e.blocks = [15, 15, 16, 16] ∧ e.total = 134 ∧
    (∀ b < 4, ∀ r < 15, (dealOrder 18 (blockList e))[4 * r + b]? = some (startOf e b + r)) ∧
    (dealOrder 18 (blockList e))[60]? = some (startOf e 2 + 15) ∧
    (dealOrder 18 (blockList e))[61]? = some (startOf e 3 + 15) ∧
    (∀ b < 4, ∀ r < 18, (dealOrder 18 (blockList e))[62 + 4 * r + b]? = some (startOf e b + ndataOf e b + r)) ∧
    (dealOrder 18 (blockList e)).length = 134

/-! ## GF(256) and polynomials -/

/-- R98: the bytes form a field with these operations; the powers of α multiply by adding exponents; squaring is a bijection. -/
def Obligations.FieldLaws : Prop :=
  (∀ a b c : Byte, gfMul (gfMul a b) c = gfMul a (gfMul b c)) ∧
  (∀ a b : Byte, gfMul a b = gfMul b a) ∧
  (∀ a b c : Byte, gfMul a (b ^^^ c) = gfMul a b ^^^ gfMul a c) ∧
  (∀ a b c : Byte, (a ^^^ b) ^^^ c = a ^^^ (b ^^^ c)) ∧ (∀ a b : Byte, a ^^^ b = b ^^^ a) ∧
  (∀ a : Byte, a ^^^ 0 = a) ∧ (∀ a : Byte, gfMul a 0x01 = a) ∧ (0 : Byte) ≠ 0x01 ∧ (∀ a : Byte, a ^^^ a = 0) ∧
  (∀ a : Byte, a ≠ 0 → ∃ b, gfMul a b = 0x01) ∧
  (∀ i j : Nat, gfMul (gfExp i) (gfExp j) = gfExp ((i + j) % 255)) ∧
  Function.Bijective fun x : Byte => gfMul x x

/-- R94 to R97: α^0 to α^254 are the 255 nonzero elements, each once, and α^255 = 1; log is the inverse of exp; the table form
of the product (R96); inv(a)·a = 1. -/
def Obligations.ExponentsAndLogarithms : Prop :=
  gfExp 0 = 0x01 ∧ (∀ i, gfExp (i + 1) = gfMul (gfExp i) 0x02) ∧ gfExp 255 = 0x01 ∧
  (∀ e : Byte, e ≠ 0 → gfLog e < 255 ∧ gfExp (gfLog e) = e) ∧
  (∀ i < 255, gfExp i ≠ 0 ∧ gfLog (gfExp i) = i) ∧
  (∀ a b : Byte, a ≠ 0 → b ≠ 0 → gfMul a b = gfExp ((gfLog a + gfLog b) % 255)) ∧
  (∀ a : Byte, a ≠ 0 → gfMul a (gfInv a) = 0x01)

/-- R101: division with remainder: a = q·b + r, and r is zero or of lower degree than b. -/
def Obligations.DivisionWithRemainder : Prop :=
  ∀ a b : Poly, b.isZero = false →
    (∀ i, a.coeff i = (Poly.add (Poly.mul (Poly.divmod a b).1 b) (Poly.divmod a b).2).coeff i) ∧
    ((Poly.divmod a b).2.isZero = true ∨ (Poly.divmod a b).2.deg < b.deg)

/-! ## Reed-Solomon -/

/-- R135: RS_DECODE writes the corrected block and ν, or on a failure changes nothing but ERRCNT ← 0; on bad parameters nothing. -/
def Obligations.RsDecodeCommand : Prop :=
  ∀ (s : State) (n nec : BitVec 8), s.ready = true →
    (blockOk n nec = true → ∀ c' nu, rsdecode (s.mem.readBytes rsRam n.toNat) nec.toNat = .ok c' nu →
      ∃ t, exec (.rsDecode n nec) s = .next t ∧ Completed t .ok ∧ t.errCnt = BitVec.ofNat 16 nu ∧
        t.mem.readBytes rsRam n.toNat = c' ∧ SameBytesBut s t (Within rsRam n.toNat) ∧
        t = { s with mem := t.mem, errCnt := t.errCnt }.withCompletionOf t) ∧
    (blockOk n nec = true → ∀ code, rsdecode (s.mem.readBytes rsRam n.toNat) nec.toNat = .fail code →
      ∃ t, exec (.rsDecode n nec) s = .next t ∧ Completed t code ∧ t.errCnt = 0 ∧
        t = { s with errCnt := t.errCnt }.withCompletionOf t) ∧
    (blockOk n nec = false → CompletesWithNothingElse (.rsDecode n nec) s .param)

/-- R134 (b): a block that differs from a codeword in at most floor(nEC/2) positions is decoded to that codeword, and ν is the
number of those positions. -/
def Obligations.RsdecodeCorrects : Prop :=
  ∀ (c d : List Byte) (nEc : Nat), 1 ≤ c.length → c.length ≤ 255 → c.length = d.length → nEc ≤ c.length →
    Codeword d nEc → 2 * differences c d ≤ nEc → rsdecode c nEc = .ok d (differences c d)

/-- R134 (e): with nEC ≥ 1 the two checks inside the Euclid loop never fail (nor does the model's bound on its rounds, log 21). -/
def Obligations.EuclidChecksNeverFail : Prop :=
  ∀ (c : List Byte) (nEc : Nat), 1 ≤ nEc → rsdecode c nEc ≠ .fail .rsZeroDivisor ∧ rsdecode c nEc ≠ .fail .rsNoDecrease

/-- R134 (a), R132: an OK result has the block's length, ν ≤ floor(nEC/2), and differs from the block in at most ν positions. -/
def Obligations.RsdecodeBound : Prop :=
  ∀ (c c' : List Byte) (nEc nu : Nat), c.length ≤ 255 → rsdecode c nEc = .ok c' nu →
    c'.length = c.length ∧ 2 * nu ≤ nEc ∧ differences c c' ≤ nu

/-- R137: RS_ENCODE makes RS_RAM[0..N−1] a codeword, on which rsdecode returns OK(c, 0); it stores only the NEC bytes after the
K data bytes; with K = 0 they are 0; ERRCNT ← 0; on bad parameters nothing changes. -/
def Obligations.RsEncodeMakesCodeword : Prop :=
  ∀ (s : State) (n nec : BitVec 8), s.ready = true →
    (blockOk n nec = true → ∃ t, exec (.rsEncode n nec) s = .next t ∧ Completed t .ok ∧ t.errCnt = 0 ∧
      Codeword (t.mem.readBytes rsRam n.toNat) nec.toNat ∧
      rsdecode (t.mem.readBytes rsRam n.toNat) nec.toNat = .ok (t.mem.readBytes rsRam n.toNat) 0 ∧
      (n = nec → ∀ p < n.toNat, t.mem.read (rsRam + p) = 0) ∧
      SameBytesBut s t (Within (rsRam + (n.toNat - nec.toNat)) nec.toNat) ∧
      t = { s with mem := t.mem, errCnt := t.errCnt }.withCompletionOf t) ∧
    (blockOk n nec = false → CompletesWithNothingElse (.rsEncode n nec) s .param)

/-- R139: RS_DECODE on a block RS_ENCODE has just produced returns OK with ERRCNT = 0 and changes no byte. -/
def Obligations.EncodeThenDecode : Prop :=
  ∀ (s t : State) (n nec : BitVec 8), s.ready = true → blockOk n nec = true → exec (.rsEncode n nec) s = .next t →
    ∃ u, exec (.rsDecode n nec) t = .next u ∧ Completed u .ok ∧ u.errCnt = 0 ∧ SameBytesBut t u (fun _ => False)

/-- R138: where an assignment of the erased positions makes every syndrome 0, RS_FILL stores it, ERRCNT ← |E|, and completes
with OK. -/
def Obligations.RsFillSolves : Prop :=
  ∀ (s : State) (n nec : BitVec 8) (c' : List Byte), s.ready = true → blockOk n nec = true →
    (s.erasedPositions n.toNat).length ≤ nec.toNat → FillOf s n.toNat nec.toNat c' →
    ∃ t, exec (.rsFill n nec) s = .next t ∧ Completed t .ok ∧ t.mem.readBytes rsRam n.toNat = c' ∧
      t.errCnt = BitVec.ofNat 16 (s.erasedPositions n.toNat).length ∧
      SameBytesBut s t (fun a => ∃ p, s.inErased n.toNat p ∧ a = rsRam + p) ∧
      t = { s with mem := t.mem, errCnt := t.errCnt }.withCompletionOf t

/-- R138: with more erased positions than NEC, RS_FILL completes with RS_ERASURE_COUNT; with none of the assignments making
every syndrome 0, with RS_INCONSISTENT; both leave memory unchanged and ERRCNT = 0. -/
def Obligations.RsFillFails : Prop :=
  ∀ (s : State) (n nec : BitVec 8), s.ready = true → blockOk n nec = true →
    (nec.toNat < (s.erasedPositions n.toNat).length →
      ∃ t, exec (.rsFill n nec) s = .next t ∧ Completed t .rsErasureCount ∧ t.errCnt = 0 ∧
        t = { s with errCnt := t.errCnt }.withCompletionOf t) ∧
    ((s.erasedPositions n.toNat).length ≤ nec.toNat → (∀ c', ¬ FillOf s n.toNat nec.toNat c') →
      ∃ t, exec (.rsFill n nec) s = .next t ∧ Completed t .rsInconsistent ∧ t.errCnt = 0 ∧
        t = { s with errCnt := t.errCnt }.withCompletionOf t)

/-- R138: "When m = NEC the assignment always exists": RS_FILL then leaves a codeword and completes with OK. -/
def Obligations.RsFillFullRank : Prop :=
  ∀ (s : State) (n nec : BitVec 8), s.ready = true → blockOk n nec = true →
    (s.erasedPositions n.toNat).length = nec.toNat →
    ∃ t, exec (.rsFill n nec) s = .next t ∧ Completed t .ok ∧ Codeword (t.mem.readBytes rsRam n.toNat) nec.toNat

/-- R136: RS_DECODE_ALL with every block decoding: each block corrected in place, the data codewords gathered in block order,
DLEN, ERRCNT (the sum of ν), FAILBLK = 0xFF and the descriptors written, nothing else. -/
def Obligations.RsDecodeAllSucceeds : Prop :=
  ∀ (s : State) (ver : BitVec 6) (ecl : BitVec 2) (e : EcEntry), s.ready = true → verOk ver = true →
    s.params.entry? ver ecl = some e → (∀ b < e.blocks.length, ∃ c nu, s.decodedBlock e b = .ok c nu) →
    ∃ t, exec (.rsDecodeAll ver ecl) s = .next t ∧ Completed t .ok ∧ DescriptorsOf t e ∧
      (∀ b < e.blocks.length, ∀ c nu, s.decodedBlock e b = .ok c nu →
        t.mem.readBytes (blkRam + startOf e b) (ndataOf e b + e.ecPerBlock) = c ∧
        t.mem.readBytes (dataRam + (e.blocks.take b).sum) (ndataOf e b) = c.take (ndataOf e b)) ∧
      t.dlen.toNat = e.blocks.sum ∧ t.errCnt = BitVec.ofNat 16 (s.nuSum e e.blocks.length) ∧ t.failBlk = 0xFF ∧
      SameBytesBut s t (fun a => Within blkRam e.total a ∨ Within dataRam e.blocks.sum a ∨ Within blkDesc 324 a) ∧
      t = { s with mem := t.mem, totalCw := t.totalCw, nBlocks := t.nBlocks, ecCount := t.ecCount, dlen := t.dlen,
                   errCnt := t.errCnt, failBlk := t.failBlk }.withCompletionOf t

/-- R136: RS_DECODE_ALL with block `k` the first that fails: blocks before it corrected, it and those after unchanged, ERRCNT
the sum of ν before it, FAILBLK its index, DATA_RAM and DLEN unchanged. -/
def Obligations.RsDecodeAllFails : Prop :=
  ∀ (s : State) (ver : BitVec 6) (ecl : BitVec 2) (e : EcEntry) (k : Nat) (code : ErrorCode), s.ready = true →
    verOk ver = true → s.params.entry? ver ecl = some e → k < e.blocks.length →
    (∀ b < k, ∃ c nu, s.decodedBlock e b = .ok c nu) → s.decodedBlock e k = .fail code →
    ∃ t, exec (.rsDecodeAll ver ecl) s = .next t ∧ Completed t code ∧ DescriptorsOf t e ∧
      (∀ b < k, ∀ c nu, s.decodedBlock e b = .ok c nu →
        t.mem.readBytes (blkRam + startOf e b) (ndataOf e b + e.ecPerBlock) = c) ∧
      t.errCnt = BitVec.ofNat 16 (s.nuSum e k) ∧ t.failBlk.toNat = k ∧
      SameBytesBut s t (fun a => Within blkRam (startOf e k) a ∨ Within blkDesc 324 a) ∧
      t = { s with mem := t.mem, totalCw := t.totalCw, nBlocks := t.nBlocks, ecCount := t.ecCount,
                   errCnt := t.errCnt, failBlk := t.failBlk }.withCompletionOf t

/-! ## The segment parser -/

/-- R154, R142, R74: PARSE begins the parse loop with pos, OUTLEN and NCHUNK 0 and the size class of VER; nothing else changes
(that the loop then runs a segment a step is the model's granularity, log 7). -/
def Obligations.ParseBegins : Prop :=
  ∀ (s : State) (ver : BitVec 6), s.ready = true → verOk ver = true → s.dlen.toNat ≤ 4096 →
    ∃ sc, exec (.parse ver) s = .next { s with stage := .parse, parser := ⟨0, sc, 0, 0⟩ } ∧
      (ver.toNat ≤ 9 → sc = .small) ∧ (10 ≤ ver.toNat → ver.toNat ≤ 26 → sc = .medium) ∧ (27 ≤ ver.toNat → sc = .large)

/-- R143: the terminator ends the parse with OK, BITPOS after its 4 bits, nothing emitted. -/
def Obligations.TermEndsParse : Prop :=
  ∀ s : State, s.ParserOk → s.parser.pos + 4 ≤ s.streamEnd →
    ∃ t, exec .term s = .next t ∧ ParseEnded s t .ok (s.parser.pos + 4)

/-- R144: a numeric segment emits its digits in ASCII; a value out of range ends the parse at its group. -/
def Obligations.NumericSegment : Prop :=
  ∀ (s : State) (groups : List (BitVec 10)) (tail : NumTail) (bits first : Nat),
    bits = Instr.tableLength s.parser.sizeClass (.num groups tail) →
    first = s.parser.pos + 4 + numCountWidth s.parser.sizeClass →
    ((∀ g ∈ groups, g.toNat < 1000) → tail.InRange → s.Fits bits (numericBytes groups tail).length →
      ∃ t, exec (.num groups tail) s = .next t ∧ (numericBytes groups tail).length = numCount groups tail ∧
        Emitted s t 0x1 (numericBytes groups tail) s.parser.outLen (numCount groups tail) (numCount groups tail) bits) ∧
    (∀ pre g post, groups = pre ++ g :: post → (∀ x ∈ pre, x.toNat < 1000) → 1000 ≤ g.toNat → s.ParserOk →
      first + 10 * pre.length + 10 ≤ s.streamEnd →
      ∃ t, exec (.num groups tail) s = .next t ∧ ParseEnded s t .streamNumericRange (first + 10 * pre.length)) ∧
    ((∀ g ∈ groups, g.toNat < 1000) → ¬ tail.InRange → s.ParserOk → s.parser.pos + bits ≤ s.streamEnd →
      ∃ t, exec (.num groups tail) s = .next t ∧ ParseEnded s t .streamNumericRange (first + 10 * groups.length))

/-- R145: an alphanumeric segment emits its characters; a value out of range ends the parse at its group. -/
def Obligations.AlphanumericSegment : Prop :=
  ∀ (s : State) (pairs : List (BitVec 11)) (last : Option (BitVec 6)) (bits first : Nat),
    bits = Instr.tableLength s.parser.sizeClass (.alnum pairs last) →
    first = s.parser.pos + 4 + alnumCountWidth s.parser.sizeClass →
    ((∀ v ∈ pairs, v.toNat < 2025) → (∀ v ∈ last, v.toNat < 45) → s.Fits bits (alnumBytes pairs last).length →
      ∃ t, exec (.alnum pairs last) s = .next t ∧ (alnumBytes pairs last).length = alnumCount pairs last ∧
        Emitted s t 0x2 (alnumBytes pairs last) s.parser.outLen (alnumCount pairs last) (alnumCount pairs last) bits) ∧
    (∀ pre v post, pairs = pre ++ v :: post → (∀ x ∈ pre, x.toNat < 2025) → 2025 ≤ v.toNat → s.ParserOk →
      first + 11 * pre.length + 11 ≤ s.streamEnd →
      ∃ t, exec (.alnum pairs last) s = .next t ∧ ParseEnded s t .streamAlnumRange (first + 11 * pre.length)) ∧
    (∀ v, (∀ x ∈ pairs, x.toNat < 2025) → last = some v → 45 ≤ v.toNat → s.ParserOk → s.parser.pos + bits ≤ s.streamEnd →
      ∃ t, exec (.alnum pairs last) s = .next t ∧ ParseEnded s t .streamAlnumRange (first + 11 * pairs.length))

/-- R146: a byte segment emits its raw bytes. -/
def Obligations.ByteSegment : Prop :=
  ∀ (s : State) (bytes : List Byte) (bits : Nat), bits = Instr.tableLength s.parser.sizeClass (.byte bytes) →
    s.Fits bits bytes.length →
    ∃ t, exec (.byte bytes) s = .next t ∧ Emitted s t 0x4 bytes s.parser.outLen bytes.length bytes.length bits

/-- R147: a Kanji segment emits a Shift-JIS pair for each character, high byte first; no value is out of range, and the sum
never passes 16 bits (R79). -/
def Obligations.KanjiSegment : Prop :=
  (∀ k : BitVec 13, sjis k.toNat ≤ 0xEBBF) ∧
  ∀ (s : State) (chars : List (BitVec 13)) (bits : Nat), bits = Instr.tableLength s.parser.sizeClass (.kanji chars) →
    s.Fits bits (2 * chars.length) →
    ∃ t, exec (.kanji chars) s = .next t ∧ Emitted s t 0x8 (kanjiBytes chars) s.parser.outLen (2 * chars.length) chars.length bits

/-- R148, R149: an ECI segment emits a record with its assignment number (0xFFFFFFFF when corrupted, which is no error), a
Structured Append segment one with its three fields; neither emits bytes. -/
def Obligations.HeaderSegments : Prop :=
  ∀ s : State,
    (∀ a : BitVec 7, s.Fits 12 0 → ∃ t, exec (.eci7 a) s = .next t ∧ Emitted s t 0x7 [] a.toNat 0 0 12) ∧
    (∀ a : BitVec 14, s.Fits 20 0 → ∃ t, exec (.eci14 a) s = .next t ∧ Emitted s t 0x7 [] a.toNat 0 0 20) ∧
    (∀ a : BitVec 21, s.Fits 28 0 → ∃ t, exec (.eci21 a) s = .next t ∧ Emitted s t 0x7 [] a.toNat 0 0 28) ∧
    (s.Fits 12 0 → ∃ t, exec .eciCorrupt s = .next t ∧ Emitted s t 0x7 [] 0xFFFFFFFF 0 0 12) ∧
    (∀ (cur tot : BitVec 4) (par : BitVec 8), s.Fits 20 0 → ∃ t, exec (.sa cur tot par) s = .next t ∧
      Emitted s t 0x3 [] (cur.toNat + 2 ^ 4 * tot.toNat + 2 ^ 8 * par.toNat) 0 0 20)

/-- R141: a segment whose field `k` is the first to run past the end of the stream, with no value before it out of range, ends
the parse with STREAM_UNDERRUN at that field, whatever value the decoder made of the field that is cut (log 22). -/
def Obligations.UnderrunEndsParse : Prop :=
  ∀ (s : State) (i : Instr) (k start : Nat), s.ParserOk → i.ValuesInRangeBefore k → k < (i.fieldWidths s.parser.sizeClass).length →
    start = s.parser.pos + ((i.fieldWidths s.parser.sizeClass).take k).sum → start ≤ s.streamEnd →
    s.streamEnd < start + (i.fieldWidths s.parser.sizeClass).getD k 0 →
    ∃ t, exec i s = .next t ∧ ParseEnded s t .streamUnderrun start

/-- R150: an unlisted mode indicator is a 4-bit segment with no effect under `skip` and ends the parse under `fail`. -/
def Obligations.UnlistedModes : Prop :=
  ∀ (s : State) (i : Instr), i.isUnlisted → s.parser.pos + 4 ≤ s.streamEnd →
    (s.params.unknownMode = .skip →
      exec i s = .next { s with parser := { s.parser with pos := s.parser.pos + 4 } }) ∧
    (s.params.unknownMode = .fail → s.ParserOk →
      ∃ t, exec i s = .next t ∧ ParseEnded s t .streamUnknownMode s.parser.pos)

/-- R152: a segment that the stream holds but a buffer has no room for ends the parse with OUT_OVERFLOW at its mode indicator. -/
def Obligations.OverflowEndsParse : Prop :=
  ∀ (s : State) (i : Instr) (out : List Byte), s.ParserOk → i.ValuesInRange → i.emittedBytes = some out →
    s.parser.pos + i.tableLength s.parser.sizeClass ≤ s.streamEnd →
    outCap < s.parser.outLen + out.length ∨ chunkCap < s.parser.nChunk + 1 →
    ∃ t, exec i s = .next t ∧ ParseEnded s t .outOverflow s.parser.pos

/-- R151: with fewer than 4 bits left the loop exits: with OK at the end of the stream when the remaining bits are all 0 or
TRAILING_POLICY is accept, else with STREAM_TRAILING at the position. -/
def Obligations.LoopExit : Prop :=
  ∀ s : State, s.host = [] → s.busy = true → s.stage = .parse → s.ParserOk → s.streamEnd < s.parser.pos + 4 →
    ((∀ q, s.parser.pos ≤ q → q < s.streamEnd → s.streamBit q = false) ∨ s.params.trailing = .accept →
      ∃ t, step s = .next t ∧ ParseEnded s t .ok s.streamEnd) ∧
    ((∃ q, s.parser.pos ≤ q ∧ q < s.streamEnd ∧ s.streamBit q = true) → s.params.trailing = .reject →
      ∃ t, step s = .next t ∧ ParseEnded s t .streamTrailing s.parser.pos)

/-- R162: DECODE equals EXTRACT, DEINTERLEAVE, RS_DECODE_ALL and the start of PARSE one after another, stopping at the first
error; where all succeed, the flags are still those of the running command and the parse loop begins (that DECODE answers a
state at the start of the loop, which then runs a segment a step, is the model's granularity, log 7). -/
def Obligations.DecodeChainsStages : Prop :=
  ∀ (s : State) (ver : BitVec 6) (ecl : BitVec 2) (mask : BitVec 3) (e : EcEntry), s.ready = true → verOk ver = true →
    s.params.entry? ver ecl = some e →
    ∃ s1 s2, exec (.extract ver mask) s = .next s1 ∧ exec (.deinterleave ver ecl) s1 = .next s2 ∧
      (s2.errCode ≠ .ok → exec (.decode ver ecl mask) s = .next s2) ∧
      (s2.errCode = .ok → ∃ s3, exec (.rsDecodeAll ver ecl) s2 = .next s3 ∧
        (s3.errCode ≠ .ok → exec (.decode ver ecl mask) s = .next s3) ∧
        (s3.errCode = .ok →
          exec (.decode ver ecl mask) s
            = .next { s3.withCompletionOf s with stage := .parse, parser := ⟨0, sizeClassOf ver, 0, 0⟩ } ∧
          exec (.decode ver ecl mask) s = exec (.parse ver) (s3.withCompletionOf s)))

/-! ## The host's accesses -/

/-- R156: a 32-bit write to CMD: accepted while idle, dropped with OVERRUN while busy. -/
def Obligations.CmdWrite : Prop :=
  ∀ (s : State) (v : Word) (rest : List HostEvent),
    s.host = .write (0x10000 * s.params.baseBlock + 0x004) .w32 v :: rest →
    (s.busy = false → ∃ t, step s = .next t ∧ t.busy = true ∧
      t = { s with host := rest, lcmd := v, seq := t.seq, stage := .issue, done := false, err := false, errCode := .ok }) ∧
    (s.busy = true → step s = .next { s with host := rest, overrun := true })

/-- R14 to R22, R169: STATUS and IRQ read their fields, reserved bits 0, busy or not; writes clear the W1C bits written 1 and
set IRQ_EN; the interrupt line. -/
def Obligations.StatusAndIrq : Prop :=
  ∀ (s : State) (rest : List HostEvent) (v : Word),
    (s.host = .read (0x10000 * s.params.baseBlock + 0x008) .w32 :: rest → ∃ r : Word,
      step s = .next { s with host := rest, rdata := r } ∧ r.getLsbD 0 = s.ready ∧ r.getLsbD 1 = s.busy ∧
      r.getLsbD 2 = s.done ∧ r.getLsbD 3 = s.err ∧ r.extractLsb' 4 4 = 0 ∧ r.extractLsb' 8 8 = s.errCode.toByte ∧
      r.getLsbD 16 = s.overrun ∧ r.getLsbD 17 = s.accViol ∧ r.getLsbD 18 = s.busErr ∧ r.extractLsb' 19 13 = 0) ∧
    (s.host = .write (0x10000 * s.params.baseBlock + 0x008) .w32 v :: rest →
      step s = .next { s with
        host := rest
        overrun := s.overrun && !v.getLsbD 16
        accViol := s.accViol && !v.getLsbD 17
        busErr := s.busErr && !v.getLsbD 18 }) ∧
    (s.host = .read (0x10000 * s.params.baseBlock + 0x00C) .w32 :: rest → ∃ r : Word,
      step s = .next { s with host := rest, rdata := r } ∧ r.getLsbD 0 = s.irqEn ∧ r.getLsbD 1 = s.irqPend ∧
      r.extractLsb' 2 30 = 0) ∧
    (s.host = .write (0x10000 * s.params.baseBlock + 0x00C) .w32 v :: rest →
      step s = .next { s with host := rest, irqEn := v.getLsbD 0, irqPend := s.irqPend && !v.getLsbD 1 }) ∧
    (s.irq = true ↔ s.irqEn = true ∧ s.irqPend = true)

/-- R12, R13, R23 to R36: ID and CMD read the same busy or not; the other registers read their value while idle and an
unspecified one while busy, with no other effect than the model's count of draws (log 5). -/
def Obligations.RegisterReads : Prop :=
  ∀ (s : State) (off : Nat) (rest : List HostEvent),
    s.host = .read (0x10000 * s.params.baseBlock + off) .w32 :: rest →
    (off = 0x000 → step s = .next { s with host := rest, rdata := 0x51524401 }) ∧
    (off = 0x004 → step s = .next { s with host := rest, rdata := s.lcmd }) ∧
    (∀ value : Word,
      (off = 0x010 ∧ value = s.dlen.setWidth 32) ∨ (off = 0x014 ∧ value = s.cwCount.setWidth 32)
        ∨ (off = 0x018 ∧ value = s.remBits.setWidth 32) ∨ (off = 0x01C ∧ value = s.totalCw.setWidth 32)
        ∨ (off = 0x020 ∧ value = s.nBlocks.setWidth 32) ∨ (off = 0x024 ∧ value = s.ecCount.setWidth 32)
        ∨ (off = 0x028 ∧ value = s.errCnt.setWidth 32) ∨ (off = 0x02C ∧ value = s.failBlk.setWidth 32)
        ∨ (off = 0x030 ∧ value = s.bitPos.setWidth 32) ∨ (off = 0x034 ∧ value = s.nChunk.setWidth 32)
        ∨ (off = 0x038 ∧ value = s.outLen.setWidth 32)
        ∨ (∃ k < 8, off = 0x040 + 4 * k ∧ ∀ j < 32, value.getLsbD j = s.erase.getLsbD (32 * k + j)) →
      (s.busy = false → step s = .next { s with host := rest, rdata := value }) ∧
      (s.busy = true → ∃ free, step s = .next { s with host := rest, rdata := free, draws := s.draws + 1 }))

/-- R20, R23, R24, R34 to R36: writes to DLEN, CWCOUNT and ERASE0–7 take effect while idle and are dropped with ACCVIOL while
busy; read-only and unlisted registers ignore writes. -/
def Obligations.RegisterWrites : Prop :=
  ∀ (s : State) (off : Nat) (v : Word) (rest : List HostEvent),
    s.host = .write (0x10000 * s.params.baseBlock + off) .w32 v :: rest →
    (s.busy = false → off = 0x010 → step s = .next { s with host := rest, dlen := v.setWidth 13 }) ∧
    (s.busy = false → off = 0x014 → step s = .next { s with host := rest, cwCount := v.setWidth 13 }) ∧
    (∀ k < 8, s.busy = false → off = 0x040 + 4 * k → ∃ map : BitVec 256, step s = .next { s with host := rest, erase := map } ∧
      ∀ p < 256, map.getLsbD p = if p / 32 = k then v.getLsbD (p % 32) else s.erase.getLsbD p) ∧
    (s.busy = true → off = 0x010 ∨ off = 0x014 ∨ (∃ k < 8, off = 0x040 + 4 * k) →
      step s = .next { s with host := rest, accViol := true }) ∧
    (off ∈ [0x000, 0x018, 0x01C, 0x020, 0x024, 0x028, 0x02C, 0x030, 0x034, 0x038, 0x03C] ∨
      (0x060 ≤ off ∧ off < 0x1000 ∧ off % 4 = 0) → step s = .next { s with host := rest })

/-- R50, R57: buffer accesses: little-endian while idle; dropped or unspecified, with ACCVIOL, while busy (BLKDESC is a buffer
for reads; writes to it stand in `BusErrorsAndReserved`). That the bits of the bus response above a narrow read are 0 is the
model's choice (log 25). -/
def Obligations.BufferAccess : Prop :=
  ∀ (s : State) (off : Nat) (w : Width) (v : Word) (rest : List HostEvent), off < 0x10000 → accessOk off w = true →
    (s.host = .write (0x10000 * s.params.baseBlock + off) w v :: rest →
      Within moduleRam 0x4100 off ∨ Within outRam 0xA000 off →
      (s.busy = false → ∃ t, step s = .next t ∧
        (∀ k < w.bytes, t.mem.read (off + k) = v.extractLsb' (8 * k) 8) ∧
        SameBytesBut s t (Within off w.bytes) ∧ t = { s with host := rest, mem := t.mem }) ∧
      (s.busy = true → step s = .next { s with host := rest, accViol := true })) ∧
    (s.host = .read (0x10000 * s.params.baseBlock + off) w :: rest → Stored off →
      (s.busy = false → ∃ r : Word, step s = .next { s with host := rest, rdata := r } ∧
        (∀ k < w.bytes, r.extractLsb' (8 * k) 8 = s.mem.read (off + k)) ∧ r.toNat < 2 ^ (8 * w.bytes)) ∧
      (s.busy = true → ∃ free : Word, free.toNat < 2 ^ (8 * w.bytes) ∧
        step s = .next { s with host := rest, accViol := true, rdata := free, draws := s.draws + 1 }))

/-- R53, R54, R35: an access of a wrong width or alignment sets BUSERR, writes nothing and reads 0, also in a reserved range
and in BLKDESC (log 29; what it does to ACCVIOL while busy is logs 13 and 30); other accesses to reserved and unlisted offsets read 0
and ignore writes, BLKDESC ignores writes, idle or busy (log 12), and none of these sets a status bit. -/
def Obligations.BusErrorsAndReserved : Prop :=
  ∀ (s : State) (off : Nat) (w : Width) (v : Word) (rest : List HostEvent), off < 0x10000 →
    (w = .other ∨ (w ≠ .w32 ∧ off < 0x1000) ∨ (w = .w16 ∧ off % 2 = 1) ∨ (w = .w32 ∧ off % 4 ≠ 0) →
      (s.host = .write (0x10000 * s.params.baseBlock + off) w v :: rest → ∃ viol : Bool,
        step s = .next { s with host := rest, busErr := true, accViol := viol } ∧ (s.busy = false → viol = s.accViol)) ∧
      (s.host = .read (0x10000 * s.params.baseBlock + off) w :: rest → ∃ viol : Bool,
        step s = .next { s with host := rest, busErr := true, accViol := viol, rdata := 0 } ∧
        (s.busy = false → viol = s.accViol))) ∧
    (accessOk off w = true →
      (Within 0x5100 0x300 off ∨ Within 0x5544 0xABC off ∨ off = 0x03C ∨ Within 0x060 0xFA0 off →
        (s.host = .write (0x10000 * s.params.baseBlock + off) w v :: rest → step s = .next { s with host := rest }) ∧
        (s.host = .read (0x10000 * s.params.baseBlock + off) w :: rest → step s = .next { s with host := rest, rdata := 0 })) ∧
      (Within blkDesc 324 off →
        s.host = .write (0x10000 * s.params.baseBlock + off) w v :: rest → step s = .next { s with host := rest }))

/-! ## Reset and the invariant -/

/-- R176, R177: what reset leaves, whatever ran: every register at its value, BLKDESC 0, the RAM bytes unspecified (the free
values of one draw), the parameters unchanged, the interrupt line low. -/
def Obligations.ResetValues : Prop :=
  ∀ (s : State) (rest : List HostEvent), s.host = .reset :: rest →
    ∃ t, step s = .next t ∧ t.lcmd = 0 ∧ t.statusWord = 0 ∧ t.irqWord = 0 ∧ t.irq = false ∧ t.dlen = 0 ∧ t.cwCount = 0 ∧
      t.remBits = 0 ∧ t.totalCw = 0 ∧ t.nBlocks = 0 ∧ t.ecCount = 0 ∧ t.errCnt = 0 ∧ t.bitPos = 0 ∧ t.nChunk = 0 ∧
      t.outLen = 0 ∧ t.failBlk = 0xFF ∧ t.erase = 0 ∧ t.seq = .idle ∧ t.gfTab = none ∧ t.params = s.params ∧ t.host = rest ∧
      (∀ b < 81, t.mem.word (blkDesc + 4 * b) = 0) ∧
      (∀ a, Within moduleRam 0x4100 a ∨ Within outRam 0xA000 a → t.mem.read a = Config.unspecifiedByte s.draws a)

/-- The invariant holds at reset, whatever the parameters and the pending host events. -/
def Obligations.InvAtReset : Prop :=
  State.reset.Inv ∧ ∀ (p : Params) (draw : Nat) (host : List HostEvent), (State.afterReset p draw host).Inv

/-- Every step keeps the invariant: the canonical form of memory, BLKDESC and the reserved offsets, ERR = (ERRCODE ≠ 0), the
flags while busy, GFTAB valid exactly when READY, the parser in bounds, the ranges of the result registers. -/
def Obligations.StepKeepsInv : Prop := ∀ s t : State, s.Inv → step s = .next t → t.Inv

/-! ## The totals of the default table -/

/-- R111 (b): for every version and code of the default table, the codewords of the entry's blocks are as many as the whole
codewords the scan of that version yields. -/
def Obligations.DefaultTableTotals : Prop :=
  ∀ (ver : BitVec 6) (ecl : BitVec 2) (r : VersionRecord), Params.standard.record? ver = some r →
    (scan ver r.alignment).length / 8 = (r.level ecl).total
end

