-- ==== Sys2Proof/Laws/Memory.lean ====
section
/-! SUPPORT. What reading a byte gives after each memory operation, and that every memory operation keeps the canonical form. -/

namespace Sys2Proof.Machine

/-! ## Cells -/

@[simp] theorem cellAt_nil (a : Nat) : cellAt [] a = none := rfl

theorem cellAt_cellPut (a : Nat) (v : Byte) (cs : List Host.Cell) (b : Nat) :
    cellAt (cellPut a v cs) b = if b = a then some v else cellAt cs b := by
  induction cs with
  | nil => simp [cellPut, cellAt]
  | cons c cs ih =>
    obtain ⟨x, w⟩ := c
    simp only [cellPut]
    split
    · simp only [cellAt]
    · split
      · subst_vars
        simp only [cellAt]
        split <;> rfl
      · simp only [cellAt, ih]
        split_ifs <;> simp_all

theorem cellAt_cellDrop (a : Nat) (cs : List Host.Cell) (b : Nat) :
    cellAt (cellDrop a cs) b = if b = a then none else cellAt cs b := by
  induction cs with
  | nil => simp [cellDrop]
  | cons c cs ih =>
    obtain ⟨x, w⟩ := c
    simp only [cellDrop]
    split
    · subst_vars
      simp only [ih, cellAt]
      split_ifs <;> rfl
    · simp only [cellAt, ih]
      split_ifs <;> simp_all

/-! ## Runs of unspecified bytes -/

theorem drawAt_append (r s : List Drawn) (a : Nat) : drawAt (r ++ s) a = (drawAt r a).or (drawAt s a) := by
  induction r with
  | nil => simp [drawAt]
  | cons x r ih =>
    simp only [List.cons_append, drawAt, ih]
    split <;> simp

theorem drawAt_drawnRun (lo hi d a : Nat) : drawAt (drawnRun lo hi d) a = if lo ≤ a ∧ a < hi then some d else none := by
  unfold drawnRun
  split
  · simp [drawAt]
  · rw [if_neg (by omega)]; rfl

theorem drawAt_drawnCut (lo hi : Nat) (rs : List Drawn) (a : Nat) (h : lo < hi) :
    drawAt (drawnCut lo hi rs) a = if lo ≤ a ∧ a < hi then none else drawAt rs a := by
  induction rs with
  | nil => simp [drawnCut, drawAt]
  | cons r rs ih =>
    simp only [drawnCut, drawAt_append, drawAt_drawnRun, ih, drawAt]
    split_ifs <;> first | rfl | (exfalso; omega)

/-! ## Reading after writing -/

/-- R55: a read after a write. -/
theorem Memory.read_write (m : Memory) (a : Nat) (v : Byte) (b : Nat) :
    (m.write a v).read b = if b = a then v else m.read b := by
  unfold Memory.read Memory.write Memory.unlisted
  by_cases hv : v = 0
  · simp only [hv, if_true, cellAt_cellDrop, drawAt_drawnCut a (a + 1) _ _ (by omega)]
    by_cases hb : b = a
    · subst hb; simp
    · rw [if_neg hb, if_neg (by omega), if_neg hb]
  · simp only [hv, if_false, cellAt_cellPut, drawAt_drawnCut a (a + 1) _ _ (by omega)]
    by_cases hb : b = a
    · subst hb; simp
    · rw [if_neg hb, if_neg (by omega), if_neg hb]

@[simp] theorem Memory.read_write_same (m : Memory) (a : Nat) (v : Byte) : (m.write a v).read a = v := by
  simp [Memory.read_write]

theorem Memory.read_write_other (m : Memory) {a b : Nat} (v : Byte) (h : b ≠ a) : (m.write a v).read b = m.read b := by
  simp [Memory.read_write, h]

@[simp] theorem Memory.writeBytes_nil (m : Memory) (a : Nat) : m.writeBytes a [] = m := rfl

theorem Memory.writeBytes_cons (m : Memory) (a : Nat) (b : Byte) (bs : List Byte) :
    m.writeBytes a (b :: bs) = (m.write a b).writeBytes (a + 1) bs := rfl

/-- R9, R55: a read after a run of bytes was written. -/
theorem Memory.read_writeBytes (m : Memory) (a : Nat) (bs : List Byte) (b : Nat) :
    (m.writeBytes a bs).read b = if a ≤ b ∧ b < a + bs.length then bs.getD (b - a) 0 else m.read b := by
  induction bs generalizing m a with
  | nil => simp [show ¬ (a ≤ b ∧ b < a) by omega]
  | cons x bs ih =>
    rw [Memory.writeBytes_cons, ih, Memory.read_write]
    by_cases hb : b = a
    · subst hb; simp
    · by_cases h : a + 1 ≤ b ∧ b < a + 1 + bs.length
      · have h2 : a ≤ b ∧ b < a + (x :: bs).length := by simp only [List.length_cons]; omega
        rw [if_pos h, if_pos h2, show b - a = (b - (a + 1)) + 1 by omega]
        simp
      · have h2 : ¬ (a ≤ b ∧ b < a + (x :: bs).length) := by simp only [List.length_cons]; omega
        rw [if_neg h, if_neg h2, if_neg hb]

theorem Memory.read_writeBytes_other (m : Memory) {a : Nat} {bs : List Byte} {b : Nat} (h : b < a ∨ a + bs.length ≤ b) :
    (m.writeBytes a bs).read b = m.read b := by
  rw [Memory.read_writeBytes, if_neg (by omega)]

@[simp] theorem Memory.readBytes_length (m : Memory) (a n : Nat) : (m.readBytes a n).length = n := by
  simp [Memory.readBytes]

theorem Memory.readBytes_getElem (m : Memory) (a n i : Nat) (h : i < (m.readBytes a n).length) :
    (m.readBytes a n)[i] = m.read (a + i) := by
  simp [Memory.readBytes]

theorem Memory.readBytes_getD (m : Memory) (a n i : Nat) (h : i < n) : (m.readBytes a n).getD i 0 = m.read (a + i) := by
  simp [Memory.readBytes, List.getD, h]

/-- R9: reading back what was written. -/
theorem Memory.readBytes_writeBytes (m : Memory) (a : Nat) (bs : List Byte) :
    (m.writeBytes a bs).readBytes a bs.length = bs := by
  apply List.ext_getElem (by simp)
  intro i h1 h2
  rw [Memory.readBytes_getElem, Memory.read_writeBytes, if_pos (by simp at h1; omega)]
  simp [List.getD, h2]

/-- A read at an offset no scattered byte goes to. -/
theorem Memory.read_scatter_other (m : Memory) (base : Nat) (ps : List (Nat × Byte)) (b : Nat)
    (h : ∀ p ∈ ps, b ≠ base + p.1) : (m.scatter base ps).read b = m.read b := by
  induction ps generalizing m with
  | nil => rfl
  | cons p ps ih =>
    obtain ⟨off, v⟩ := p
    simp only [Memory.scatter]
    rw [ih _ fun q hq => h q (List.mem_cons_of_mem _ hq), Memory.read_write_other]
    exact h (off, v) (List.mem_cons_self ..)

/-- A read at an offset exactly one scattered byte goes to. -/
theorem Memory.read_scatter_mem (m : Memory) (base : Nat) (ps : List (Nat × Byte)) (off : Nat) (v : Byte)
    (hd : (ps.map Prod.fst).Nodup) (h : (off, v) ∈ ps) : (m.scatter base ps).read (base + off) = v := by
  induction ps generalizing m with
  | nil => cases h
  | cons p ps ih =>
    obtain ⟨o, w⟩ := p
    simp only [List.map_cons, List.nodup_cons] at hd
    simp only [Memory.scatter]
    rcases List.mem_cons.1 h with he | hm
    · cases he
      rw [Memory.read_scatter_other, Memory.read_write_same]
      intro q hq he
      have : q.1 = off := by omega
      exact hd.1 (this ▸ List.mem_map_of_mem hq)
    · exact ih _ hd.2 hm

/-! ## The canonical form -/

theorem cellsWf_tail {c : Host.Cell} {cs : List Host.Cell} (h : cellsWf (c :: cs) = true) : cellsWf cs = true := by
  cases cs with
  | nil => rfl
  | cons d cs => simp only [cellsWf, Bool.and_eq_true] at h; exact h.2

theorem cellsWf_cons {c : Host.Cell} {cs : List Host.Cell} :
    cellsWf (c :: cs) = true ↔ c.2 ≠ 0 ∧ (∀ d ∈ cs.head?, c.1 < d.1) ∧ cellsWf cs = true := by
  cases cs with
  | nil => simp [cellsWf]
  | cons d cs => simp [cellsWf, and_assoc]

/-- In a canonical list every later cell lies above. -/
theorem cellsWf_lt {c : Host.Cell} {cs : List Host.Cell} (h : cellsWf (c :: cs) = true) : ∀ d ∈ cs, c.1 < d.1 := by
  induction cs generalizing c with
  | nil => simp
  | cons e cs ih =>
    intro d hd
    have h1 := (cellsWf_cons.1 h).2.1 e (by simp)
    rcases List.mem_cons.1 hd with rfl | hm
    · exact h1
    · exact h1.trans (ih (cellsWf_tail h) d hm)

theorem cellsWf_of {c : Host.Cell} {cs : List Host.Cell} (h0 : c.2 ≠ 0) (h1 : ∀ d ∈ cs, c.1 < d.1)
    (h2 : cellsWf cs = true) : cellsWf (c :: cs) = true :=
  cellsWf_cons.2 ⟨h0, fun d hd => h1 d (List.mem_of_mem_head? hd), h2⟩

theorem mem_cellPut {a : Nat} {v : Byte} {cs : List Host.Cell} {d : Host.Cell} (h : d ∈ cellPut a v cs) :
    d = (a, v) ∨ d ∈ cs := by
  induction cs with
  | nil => simpa [cellPut] using h
  | cons c cs ih =>
    obtain ⟨x, w⟩ := c
    simp only [cellPut] at h
    split at h
    · simpa using h
    · split at h
      · rcases List.mem_cons.1 h with h | h
        · exact .inl h
        · exact .inr (List.mem_cons_of_mem _ h)
      · rcases List.mem_cons.1 h with h | h
        · exact .inr (h ▸ List.mem_cons_self ..)
        · rcases ih h with h | h
          · exact .inl h
          · exact .inr (List.mem_cons_of_mem _ h)

theorem mem_cellDrop {a : Nat} {cs : List Host.Cell} {d : Host.Cell} (h : d ∈ cellDrop a cs) : d ∈ cs ∧ d.1 ≠ a := by
  induction cs with
  | nil => simp [cellDrop] at h
  | cons c cs ih =>
    obtain ⟨x, w⟩ := c
    simp only [cellDrop] at h
    split at h
    · exact ⟨List.mem_cons_of_mem _ (ih h).1, (ih h).2⟩
    · rename_i hne
      rcases List.mem_cons.1 h with h | h
      · subst h; exact ⟨List.mem_cons_self .., fun e => hne e.symm⟩
      · exact ⟨List.mem_cons_of_mem _ (ih h).1, (ih h).2⟩

theorem cellsWf_cellPut {a : Nat} {v : Byte} (hv : v ≠ 0) : ∀ {cs : List Host.Cell}, cellsWf cs = true →
    cellsWf (cellPut a v cs) = true
  | [], _ => by simp [cellPut, cellsWf]; exact hv
  | (x, w) :: cs, h => by
    have hlt := cellsWf_lt h
    have ht := cellsWf_tail h
    simp only [cellPut]
    split
    · rename_i hax
      refine cellsWf_of hv ?_ h
      intro d hd
      rcases List.mem_cons.1 hd with rfl | hm
      · exact hax
      · exact hax.trans (hlt d hm)
    · split
      · subst_vars
        exact cellsWf_of hv hlt ht
      · refine cellsWf_of (cellsWf_cons.1 h).1 ?_ (cellsWf_cellPut hv ht)
        intro d hd
        rcases mem_cellPut hd with rfl | hm
        · change x < a; omega
        · exact hlt d hm

theorem cellsWf_cellDrop {a : Nat} : ∀ {cs : List Host.Cell}, cellsWf cs = true → cellsWf (cellDrop a cs) = true
  | [], _ => rfl
  | (x, w) :: cs, h => by
    simp only [cellDrop]
    split
    · exact cellsWf_cellDrop (cellsWf_tail h)
    · exact cellsWf_of (cellsWf_cons.1 h).1 (fun d hd => cellsWf_lt h d (mem_cellDrop hd).1)
        (cellsWf_cellDrop (cellsWf_tail h))

theorem drawnWf_cons {r : Drawn} {rs : List Drawn} :
    drawnWf (r :: rs) = true ↔ r.lo < r.hi ∧ (∀ s ∈ rs.head?, r.hi ≤ s.lo) ∧ drawnWf rs = true := by
  cases rs with
  | nil => simp [drawnWf]
  | cons s rs => simp [drawnWf, and_assoc]

/-- In a canonical list every later run lies above. -/
theorem drawnWf_le {r : Drawn} {rs : List Drawn} (h : drawnWf (r :: rs) = true) : ∀ s ∈ rs, r.hi ≤ s.lo := by
  induction rs generalizing r with
  | nil => simp
  | cons e rs ih =>
    intro s hs
    have h1 := (drawnWf_cons.1 h).2.1 e (by simp)
    have h2 := (drawnWf_cons.1 h).2.2
    rcases List.mem_cons.1 hs with rfl | hm
    · exact h1
    · exact (h1.trans (drawnWf_cons.1 h2).1.le).trans (ih h2 s hm)

theorem drawnWf_of {r : Drawn} {rs : List Drawn} (h0 : r.lo < r.hi) (h1 : ∀ s ∈ rs, r.hi ≤ s.lo)
    (h2 : drawnWf rs = true) : drawnWf (r :: rs) = true :=
  drawnWf_cons.2 ⟨h0, fun s hs => h1 s (List.mem_of_mem_head? hs), h2⟩

theorem mem_drawnRun {lo hi d : Nat} {s : Drawn} (h : s ∈ drawnRun lo hi d) : s.lo = lo ∧ s.hi = hi ∧ lo < hi := by
  unfold drawnRun at h
  split at h
  · rename_i hlt; simp only [List.mem_singleton] at h; subst h; exact ⟨rfl, rfl, hlt⟩
  · cases h

/-- Every run left after a cut lies in a run before it, and outside the cut. -/
theorem mem_drawnCut {lo hi : Nat} : ∀ {rs : List Drawn} {s : Drawn}, s ∈ drawnCut lo hi rs →
    ∃ r ∈ rs, r.lo ≤ s.lo ∧ s.hi ≤ r.hi ∧ (s.hi ≤ lo ∨ hi ≤ s.lo)
  | [], _, h => by cases h
  | r :: rs, s, h => by
    simp only [drawnCut, List.mem_append] at h
    rcases h with (h | h) | h
    · obtain ⟨h1, h2, h3⟩ := mem_drawnRun h
      exact ⟨r, List.mem_cons_self .., by omega, by omega, by omega⟩
    · obtain ⟨h1, h2, h3⟩ := mem_drawnRun h
      exact ⟨r, List.mem_cons_self .., by omega, by omega, by omega⟩
    · obtain ⟨q, hq, h'⟩ := mem_drawnCut h
      exact ⟨q, List.mem_cons_of_mem _ hq, h'⟩

theorem drawnWf_drawnRun_append {lo hi d : Nat} {rs : List Drawn} (h1 : ∀ s ∈ rs, hi ≤ s.lo) (h2 : drawnWf rs = true) :
    drawnWf (drawnRun lo hi d ++ rs) = true := by
  unfold drawnRun
  split
  · exact drawnWf_of (by assumption) h1 h2
  · exact h2

theorem drawnWf_drawnCut {lo hi : Nat} (hlt : lo < hi) : ∀ {rs : List Drawn}, drawnWf rs = true →
    drawnWf (drawnCut lo hi rs) = true
  | [], _ => rfl
  | r :: rs, h => by
    have hle := drawnWf_le h
    simp only [drawnCut, List.append_assoc]
    have hrest : drawnWf (drawnRun (max r.lo hi) r.hi r.draw ++ drawnCut lo hi rs) = true := by
      refine drawnWf_drawnRun_append ?_ (drawnWf_drawnCut hlt (drawnWf_cons.1 h).2.2)
      intro s hs
      obtain ⟨q, hq, h1, _, _⟩ := mem_drawnCut hs
      exact (hle q hq).trans h1
    refine drawnWf_drawnRun_append ?_ hrest
    intro s hs
    rcases List.mem_append.1 hs with hs | hs
    · obtain ⟨h1, h2, h3⟩ := mem_drawnRun hs; omega
    · obtain ⟨q, hq, h1, _, _⟩ := mem_drawnCut hs
      have := hle q hq
      omega

theorem Memory.wf_iff (m : Memory) :
    m.wf = true ↔ cellsWf m.cells = true ∧ drawnWf m.drawn = true ∧ ∀ c ∈ m.cells, drawAt m.drawn c.1 = none := by
  simp [Memory.wf, and_assoc, List.all_eq_true]

/-- A write keeps the canonical form. -/
theorem Memory.wf_write {m : Memory} (h : m.wf = true) (a : Nat) (v : Byte) : (m.write a v).wf = true := by
  rw [Memory.wf_iff] at h ⊢
  obtain ⟨h1, h2, h3⟩ := h
  refine ⟨?_, drawnWf_drawnCut (by omega) h2, ?_⟩
  · simp only [Memory.write]
    split
    · exact cellsWf_cellDrop h1
    · exact cellsWf_cellPut (by assumption) h1
  · intro c hc
    simp only [Memory.write] at hc ⊢
    rw [drawAt_drawnCut a (a + 1) _ _ (by omega)]
    split
    · rfl
    · rename_i hca
      split at hc
      · exact h3 c (mem_cellDrop hc).1
      · rcases mem_cellPut hc with rfl | hm
        · exact absurd ⟨le_refl a, Nat.lt_succ_self a⟩ hca
        · exact h3 c hm

/-- A run of writes keeps the canonical form. -/
theorem Memory.wf_writeBytes {m : Memory} (h : m.wf = true) (a : Nat) (bs : List Byte) : (m.writeBytes a bs).wf = true := by
  induction bs generalizing m a with
  | nil => exact h
  | cons b bs ih => exact ih (Memory.wf_write h a b) (a + 1)

/-- Scattered writes keep the canonical form. -/
theorem Memory.wf_scatter {m : Memory} (h : m.wf = true) (base : Nat) (ps : List (Nat × Byte)) :
    (m.scatter base ps).wf = true := by
  induction ps generalizing m with
  | nil => exact h
  | cons p ps ih => exact ih (Memory.wf_write h _ _)

/-- Memory after reset is in the canonical form. -/
theorem Memory.wf_atReset (d : Nat) : (Memory.atReset d).wf = true := by
  simp [Memory.atReset, Memory.wf, cellsWf, drawnWf]

end Sys2Proof.Machine
end

