-- ==== Sys2Proof/Laws/State.lean ====
section
/-! SUPPORT. One lemma per field for each update of the state, each true by rfl. -/

namespace Sys2Proof.Machine

/-! ## R158: completion -/

@[simp] theorem State.complete_params (s : State) (code : ErrorCode) : (s.complete code).params = s.params := rfl
@[simp] theorem State.complete_ready (s : State) (code : ErrorCode) : (s.complete code).ready = s.ready := rfl
@[simp] theorem State.complete_done (s : State) (code : ErrorCode) : (s.complete code).done = true := rfl
@[simp] theorem State.complete_err (s : State) (code : ErrorCode) : (s.complete code).err = (code != .ok) := rfl
@[simp] theorem State.complete_errCode (s : State) (code : ErrorCode) : (s.complete code).errCode = code := rfl
@[simp] theorem State.complete_overrun (s : State) (code : ErrorCode) : (s.complete code).overrun = s.overrun := rfl
@[simp] theorem State.complete_accViol (s : State) (code : ErrorCode) : (s.complete code).accViol = s.accViol := rfl
@[simp] theorem State.complete_busErr (s : State) (code : ErrorCode) : (s.complete code).busErr = s.busErr := rfl
@[simp] theorem State.complete_irqEn (s : State) (code : ErrorCode) : (s.complete code).irqEn = s.irqEn := rfl
@[simp] theorem State.complete_irqPend (s : State) (code : ErrorCode) : (s.complete code).irqPend = true := rfl
@[simp] theorem State.complete_lcmd (s : State) (code : ErrorCode) : (s.complete code).lcmd = s.lcmd := rfl
@[simp] theorem State.complete_seq (s : State) (code : ErrorCode) : (s.complete code).seq = .idle := rfl
@[simp] theorem State.complete_stage (s : State) (code : ErrorCode) : (s.complete code).stage = .issue := rfl
@[simp] theorem State.complete_parser (s : State) (code : ErrorCode) : (s.complete code).parser = s.parser := rfl
@[simp] theorem State.complete_gfTab (s : State) (code : ErrorCode) : (s.complete code).gfTab = s.gfTab := rfl
@[simp] theorem State.complete_dlen (s : State) (code : ErrorCode) : (s.complete code).dlen = s.dlen := rfl
@[simp] theorem State.complete_cwCount (s : State) (code : ErrorCode) : (s.complete code).cwCount = s.cwCount := rfl
@[simp] theorem State.complete_remBits (s : State) (code : ErrorCode) : (s.complete code).remBits = s.remBits := rfl
@[simp] theorem State.complete_totalCw (s : State) (code : ErrorCode) : (s.complete code).totalCw = s.totalCw := rfl
@[simp] theorem State.complete_nBlocks (s : State) (code : ErrorCode) : (s.complete code).nBlocks = s.nBlocks := rfl
@[simp] theorem State.complete_ecCount (s : State) (code : ErrorCode) : (s.complete code).ecCount = s.ecCount := rfl
@[simp] theorem State.complete_errCnt (s : State) (code : ErrorCode) : (s.complete code).errCnt = s.errCnt := rfl
@[simp] theorem State.complete_failBlk (s : State) (code : ErrorCode) : (s.complete code).failBlk = s.failBlk := rfl
@[simp] theorem State.complete_bitPos (s : State) (code : ErrorCode) : (s.complete code).bitPos = s.bitPos := rfl
@[simp] theorem State.complete_nChunk (s : State) (code : ErrorCode) : (s.complete code).nChunk = s.nChunk := rfl
@[simp] theorem State.complete_outLen (s : State) (code : ErrorCode) : (s.complete code).outLen = s.outLen := rfl
@[simp] theorem State.complete_erase (s : State) (code : ErrorCode) : (s.complete code).erase = s.erase := rfl
@[simp] theorem State.complete_mem (s : State) (code : ErrorCode) : (s.complete code).mem = s.mem := rfl
@[simp] theorem State.complete_rdata (s : State) (code : ErrorCode) : (s.complete code).rdata = s.rdata := rfl
@[simp] theorem State.complete_draws (s : State) (code : ErrorCode) : (s.complete code).draws = s.draws := rfl
@[simp] theorem State.complete_host (s : State) (code : ErrorCode) : (s.complete code).host = s.host := rfl
@[simp] theorem State.complete_busy (s : State) (code : ErrorCode) : (s.complete code).busy = false := rfl

/-! ## R156: acceptance -/

@[simp] theorem State.accept_params (s : State) (w : Word) : (s.accept w).params = s.params := rfl
@[simp] theorem State.accept_ready (s : State) (w : Word) : (s.accept w).ready = s.ready := rfl
@[simp] theorem State.accept_done (s : State) (w : Word) : (s.accept w).done = false := rfl
@[simp] theorem State.accept_err (s : State) (w : Word) : (s.accept w).err = false := rfl
@[simp] theorem State.accept_errCode (s : State) (w : Word) : (s.accept w).errCode = .ok := rfl
@[simp] theorem State.accept_overrun (s : State) (w : Word) : (s.accept w).overrun = s.overrun := rfl
@[simp] theorem State.accept_accViol (s : State) (w : Word) : (s.accept w).accViol = s.accViol := rfl
@[simp] theorem State.accept_busErr (s : State) (w : Word) : (s.accept w).busErr = s.busErr := rfl
@[simp] theorem State.accept_irqEn (s : State) (w : Word) : (s.accept w).irqEn = s.irqEn := rfl
@[simp] theorem State.accept_irqPend (s : State) (w : Word) : (s.accept w).irqPend = s.irqPend := rfl
@[simp] theorem State.accept_lcmd (s : State) (w : Word) : (s.accept w).lcmd = w := rfl
@[simp] theorem State.accept_seq (s : State) (w : Word) : (s.accept w).seq = .run := rfl
@[simp] theorem State.accept_stage (s : State) (w : Word) : (s.accept w).stage = .issue := rfl
@[simp] theorem State.accept_parser (s : State) (w : Word) : (s.accept w).parser = s.parser := rfl
@[simp] theorem State.accept_gfTab (s : State) (w : Word) : (s.accept w).gfTab = s.gfTab := rfl
@[simp] theorem State.accept_dlen (s : State) (w : Word) : (s.accept w).dlen = s.dlen := rfl
@[simp] theorem State.accept_cwCount (s : State) (w : Word) : (s.accept w).cwCount = s.cwCount := rfl
@[simp] theorem State.accept_remBits (s : State) (w : Word) : (s.accept w).remBits = s.remBits := rfl
@[simp] theorem State.accept_totalCw (s : State) (w : Word) : (s.accept w).totalCw = s.totalCw := rfl
@[simp] theorem State.accept_nBlocks (s : State) (w : Word) : (s.accept w).nBlocks = s.nBlocks := rfl
@[simp] theorem State.accept_ecCount (s : State) (w : Word) : (s.accept w).ecCount = s.ecCount := rfl
@[simp] theorem State.accept_errCnt (s : State) (w : Word) : (s.accept w).errCnt = s.errCnt := rfl
@[simp] theorem State.accept_failBlk (s : State) (w : Word) : (s.accept w).failBlk = s.failBlk := rfl
@[simp] theorem State.accept_bitPos (s : State) (w : Word) : (s.accept w).bitPos = s.bitPos := rfl
@[simp] theorem State.accept_nChunk (s : State) (w : Word) : (s.accept w).nChunk = s.nChunk := rfl
@[simp] theorem State.accept_outLen (s : State) (w : Word) : (s.accept w).outLen = s.outLen := rfl
@[simp] theorem State.accept_erase (s : State) (w : Word) : (s.accept w).erase = s.erase := rfl
@[simp] theorem State.accept_mem (s : State) (w : Word) : (s.accept w).mem = s.mem := rfl
@[simp] theorem State.accept_rdata (s : State) (w : Word) : (s.accept w).rdata = s.rdata := rfl
@[simp] theorem State.accept_draws (s : State) (w : Word) : (s.accept w).draws = s.draws := rfl
@[simp] theorem State.accept_host (s : State) (w : Word) : (s.accept w).host = s.host := rfl
@[simp] theorem State.accept_busy (s : State) (w : Word) : (s.accept w).busy = true := rfl

/-! ## R142: the start of the parse loop -/

@[simp] theorem State.beginParse_params (s : State) (ver : BitVec 6) : (s.beginParse ver).params = s.params := rfl
@[simp] theorem State.beginParse_ready (s : State) (ver : BitVec 6) : (s.beginParse ver).ready = s.ready := rfl
@[simp] theorem State.beginParse_done (s : State) (ver : BitVec 6) : (s.beginParse ver).done = s.done := rfl
@[simp] theorem State.beginParse_err (s : State) (ver : BitVec 6) : (s.beginParse ver).err = s.err := rfl
@[simp] theorem State.beginParse_errCode (s : State) (ver : BitVec 6) : (s.beginParse ver).errCode = s.errCode := rfl
@[simp] theorem State.beginParse_overrun (s : State) (ver : BitVec 6) : (s.beginParse ver).overrun = s.overrun := rfl
@[simp] theorem State.beginParse_accViol (s : State) (ver : BitVec 6) : (s.beginParse ver).accViol = s.accViol := rfl
@[simp] theorem State.beginParse_busErr (s : State) (ver : BitVec 6) : (s.beginParse ver).busErr = s.busErr := rfl
@[simp] theorem State.beginParse_irqEn (s : State) (ver : BitVec 6) : (s.beginParse ver).irqEn = s.irqEn := rfl
@[simp] theorem State.beginParse_irqPend (s : State) (ver : BitVec 6) : (s.beginParse ver).irqPend = s.irqPend := rfl
@[simp] theorem State.beginParse_lcmd (s : State) (ver : BitVec 6) : (s.beginParse ver).lcmd = s.lcmd := rfl
@[simp] theorem State.beginParse_seq (s : State) (ver : BitVec 6) : (s.beginParse ver).seq = s.seq := rfl
@[simp] theorem State.beginParse_stage (s : State) (ver : BitVec 6) : (s.beginParse ver).stage = .parse := rfl
@[simp] theorem State.beginParse_parser (s : State) (ver : BitVec 6) :
    (s.beginParse ver).parser = ⟨0, sizeClassOf ver, 0, 0⟩ := rfl
@[simp] theorem State.beginParse_gfTab (s : State) (ver : BitVec 6) : (s.beginParse ver).gfTab = s.gfTab := rfl
@[simp] theorem State.beginParse_dlen (s : State) (ver : BitVec 6) : (s.beginParse ver).dlen = s.dlen := rfl
@[simp] theorem State.beginParse_cwCount (s : State) (ver : BitVec 6) : (s.beginParse ver).cwCount = s.cwCount := rfl
@[simp] theorem State.beginParse_remBits (s : State) (ver : BitVec 6) : (s.beginParse ver).remBits = s.remBits := rfl
@[simp] theorem State.beginParse_totalCw (s : State) (ver : BitVec 6) : (s.beginParse ver).totalCw = s.totalCw := rfl
@[simp] theorem State.beginParse_nBlocks (s : State) (ver : BitVec 6) : (s.beginParse ver).nBlocks = s.nBlocks := rfl
@[simp] theorem State.beginParse_ecCount (s : State) (ver : BitVec 6) : (s.beginParse ver).ecCount = s.ecCount := rfl
@[simp] theorem State.beginParse_errCnt (s : State) (ver : BitVec 6) : (s.beginParse ver).errCnt = s.errCnt := rfl
@[simp] theorem State.beginParse_failBlk (s : State) (ver : BitVec 6) : (s.beginParse ver).failBlk = s.failBlk := rfl
@[simp] theorem State.beginParse_bitPos (s : State) (ver : BitVec 6) : (s.beginParse ver).bitPos = s.bitPos := rfl
@[simp] theorem State.beginParse_nChunk (s : State) (ver : BitVec 6) : (s.beginParse ver).nChunk = s.nChunk := rfl
@[simp] theorem State.beginParse_outLen (s : State) (ver : BitVec 6) : (s.beginParse ver).outLen = s.outLen := rfl
@[simp] theorem State.beginParse_erase (s : State) (ver : BitVec 6) : (s.beginParse ver).erase = s.erase := rfl
@[simp] theorem State.beginParse_mem (s : State) (ver : BitVec 6) : (s.beginParse ver).mem = s.mem := rfl
@[simp] theorem State.beginParse_rdata (s : State) (ver : BitVec 6) : (s.beginParse ver).rdata = s.rdata := rfl
@[simp] theorem State.beginParse_draws (s : State) (ver : BitVec 6) : (s.beginParse ver).draws = s.draws := rfl
@[simp] theorem State.beginParse_host (s : State) (ver : BitVec 6) : (s.beginParse ver).host = s.host := rfl
@[simp] theorem State.beginParse_busy (s : State) (ver : BitVec 6) : (s.beginParse ver).busy = s.busy := rfl

/-! ## R153: the end of a parse -/

@[simp] theorem State.endParse_params (s : State) (code : ErrorCode) (p : Nat) : (s.endParse code p).params = s.params := rfl
@[simp] theorem State.endParse_ready (s : State) (code : ErrorCode) (p : Nat) : (s.endParse code p).ready = s.ready := rfl
@[simp] theorem State.endParse_done (s : State) (code : ErrorCode) (p : Nat) : (s.endParse code p).done = true := rfl
@[simp] theorem State.endParse_err (s : State) (code : ErrorCode) (p : Nat) : (s.endParse code p).err = (code != .ok) := rfl
@[simp] theorem State.endParse_errCode (s : State) (code : ErrorCode) (p : Nat) : (s.endParse code p).errCode = code := rfl
@[simp] theorem State.endParse_overrun (s : State) (code : ErrorCode) (p : Nat) : (s.endParse code p).overrun = s.overrun := rfl
@[simp] theorem State.endParse_accViol (s : State) (code : ErrorCode) (p : Nat) : (s.endParse code p).accViol = s.accViol := rfl
@[simp] theorem State.endParse_busErr (s : State) (code : ErrorCode) (p : Nat) : (s.endParse code p).busErr = s.busErr := rfl
@[simp] theorem State.endParse_irqEn (s : State) (code : ErrorCode) (p : Nat) : (s.endParse code p).irqEn = s.irqEn := rfl
@[simp] theorem State.endParse_irqPend (s : State) (code : ErrorCode) (p : Nat) : (s.endParse code p).irqPend = true := rfl
@[simp] theorem State.endParse_lcmd (s : State) (code : ErrorCode) (p : Nat) : (s.endParse code p).lcmd = s.lcmd := rfl
@[simp] theorem State.endParse_seq (s : State) (code : ErrorCode) (p : Nat) : (s.endParse code p).seq = .idle := rfl
@[simp] theorem State.endParse_stage (s : State) (code : ErrorCode) (p : Nat) : (s.endParse code p).stage = .issue := rfl
@[simp] theorem State.endParse_parser (s : State) (code : ErrorCode) (p : Nat) : (s.endParse code p).parser = s.parser := rfl
@[simp] theorem State.endParse_gfTab (s : State) (code : ErrorCode) (p : Nat) : (s.endParse code p).gfTab = s.gfTab := rfl
@[simp] theorem State.endParse_dlen (s : State) (code : ErrorCode) (p : Nat) : (s.endParse code p).dlen = s.dlen := rfl
@[simp] theorem State.endParse_cwCount (s : State) (code : ErrorCode) (p : Nat) : (s.endParse code p).cwCount = s.cwCount := rfl
@[simp] theorem State.endParse_remBits (s : State) (code : ErrorCode) (p : Nat) : (s.endParse code p).remBits = s.remBits := rfl
@[simp] theorem State.endParse_totalCw (s : State) (code : ErrorCode) (p : Nat) : (s.endParse code p).totalCw = s.totalCw := rfl
@[simp] theorem State.endParse_nBlocks (s : State) (code : ErrorCode) (p : Nat) : (s.endParse code p).nBlocks = s.nBlocks := rfl
@[simp] theorem State.endParse_ecCount (s : State) (code : ErrorCode) (p : Nat) : (s.endParse code p).ecCount = s.ecCount := rfl
@[simp] theorem State.endParse_errCnt (s : State) (code : ErrorCode) (p : Nat) : (s.endParse code p).errCnt = s.errCnt := rfl
@[simp] theorem State.endParse_failBlk (s : State) (code : ErrorCode) (p : Nat) : (s.endParse code p).failBlk = s.failBlk := rfl
@[simp] theorem State.endParse_bitPos (s : State) (code : ErrorCode) (p : Nat) :
    (s.endParse code p).bitPos = BitVec.ofNat 16 p := rfl
@[simp] theorem State.endParse_nChunk (s : State) (code : ErrorCode) (p : Nat) :
    (s.endParse code p).nChunk = BitVec.ofNat 12 s.parser.nChunk := rfl
@[simp] theorem State.endParse_outLen (s : State) (code : ErrorCode) (p : Nat) :
    (s.endParse code p).outLen = BitVec.ofNat 14 s.parser.outLen := rfl
@[simp] theorem State.endParse_erase (s : State) (code : ErrorCode) (p : Nat) : (s.endParse code p).erase = s.erase := rfl
@[simp] theorem State.endParse_mem (s : State) (code : ErrorCode) (p : Nat) : (s.endParse code p).mem = s.mem := rfl
@[simp] theorem State.endParse_rdata (s : State) (code : ErrorCode) (p : Nat) : (s.endParse code p).rdata = s.rdata := rfl
@[simp] theorem State.endParse_draws (s : State) (code : ErrorCode) (p : Nat) : (s.endParse code p).draws = s.draws := rfl
@[simp] theorem State.endParse_host (s : State) (code : ErrorCode) (p : Nat) : (s.endParse code p).host = s.host := rfl
@[simp] theorem State.endParse_busy (s : State) (code : ErrorCode) (p : Nat) : (s.endParse code p).busy = false := rfl

/-! ## R121: the block descriptors -/

@[simp] theorem State.writeDescriptors_params (s : State) (e : EcEntry) : (s.writeDescriptors e).params = s.params := rfl
@[simp] theorem State.writeDescriptors_ready (s : State) (e : EcEntry) : (s.writeDescriptors e).ready = s.ready := rfl
@[simp] theorem State.writeDescriptors_done (s : State) (e : EcEntry) : (s.writeDescriptors e).done = s.done := rfl
@[simp] theorem State.writeDescriptors_err (s : State) (e : EcEntry) : (s.writeDescriptors e).err = s.err := rfl
@[simp] theorem State.writeDescriptors_errCode (s : State) (e : EcEntry) : (s.writeDescriptors e).errCode = s.errCode := rfl
@[simp] theorem State.writeDescriptors_overrun (s : State) (e : EcEntry) : (s.writeDescriptors e).overrun = s.overrun := rfl
@[simp] theorem State.writeDescriptors_accViol (s : State) (e : EcEntry) : (s.writeDescriptors e).accViol = s.accViol := rfl
@[simp] theorem State.writeDescriptors_busErr (s : State) (e : EcEntry) : (s.writeDescriptors e).busErr = s.busErr := rfl
@[simp] theorem State.writeDescriptors_irqEn (s : State) (e : EcEntry) : (s.writeDescriptors e).irqEn = s.irqEn := rfl
@[simp] theorem State.writeDescriptors_irqPend (s : State) (e : EcEntry) : (s.writeDescriptors e).irqPend = s.irqPend := rfl
@[simp] theorem State.writeDescriptors_lcmd (s : State) (e : EcEntry) : (s.writeDescriptors e).lcmd = s.lcmd := rfl
@[simp] theorem State.writeDescriptors_seq (s : State) (e : EcEntry) : (s.writeDescriptors e).seq = s.seq := rfl
@[simp] theorem State.writeDescriptors_stage (s : State) (e : EcEntry) : (s.writeDescriptors e).stage = s.stage := rfl
@[simp] theorem State.writeDescriptors_parser (s : State) (e : EcEntry) : (s.writeDescriptors e).parser = s.parser := rfl
@[simp] theorem State.writeDescriptors_gfTab (s : State) (e : EcEntry) : (s.writeDescriptors e).gfTab = s.gfTab := rfl
@[simp] theorem State.writeDescriptors_dlen (s : State) (e : EcEntry) : (s.writeDescriptors e).dlen = s.dlen := rfl
@[simp] theorem State.writeDescriptors_cwCount (s : State) (e : EcEntry) : (s.writeDescriptors e).cwCount = s.cwCount := rfl
@[simp] theorem State.writeDescriptors_remBits (s : State) (e : EcEntry) : (s.writeDescriptors e).remBits = s.remBits := rfl
@[simp] theorem State.writeDescriptors_totalCw (s : State) (e : EcEntry) :
    (s.writeDescriptors e).totalCw = BitVec.ofNat 13 e.total := rfl
@[simp] theorem State.writeDescriptors_nBlocks (s : State) (e : EcEntry) :
    (s.writeDescriptors e).nBlocks = BitVec.ofNat 7 e.blocks.length := rfl
@[simp] theorem State.writeDescriptors_ecCount (s : State) (e : EcEntry) :
    (s.writeDescriptors e).ecCount = BitVec.ofNat 8 e.ecPerBlock := rfl
@[simp] theorem State.writeDescriptors_errCnt (s : State) (e : EcEntry) : (s.writeDescriptors e).errCnt = s.errCnt := rfl
@[simp] theorem State.writeDescriptors_failBlk (s : State) (e : EcEntry) : (s.writeDescriptors e).failBlk = s.failBlk := rfl
@[simp] theorem State.writeDescriptors_bitPos (s : State) (e : EcEntry) : (s.writeDescriptors e).bitPos = s.bitPos := rfl
@[simp] theorem State.writeDescriptors_nChunk (s : State) (e : EcEntry) : (s.writeDescriptors e).nChunk = s.nChunk := rfl
@[simp] theorem State.writeDescriptors_outLen (s : State) (e : EcEntry) : (s.writeDescriptors e).outLen = s.outLen := rfl
@[simp] theorem State.writeDescriptors_erase (s : State) (e : EcEntry) : (s.writeDescriptors e).erase = s.erase := rfl
@[simp] theorem State.writeDescriptors_mem (s : State) (e : EcEntry) :
    (s.writeDescriptors e).mem = s.mem.writeBytes blkDesc ((descriptorWords (blockList e)).flatMap bytesOfWord) := rfl
@[simp] theorem State.writeDescriptors_rdata (s : State) (e : EcEntry) : (s.writeDescriptors e).rdata = s.rdata := rfl
@[simp] theorem State.writeDescriptors_draws (s : State) (e : EcEntry) : (s.writeDescriptors e).draws = s.draws := rfl
@[simp] theorem State.writeDescriptors_host (s : State) (e : EcEntry) : (s.writeDescriptors e).host = s.host := rfl
@[simp] theorem State.writeDescriptors_busy (s : State) (e : EcEntry) : (s.writeDescriptors e).busy = s.busy := rfl

/-! ## R116: the effects of EXTRACT -/

@[simp] theorem State.extractStage_params (s : State) (ver : BitVec 6) (mask : BitVec 3) (cs : List Nat) :
    (s.extractStage ver mask cs).params = s.params := rfl
@[simp] theorem State.extractStage_ready (s : State) (ver : BitVec 6) (mask : BitVec 3) (cs : List Nat) :
    (s.extractStage ver mask cs).ready = s.ready := rfl
@[simp] theorem State.extractStage_done (s : State) (ver : BitVec 6) (mask : BitVec 3) (cs : List Nat) :
    (s.extractStage ver mask cs).done = s.done := rfl
@[simp] theorem State.extractStage_err (s : State) (ver : BitVec 6) (mask : BitVec 3) (cs : List Nat) :
    (s.extractStage ver mask cs).err = s.err := rfl
@[simp] theorem State.extractStage_errCode (s : State) (ver : BitVec 6) (mask : BitVec 3) (cs : List Nat) :
    (s.extractStage ver mask cs).errCode = s.errCode := rfl
@[simp] theorem State.extractStage_overrun (s : State) (ver : BitVec 6) (mask : BitVec 3) (cs : List Nat) :
    (s.extractStage ver mask cs).overrun = s.overrun := rfl
@[simp] theorem State.extractStage_accViol (s : State) (ver : BitVec 6) (mask : BitVec 3) (cs : List Nat) :
    (s.extractStage ver mask cs).accViol = s.accViol := rfl
@[simp] theorem State.extractStage_busErr (s : State) (ver : BitVec 6) (mask : BitVec 3) (cs : List Nat) :
    (s.extractStage ver mask cs).busErr = s.busErr := rfl
@[simp] theorem State.extractStage_irqEn (s : State) (ver : BitVec 6) (mask : BitVec 3) (cs : List Nat) :
    (s.extractStage ver mask cs).irqEn = s.irqEn := rfl
@[simp] theorem State.extractStage_irqPend (s : State) (ver : BitVec 6) (mask : BitVec 3) (cs : List Nat) :
    (s.extractStage ver mask cs).irqPend = s.irqPend := rfl
@[simp] theorem State.extractStage_lcmd (s : State) (ver : BitVec 6) (mask : BitVec 3) (cs : List Nat) :
    (s.extractStage ver mask cs).lcmd = s.lcmd := rfl
@[simp] theorem State.extractStage_seq (s : State) (ver : BitVec 6) (mask : BitVec 3) (cs : List Nat) :
    (s.extractStage ver mask cs).seq = s.seq := rfl
@[simp] theorem State.extractStage_stage (s : State) (ver : BitVec 6) (mask : BitVec 3) (cs : List Nat) :
    (s.extractStage ver mask cs).stage = s.stage := rfl
@[simp] theorem State.extractStage_parser (s : State) (ver : BitVec 6) (mask : BitVec 3) (cs : List Nat) :
    (s.extractStage ver mask cs).parser = s.parser := rfl
@[simp] theorem State.extractStage_gfTab (s : State) (ver : BitVec 6) (mask : BitVec 3) (cs : List Nat) :
    (s.extractStage ver mask cs).gfTab = s.gfTab := rfl
@[simp] theorem State.extractStage_dlen (s : State) (ver : BitVec 6) (mask : BitVec 3) (cs : List Nat) :
    (s.extractStage ver mask cs).dlen = s.dlen := rfl
@[simp] theorem State.extractStage_cwCount (s : State) (ver : BitVec 6) (mask : BitVec 3) (cs : List Nat) :
    (s.extractStage ver mask cs).cwCount = BitVec.ofNat 13 (packBits 0 0 (s.dataBits ver mask cs)).1.length := rfl
@[simp] theorem State.extractStage_remBits (s : State) (ver : BitVec 6) (mask : BitVec 3) (cs : List Nat) :
    (s.extractStage ver mask cs).remBits = BitVec.ofNat 3 (packBits 0 0 (s.dataBits ver mask cs)).2 := rfl
@[simp] theorem State.extractStage_totalCw (s : State) (ver : BitVec 6) (mask : BitVec 3) (cs : List Nat) :
    (s.extractStage ver mask cs).totalCw = s.totalCw := rfl
@[simp] theorem State.extractStage_nBlocks (s : State) (ver : BitVec 6) (mask : BitVec 3) (cs : List Nat) :
    (s.extractStage ver mask cs).nBlocks = s.nBlocks := rfl
@[simp] theorem State.extractStage_ecCount (s : State) (ver : BitVec 6) (mask : BitVec 3) (cs : List Nat) :
    (s.extractStage ver mask cs).ecCount = s.ecCount := rfl
@[simp] theorem State.extractStage_errCnt (s : State) (ver : BitVec 6) (mask : BitVec 3) (cs : List Nat) :
    (s.extractStage ver mask cs).errCnt = s.errCnt := rfl
@[simp] theorem State.extractStage_failBlk (s : State) (ver : BitVec 6) (mask : BitVec 3) (cs : List Nat) :
    (s.extractStage ver mask cs).failBlk = s.failBlk := rfl
@[simp] theorem State.extractStage_bitPos (s : State) (ver : BitVec 6) (mask : BitVec 3) (cs : List Nat) :
    (s.extractStage ver mask cs).bitPos = s.bitPos := rfl
@[simp] theorem State.extractStage_nChunk (s : State) (ver : BitVec 6) (mask : BitVec 3) (cs : List Nat) :
    (s.extractStage ver mask cs).nChunk = s.nChunk := rfl
@[simp] theorem State.extractStage_outLen (s : State) (ver : BitVec 6) (mask : BitVec 3) (cs : List Nat) :
    (s.extractStage ver mask cs).outLen = s.outLen := rfl
@[simp] theorem State.extractStage_erase (s : State) (ver : BitVec 6) (mask : BitVec 3) (cs : List Nat) :
    (s.extractStage ver mask cs).erase = s.erase := rfl
@[simp] theorem State.extractStage_mem (s : State) (ver : BitVec 6) (mask : BitVec 3) (cs : List Nat) :
    (s.extractStage ver mask cs).mem = s.mem.writeBytes cwRam (packBits 0 0 (s.dataBits ver mask cs)).1 := rfl
@[simp] theorem State.extractStage_rdata (s : State) (ver : BitVec 6) (mask : BitVec 3) (cs : List Nat) :
    (s.extractStage ver mask cs).rdata = s.rdata := rfl
@[simp] theorem State.extractStage_draws (s : State) (ver : BitVec 6) (mask : BitVec 3) (cs : List Nat) :
    (s.extractStage ver mask cs).draws = s.draws := rfl
@[simp] theorem State.extractStage_host (s : State) (ver : BitVec 6) (mask : BitVec 3) (cs : List Nat) :
    (s.extractStage ver mask cs).host = s.host := rfl
@[simp] theorem State.extractStage_busy (s : State) (ver : BitVec 6) (mask : BitVec 3) (cs : List Nat) : (s.extractStage ver mask cs).busy = s.busy := rfl

/-! ## R21: a write to STATUS -/

@[simp] theorem State.writeStatus_params (s : State) (v : Word) : (s.writeStatus v).params = s.params := rfl
@[simp] theorem State.writeStatus_ready (s : State) (v : Word) : (s.writeStatus v).ready = s.ready := rfl
@[simp] theorem State.writeStatus_done (s : State) (v : Word) : (s.writeStatus v).done = s.done := rfl
@[simp] theorem State.writeStatus_err (s : State) (v : Word) : (s.writeStatus v).err = s.err := rfl
@[simp] theorem State.writeStatus_errCode (s : State) (v : Word) : (s.writeStatus v).errCode = s.errCode := rfl
@[simp] theorem State.writeStatus_overrun (s : State) (v : Word) : (s.writeStatus v).overrun = (s.overrun && !v.getLsbD 16) := rfl
@[simp] theorem State.writeStatus_accViol (s : State) (v : Word) : (s.writeStatus v).accViol = (s.accViol && !v.getLsbD 17) := rfl
@[simp] theorem State.writeStatus_busErr (s : State) (v : Word) : (s.writeStatus v).busErr = (s.busErr && !v.getLsbD 18) := rfl
@[simp] theorem State.writeStatus_irqEn (s : State) (v : Word) : (s.writeStatus v).irqEn = s.irqEn := rfl
@[simp] theorem State.writeStatus_irqPend (s : State) (v : Word) : (s.writeStatus v).irqPend = s.irqPend := rfl
@[simp] theorem State.writeStatus_lcmd (s : State) (v : Word) : (s.writeStatus v).lcmd = s.lcmd := rfl
@[simp] theorem State.writeStatus_seq (s : State) (v : Word) : (s.writeStatus v).seq = s.seq := rfl
@[simp] theorem State.writeStatus_stage (s : State) (v : Word) : (s.writeStatus v).stage = s.stage := rfl
@[simp] theorem State.writeStatus_parser (s : State) (v : Word) : (s.writeStatus v).parser = s.parser := rfl
@[simp] theorem State.writeStatus_gfTab (s : State) (v : Word) : (s.writeStatus v).gfTab = s.gfTab := rfl
@[simp] theorem State.writeStatus_dlen (s : State) (v : Word) : (s.writeStatus v).dlen = s.dlen := rfl
@[simp] theorem State.writeStatus_cwCount (s : State) (v : Word) : (s.writeStatus v).cwCount = s.cwCount := rfl
@[simp] theorem State.writeStatus_remBits (s : State) (v : Word) : (s.writeStatus v).remBits = s.remBits := rfl
@[simp] theorem State.writeStatus_totalCw (s : State) (v : Word) : (s.writeStatus v).totalCw = s.totalCw := rfl
@[simp] theorem State.writeStatus_nBlocks (s : State) (v : Word) : (s.writeStatus v).nBlocks = s.nBlocks := rfl
@[simp] theorem State.writeStatus_ecCount (s : State) (v : Word) : (s.writeStatus v).ecCount = s.ecCount := rfl
@[simp] theorem State.writeStatus_errCnt (s : State) (v : Word) : (s.writeStatus v).errCnt = s.errCnt := rfl
@[simp] theorem State.writeStatus_failBlk (s : State) (v : Word) : (s.writeStatus v).failBlk = s.failBlk := rfl
@[simp] theorem State.writeStatus_bitPos (s : State) (v : Word) : (s.writeStatus v).bitPos = s.bitPos := rfl
@[simp] theorem State.writeStatus_nChunk (s : State) (v : Word) : (s.writeStatus v).nChunk = s.nChunk := rfl
@[simp] theorem State.writeStatus_outLen (s : State) (v : Word) : (s.writeStatus v).outLen = s.outLen := rfl
@[simp] theorem State.writeStatus_erase (s : State) (v : Word) : (s.writeStatus v).erase = s.erase := rfl
@[simp] theorem State.writeStatus_mem (s : State) (v : Word) : (s.writeStatus v).mem = s.mem := rfl
@[simp] theorem State.writeStatus_rdata (s : State) (v : Word) : (s.writeStatus v).rdata = s.rdata := rfl
@[simp] theorem State.writeStatus_draws (s : State) (v : Word) : (s.writeStatus v).draws = s.draws := rfl
@[simp] theorem State.writeStatus_host (s : State) (v : Word) : (s.writeStatus v).host = s.host := rfl
@[simp] theorem State.writeStatus_busy (s : State) (v : Word) : (s.writeStatus v).busy = s.busy := rfl

/-! ## R22: a write to IRQ -/

@[simp] theorem State.writeIrq_params (s : State) (v : Word) : (s.writeIrq v).params = s.params := rfl
@[simp] theorem State.writeIrq_ready (s : State) (v : Word) : (s.writeIrq v).ready = s.ready := rfl
@[simp] theorem State.writeIrq_done (s : State) (v : Word) : (s.writeIrq v).done = s.done := rfl
@[simp] theorem State.writeIrq_err (s : State) (v : Word) : (s.writeIrq v).err = s.err := rfl
@[simp] theorem State.writeIrq_errCode (s : State) (v : Word) : (s.writeIrq v).errCode = s.errCode := rfl
@[simp] theorem State.writeIrq_overrun (s : State) (v : Word) : (s.writeIrq v).overrun = s.overrun := rfl
@[simp] theorem State.writeIrq_accViol (s : State) (v : Word) : (s.writeIrq v).accViol = s.accViol := rfl
@[simp] theorem State.writeIrq_busErr (s : State) (v : Word) : (s.writeIrq v).busErr = s.busErr := rfl
@[simp] theorem State.writeIrq_irqEn (s : State) (v : Word) : (s.writeIrq v).irqEn = v.getLsbD 0 := rfl
@[simp] theorem State.writeIrq_irqPend (s : State) (v : Word) : (s.writeIrq v).irqPend = (s.irqPend && !v.getLsbD 1) := rfl
@[simp] theorem State.writeIrq_lcmd (s : State) (v : Word) : (s.writeIrq v).lcmd = s.lcmd := rfl
@[simp] theorem State.writeIrq_seq (s : State) (v : Word) : (s.writeIrq v).seq = s.seq := rfl
@[simp] theorem State.writeIrq_stage (s : State) (v : Word) : (s.writeIrq v).stage = s.stage := rfl
@[simp] theorem State.writeIrq_parser (s : State) (v : Word) : (s.writeIrq v).parser = s.parser := rfl
@[simp] theorem State.writeIrq_gfTab (s : State) (v : Word) : (s.writeIrq v).gfTab = s.gfTab := rfl
@[simp] theorem State.writeIrq_dlen (s : State) (v : Word) : (s.writeIrq v).dlen = s.dlen := rfl
@[simp] theorem State.writeIrq_cwCount (s : State) (v : Word) : (s.writeIrq v).cwCount = s.cwCount := rfl
@[simp] theorem State.writeIrq_remBits (s : State) (v : Word) : (s.writeIrq v).remBits = s.remBits := rfl
@[simp] theorem State.writeIrq_totalCw (s : State) (v : Word) : (s.writeIrq v).totalCw = s.totalCw := rfl
@[simp] theorem State.writeIrq_nBlocks (s : State) (v : Word) : (s.writeIrq v).nBlocks = s.nBlocks := rfl
@[simp] theorem State.writeIrq_ecCount (s : State) (v : Word) : (s.writeIrq v).ecCount = s.ecCount := rfl
@[simp] theorem State.writeIrq_errCnt (s : State) (v : Word) : (s.writeIrq v).errCnt = s.errCnt := rfl
@[simp] theorem State.writeIrq_failBlk (s : State) (v : Word) : (s.writeIrq v).failBlk = s.failBlk := rfl
@[simp] theorem State.writeIrq_bitPos (s : State) (v : Word) : (s.writeIrq v).bitPos = s.bitPos := rfl
@[simp] theorem State.writeIrq_nChunk (s : State) (v : Word) : (s.writeIrq v).nChunk = s.nChunk := rfl
@[simp] theorem State.writeIrq_outLen (s : State) (v : Word) : (s.writeIrq v).outLen = s.outLen := rfl
@[simp] theorem State.writeIrq_erase (s : State) (v : Word) : (s.writeIrq v).erase = s.erase := rfl
@[simp] theorem State.writeIrq_mem (s : State) (v : Word) : (s.writeIrq v).mem = s.mem := rfl
@[simp] theorem State.writeIrq_rdata (s : State) (v : Word) : (s.writeIrq v).rdata = s.rdata := rfl
@[simp] theorem State.writeIrq_draws (s : State) (v : Word) : (s.writeIrq v).draws = s.draws := rfl
@[simp] theorem State.writeIrq_host (s : State) (v : Word) : (s.writeIrq v).host = s.host := rfl
@[simp] theorem State.writeIrq_busy (s : State) (v : Word) : (s.writeIrq v).busy = s.busy := rfl

/-! ## R53: a bus error -/

@[simp] theorem State.busError_params (s : State) (off : Nat) (b : Bool) : (s.busError off b).params = s.params := rfl
@[simp] theorem State.busError_ready (s : State) (off : Nat) (b : Bool) : (s.busError off b).ready = s.ready := rfl
@[simp] theorem State.busError_done (s : State) (off : Nat) (b : Bool) : (s.busError off b).done = s.done := rfl
@[simp] theorem State.busError_err (s : State) (off : Nat) (b : Bool) : (s.busError off b).err = s.err := rfl
@[simp] theorem State.busError_errCode (s : State) (off : Nat) (b : Bool) : (s.busError off b).errCode = s.errCode := rfl
@[simp] theorem State.busError_overrun (s : State) (off : Nat) (b : Bool) : (s.busError off b).overrun = s.overrun := rfl
@[simp] theorem State.busError_accViol (s : State) (off : Nat) (b : Bool) :
    (s.busError off b).accViol = (s.accViol || (s.busy && (regionOf off).violates b)) := rfl
@[simp] theorem State.busError_busErr (s : State) (off : Nat) (b : Bool) : (s.busError off b).busErr = true := rfl
@[simp] theorem State.busError_irqEn (s : State) (off : Nat) (b : Bool) : (s.busError off b).irqEn = s.irqEn := rfl
@[simp] theorem State.busError_irqPend (s : State) (off : Nat) (b : Bool) : (s.busError off b).irqPend = s.irqPend := rfl
@[simp] theorem State.busError_lcmd (s : State) (off : Nat) (b : Bool) : (s.busError off b).lcmd = s.lcmd := rfl
@[simp] theorem State.busError_seq (s : State) (off : Nat) (b : Bool) : (s.busError off b).seq = s.seq := rfl
@[simp] theorem State.busError_stage (s : State) (off : Nat) (b : Bool) : (s.busError off b).stage = s.stage := rfl
@[simp] theorem State.busError_parser (s : State) (off : Nat) (b : Bool) : (s.busError off b).parser = s.parser := rfl
@[simp] theorem State.busError_gfTab (s : State) (off : Nat) (b : Bool) : (s.busError off b).gfTab = s.gfTab := rfl
@[simp] theorem State.busError_dlen (s : State) (off : Nat) (b : Bool) : (s.busError off b).dlen = s.dlen := rfl
@[simp] theorem State.busError_cwCount (s : State) (off : Nat) (b : Bool) : (s.busError off b).cwCount = s.cwCount := rfl
@[simp] theorem State.busError_remBits (s : State) (off : Nat) (b : Bool) : (s.busError off b).remBits = s.remBits := rfl
@[simp] theorem State.busError_totalCw (s : State) (off : Nat) (b : Bool) : (s.busError off b).totalCw = s.totalCw := rfl
@[simp] theorem State.busError_nBlocks (s : State) (off : Nat) (b : Bool) : (s.busError off b).nBlocks = s.nBlocks := rfl
@[simp] theorem State.busError_ecCount (s : State) (off : Nat) (b : Bool) : (s.busError off b).ecCount = s.ecCount := rfl
@[simp] theorem State.busError_errCnt (s : State) (off : Nat) (b : Bool) : (s.busError off b).errCnt = s.errCnt := rfl
@[simp] theorem State.busError_failBlk (s : State) (off : Nat) (b : Bool) : (s.busError off b).failBlk = s.failBlk := rfl
@[simp] theorem State.busError_bitPos (s : State) (off : Nat) (b : Bool) : (s.busError off b).bitPos = s.bitPos := rfl
@[simp] theorem State.busError_nChunk (s : State) (off : Nat) (b : Bool) : (s.busError off b).nChunk = s.nChunk := rfl
@[simp] theorem State.busError_outLen (s : State) (off : Nat) (b : Bool) : (s.busError off b).outLen = s.outLen := rfl
@[simp] theorem State.busError_erase (s : State) (off : Nat) (b : Bool) : (s.busError off b).erase = s.erase := rfl
@[simp] theorem State.busError_mem (s : State) (off : Nat) (b : Bool) : (s.busError off b).mem = s.mem := rfl
@[simp] theorem State.busError_rdata (s : State) (off : Nat) (b : Bool) : (s.busError off b).rdata = s.rdata := rfl
@[simp] theorem State.busError_draws (s : State) (off : Nat) (b : Bool) : (s.busError off b).draws = s.draws := rfl
@[simp] theorem State.busError_host (s : State) (off : Nat) (b : Bool) : (s.busError off b).host = s.host := rfl
@[simp] theorem State.busError_busy (s : State) (off : Nat) (b : Bool) : (s.busError off b).busy = s.busy := rfl

/-! ## R36, R57: an unspecified read -/

@[simp] theorem State.drawRead_params (s : State) (w : Width) : (s.drawRead w).params = s.params := rfl
@[simp] theorem State.drawRead_ready (s : State) (w : Width) : (s.drawRead w).ready = s.ready := rfl
@[simp] theorem State.drawRead_done (s : State) (w : Width) : (s.drawRead w).done = s.done := rfl
@[simp] theorem State.drawRead_err (s : State) (w : Width) : (s.drawRead w).err = s.err := rfl
@[simp] theorem State.drawRead_errCode (s : State) (w : Width) : (s.drawRead w).errCode = s.errCode := rfl
@[simp] theorem State.drawRead_overrun (s : State) (w : Width) : (s.drawRead w).overrun = s.overrun := rfl
@[simp] theorem State.drawRead_accViol (s : State) (w : Width) : (s.drawRead w).accViol = s.accViol := rfl
@[simp] theorem State.drawRead_busErr (s : State) (w : Width) : (s.drawRead w).busErr = s.busErr := rfl
@[simp] theorem State.drawRead_irqEn (s : State) (w : Width) : (s.drawRead w).irqEn = s.irqEn := rfl
@[simp] theorem State.drawRead_irqPend (s : State) (w : Width) : (s.drawRead w).irqPend = s.irqPend := rfl
@[simp] theorem State.drawRead_lcmd (s : State) (w : Width) : (s.drawRead w).lcmd = s.lcmd := rfl
@[simp] theorem State.drawRead_seq (s : State) (w : Width) : (s.drawRead w).seq = s.seq := rfl
@[simp] theorem State.drawRead_stage (s : State) (w : Width) : (s.drawRead w).stage = s.stage := rfl
@[simp] theorem State.drawRead_parser (s : State) (w : Width) : (s.drawRead w).parser = s.parser := rfl
@[simp] theorem State.drawRead_gfTab (s : State) (w : Width) : (s.drawRead w).gfTab = s.gfTab := rfl
@[simp] theorem State.drawRead_dlen (s : State) (w : Width) : (s.drawRead w).dlen = s.dlen := rfl
@[simp] theorem State.drawRead_cwCount (s : State) (w : Width) : (s.drawRead w).cwCount = s.cwCount := rfl
@[simp] theorem State.drawRead_remBits (s : State) (w : Width) : (s.drawRead w).remBits = s.remBits := rfl
@[simp] theorem State.drawRead_totalCw (s : State) (w : Width) : (s.drawRead w).totalCw = s.totalCw := rfl
@[simp] theorem State.drawRead_nBlocks (s : State) (w : Width) : (s.drawRead w).nBlocks = s.nBlocks := rfl
@[simp] theorem State.drawRead_ecCount (s : State) (w : Width) : (s.drawRead w).ecCount = s.ecCount := rfl
@[simp] theorem State.drawRead_errCnt (s : State) (w : Width) : (s.drawRead w).errCnt = s.errCnt := rfl
@[simp] theorem State.drawRead_failBlk (s : State) (w : Width) : (s.drawRead w).failBlk = s.failBlk := rfl
@[simp] theorem State.drawRead_bitPos (s : State) (w : Width) : (s.drawRead w).bitPos = s.bitPos := rfl
@[simp] theorem State.drawRead_nChunk (s : State) (w : Width) : (s.drawRead w).nChunk = s.nChunk := rfl
@[simp] theorem State.drawRead_outLen (s : State) (w : Width) : (s.drawRead w).outLen = s.outLen := rfl
@[simp] theorem State.drawRead_erase (s : State) (w : Width) : (s.drawRead w).erase = s.erase := rfl
@[simp] theorem State.drawRead_mem (s : State) (w : Width) : (s.drawRead w).mem = s.mem := rfl
@[simp] theorem State.drawRead_rdata (s : State) (w : Width) :
    (s.drawRead w).rdata = w.clip (Config.unspecifiedWord s.draws) := rfl
@[simp] theorem State.drawRead_draws (s : State) (w : Width) : (s.drawRead w).draws = s.draws + 1 := rfl
@[simp] theorem State.drawRead_host (s : State) (w : Width) : (s.drawRead w).host = s.host := rfl
@[simp] theorem State.drawRead_busy (s : State) (w : Width) : (s.drawRead w).busy = s.busy := rfl

end Sys2Proof.Machine
end

