-- ==== Sys2Proof/Laws/Ops.lean ====
section
/-! SUPPORT. For each shared operation, once, everything it can do. -/

namespace Sys2Proof.Machine

/-! ## The checks of a command, R157 -/

theorem State.whenReady_cases {s t : State} {k : Result} (h : s.whenReady k = .next t) :
    (s.ready = false ∧ t = s.complete .notReady) ∨ (s.ready = true ∧ k = .next t) := by
  unfold State.whenReady at h
  split at h
  · exact .inr ⟨by assumption, h⟩
  · cases h; exact .inl ⟨by simpa using ‹¬ s.ready = true›, rfl⟩

theorem State.whenParam_cases {s t : State} {c : Bool} {k : Result} (h : s.whenParam c k = .next t) :
    (c = false ∧ t = s.complete .param) ∨ (c = true ∧ k = .next t) := by
  unfold State.whenParam at h
  split at h
  · exact .inr ⟨by assumption, h⟩
  · cases h; exact .inl ⟨by simpa using ‹¬ c = true›, rfl⟩

theorem State.withRecord_cases {s t : State} {ver : BitVec 6} {k : VersionRecord → Result}
    (h : s.withRecord ver k = .next t) : ∃ r, s.params.record? ver = some r ∧ k r = .next t := by
  unfold State.withRecord at h
  split at h
  · exact ⟨_, by assumption, h⟩
  · cases h

theorem State.withEntry_cases {s t : State} {ver : BitVec 6} {ecl : BitVec 2} {k : EcEntry → Result}
    (h : s.withEntry ver ecl k = .next t) : ∃ e, s.params.entry? ver ecl = some e ∧ k e = .next t := by
  unfold State.withEntry at h
  split at h
  · exact ⟨_, by assumption, h⟩
  · cases h

@[simp] theorem State.whenReady_ready {s : State} (k : Result) (h : s.ready = true) : s.whenReady k = k := by
  simp [State.whenReady, h]

@[simp] theorem State.whenReady_notReady {s : State} (k : Result) (h : s.ready = false) :
    s.whenReady k = .next (s.complete .notReady) := by simp [State.whenReady, h]

@[simp] theorem State.whenParam_true (s : State) (k : Result) : s.whenParam true k = k := rfl

@[simp] theorem State.whenParam_false (s : State) (k : Result) : s.whenParam false k = .next (s.complete .param) := rfl

theorem State.withRecord_some {s : State} {ver : BitVec 6} {r : VersionRecord} (k : VersionRecord → Result)
    (h : s.params.record? ver = some r) : s.withRecord ver k = k r := by simp [State.withRecord, h]

theorem State.withEntry_some {s : State} {ver : BitVec 6} {ecl : BitVec 2} {e : EcEntry} (k : EcEntry → Result)
    (h : s.params.entry? ver ecl = some e) : s.withEntry ver ecl k = k e := by simp [State.withEntry, h]

/-- An admitted entry is the table's, and meets R111 (a), (c), (d). -/
theorem entry?_some {p : Params} {ver : BitVec 6} {ecl : BitVec 2} {e : EcEntry} (h : p.entry? ver ecl = some e) :
    ∃ r, p.record? ver = some r ∧ r.level ecl = e ∧ e.ok = true := by
  unfold Params.entry? at h
  split at h
  · rename_i r hr
    split at h
    · cases h; exact ⟨r, hr, rfl, by assumption⟩
    · cases h
  · cases h

/-- R111 (c), (d): what an admitted entry is known to meet. -/
theorem EcEntry.ok_bounds {e : EcEntry} (h : e.ok = true) :
    e.blocks.length ≤ 81 ∧ e.total ≤ 4096 ∧ e.blocks.sum ≤ 4096 := by
  simp only [EcEntry.ok, Bool.and_eq_true, decide_eq_true_eq] at h
  exact ⟨h.1.1.2, h.1.2, h.2⟩

theorem EcEntry.ok_block {e : EcEntry} (h : e.ok = true) : ∀ nd ∈ e.blocks, 1 ≤ nd ∧ nd + e.ecPerBlock ≤ 255 := by
  simp only [EcEntry.ok, Bool.and_eq_true, decide_eq_true_eq, List.all_eq_true] at h
  intro nd hnd
  obtain ⟨g, hg, hr⟩ := List.mem_flatMap.1 hnd
  obtain ⟨_, rfl⟩ := List.mem_replicate.1 hr
  have := h.1.1.1.2 g hg
  omega

/-- R111 (a): an admitted entry has a block. -/
theorem EcEntry.ok_pos {e : EcEntry} (h : e.ok = true) : 0 < e.blocks.length := by
  simp only [EcEntry.ok, Bool.and_eq_true, Bool.or_eq_true, decide_eq_true_eq, List.all_eq_true, beq_iff_eq] at h
  obtain ⟨⟨⟨⟨hl, hg⟩, _⟩, _⟩, _⟩ := h
  unfold EcEntry.blocks
  cases hgs : e.groups with
  | nil => simp [hgs] at hl
  | cons g gs =>
    have := hg g (by simp [hgs])
    simp only [List.flatMap_cons, List.length_append, List.length_replicate]
    omega

/-! ## Reading fields, R140, R141 -/

/-- The bits of a list of fields. -/
def fieldsWidth (fs : List Field) : Nat := (fs.map (·.width)).sum

@[simp] theorem fieldsWidth_nil : fieldsWidth [] = 0 := rfl
@[simp] theorem fieldsWidth_cons (f : Field) (fs : List Field) : fieldsWidth (f :: fs) = f.width + fieldsWidth fs := by
  simp [fieldsWidth]
@[simp] theorem fieldsWidth_append (fs gs : List Field) : fieldsWidth (fs ++ gs) = fieldsWidth fs + fieldsWidth gs := by
  simp [fieldsWidth]

/-- Fields that fit and are in range are read whole. -/
theorem readFields_fits {limit : Nat} {bad : ErrorCode} : ∀ {fs : List Field} {pos : Nat},
    pos + fieldsWidth fs ≤ limit → (∀ f ∈ fs, f.inRange = true) →
    readFields limit bad pos fs = .ok (pos + fieldsWidth fs) (fs.flatMap (·.out))
  | [], pos, _, _ => rfl
  | f :: fs, pos, hw, hr => by
    simp only [fieldsWidth_cons] at hw
    have h1 := hr f (List.mem_cons_self ..)
    have ih := readFields_fits (limit := limit) (bad := bad) (fs := fs) (pos := pos + f.width) (by omega)
      fun g hg => hr g (List.mem_cons_of_mem _ hg)
    rw [readFields, if_neg (by omega), if_pos h1, ih]
    simp [Nat.add_assoc]

/-- What reading gives when it gives a position: every field lay in the stream and in its range. -/
theorem readFields_ok {limit : Nat} {bad : ErrorCode} : ∀ {fs : List Field} {pos p : Nat} {out : List Byte},
    readFields limit bad pos fs = .ok p out →
    p = pos + fieldsWidth fs ∧ out = fs.flatMap (·.out) ∧ (fs = [] ∨ p ≤ limit) ∧ ∀ f ∈ fs, f.inRange = true
  | [], pos, p, out, h => by cases h; simp
  | f :: fs, pos, p, out, h => by
    rw [readFields] at h
    split at h
    · cases h
    · split at h
      · rename_i hfit hin
        split at h
        · rename_i p' out' hrec
          cases h
          obtain ⟨h1, h2, h3, h4⟩ := readFields_ok hrec
          refine ⟨by simp only [fieldsWidth_cons]; omega, by simp [h2], .inr ?_, ?_⟩
          · rcases h3 with rfl | h3
            · simp only [fieldsWidth_nil] at h1; omega
            · exact h3
          · intro g hg
            rcases List.mem_cons.1 hg with rfl | hg
            · exact hin
            · exact h4 g hg
        · cases h
      · cases h

/-- What reading gives when it stops: the fields before the one at fault were read, and that one runs past the stream or is
out of range. -/
theorem readFields_stop {limit : Nat} {bad : ErrorCode} : ∀ {fs : List Field} {pos p : Nat} {code : ErrorCode},
    readFields limit bad pos fs = .stop code p →
    ∃ pre f post, fs = pre ++ f :: post ∧ p = pos + fieldsWidth pre ∧ (∀ g ∈ pre, g.inRange = true) ∧ (pre = [] ∨ p ≤ limit) ∧
      ((code = .streamUnderrun ∧ limit < p + f.width) ∨ (code = bad ∧ p + f.width ≤ limit ∧ f.inRange = false))
  | [], pos, p, code, h => by cases h
  | f :: fs, pos, p, code, h => by
    rw [readFields] at h
    split at h
    · cases h
      exact ⟨[], f, fs, rfl, by simp, by simp, .inl rfl, .inl ⟨rfl, by assumption⟩⟩
    · rename_i hfit
      split at h
      · rename_i hin
        split at h
        · cases h
        · rename_i code' p' hrec
          cases h
          obtain ⟨pre, g, post, h1, h2, h3, h4, h5⟩ := readFields_stop hrec
          refine ⟨f :: pre, g, post, by simp [h1], by simp only [fieldsWidth_cons]; omega, ?_, .inr ?_, h5⟩
          · intro x hx
            rcases List.mem_cons.1 hx with rfl | hx
            · exact hin
            · exact h3 x hx
          · rcases h4 with rfl | h4
            · simp only [fieldsWidth_nil] at h2; omega
            · exact h4
      · cases h
        exact ⟨[], f, fs, rfl, by simp, by simp, .inl rfl, .inr ⟨rfl, by omega, by simpa using ‹¬ f.inRange = true›⟩⟩

/-- A field that runs past the stream, after fields that are read, ends the reading there. -/
theorem readFields_underrun {limit : Nat} {bad : ErrorCode} : ∀ {pre : List Field} {f : Field} {post : List Field} {pos : Nat},
    (∀ g ∈ pre, g.inRange = true) → pos + fieldsWidth pre ≤ limit → limit < pos + fieldsWidth pre + f.width →
    readFields limit bad pos (pre ++ f :: post) = .stop .streamUnderrun (pos + fieldsWidth pre)
  | [], f, post, pos, _, _, h => by
    simp only [fieldsWidth_nil, Nat.add_zero] at h
    rw [List.nil_append, readFields, if_pos (by omega)]; rfl
  | g :: pre, f, post, pos, hr, hle, h => by
    simp only [fieldsWidth_cons] at hle h
    rw [List.cons_append, readFields, if_neg (by omega), if_pos (hr g (List.mem_cons_self ..)),
      readFields_underrun (fun x hx => hr x (List.mem_cons_of_mem _ hx)) (by omega) (by omega)]
    simp [Nat.add_assoc]

/-- A value out of range, after fields that are read, ends the reading there. -/
theorem readFields_range {limit : Nat} {bad : ErrorCode} : ∀ {pre : List Field} {f : Field} {post : List Field} {pos : Nat},
    (∀ g ∈ pre, g.inRange = true) → pos + fieldsWidth pre + f.width ≤ limit → f.inRange = false →
    readFields limit bad pos (pre ++ f :: post) = .stop bad (pos + fieldsWidth pre)
  | [], f, post, pos, _, h, hf => by
    simp only [fieldsWidth_nil, Nat.add_zero] at h
    rw [List.nil_append, readFields, if_neg (by omega), if_neg (by simp [hf])]; rfl
  | g :: pre, f, post, pos, hr, h, hf => by
    simp only [fieldsWidth_cons] at h
    rw [List.cons_append, readFields, if_neg (by omega), if_pos (hr g (List.mem_cons_self ..)),
      readFields_range (fun x hx => hr x (List.mem_cons_of_mem _ hx)) (by omega) hf]
    simp [Nat.add_assoc]

/-! ## Emitting and ending a parse, R152, R153 -/

/-- R152: what emitting does: one of the two capacities is exceeded and the parse ends at the mode indicator, or the bytes and
the record are written and the parse goes on. -/
theorem State.emit_cases (s : State) (typ : BitVec 4) (out : List Byte) (w1 w2 w3 : Word) (next : Nat) :
    ((outCap < s.parser.outLen + out.length ∨ chunkCap < s.parser.nChunk + 1) ∧
      s.emit typ out w1 w2 w3 next = s.endParse .outOverflow s.parser.pos) ∨
    (s.parser.outLen + out.length ≤ outCap ∧ s.parser.nChunk + 1 ≤ chunkCap ∧
      s.emit typ out w1 w2 w3 next = { s with
        mem := (s.mem.writeBytes (outRam + s.parser.outLen) out).writeBytes (chunkRam + 16 * s.parser.nChunk)
          (recordBytes (chunkWord0 typ s.parser.pos) w1 w2 w3)
        parser := { s.parser with
          pos := next, outLen := s.parser.outLen + out.length, nChunk := s.parser.nChunk + 1 } }) := by
  unfold State.emit
  split
  · exact .inl ⟨.inl (by omega), rfl⟩
  · split
    · exact .inl ⟨.inr (by omega), rfl⟩
    · exact .inr ⟨by omega, by omega, rfl⟩

/-- R86, R152: what a segment of bytes does. -/
theorem State.bytesSegment_cases (s : State) (typ : BitVec 4) (bad : ErrorCode) (fs : List Field) (count : Nat) :
    (∃ code p, readFields s.streamEnd bad s.parser.pos fs = .stop code p ∧ s.bytesSegment typ bad fs count = s.endParse code p) ∨
    (∃ p out, readFields s.streamEnd bad s.parser.pos fs = .ok p out ∧
      s.bytesSegment typ bad fs count = s.emit typ out (word14 s.parser.outLen) (word14 out.length) (word14 count) p) := by
  unfold State.bytesSegment
  split
  · exact .inl ⟨_, _, by assumption, rfl⟩
  · exact .inr ⟨_, _, by assumption, rfl⟩

/-- R86, R152: what a segment of header fields does. -/
theorem State.headerSegment_cases (s : State) (typ : BitVec 4) (fs : List Field) (w1 : Word) :
    (∃ code p, readFields s.streamEnd .streamUnderrun s.parser.pos fs = .stop code p ∧
      s.headerSegment typ fs w1 = s.endParse code p) ∨
    (∃ p out, readFields s.streamEnd .streamUnderrun s.parser.pos fs = .ok p out ∧
      s.headerSegment typ fs w1 = s.emit typ [] w1 0 0 p) := by
  unfold State.headerSegment
  split
  · exact .inl ⟨_, _, by assumption, rfl⟩
  · exact .inr ⟨_, _, by assumption, rfl⟩

/-- R150: what an unlisted mode indicator does. -/
theorem State.unlistedMode_cases (s : State) :
    (s.streamEnd < s.parser.pos + 4 ∧ s.unlistedMode = s.endParse .streamUnderrun s.parser.pos) ∨
    (s.parser.pos + 4 ≤ s.streamEnd ∧ s.params.unknownMode = .skip ∧
      s.unlistedMode = { s with parser := { s.parser with pos := s.parser.pos + 4 } }) ∨
    (s.parser.pos + 4 ≤ s.streamEnd ∧ s.params.unknownMode = .fail ∧
      s.unlistedMode = s.endParse .streamUnknownMode s.parser.pos) := by
  by_cases h : s.parser.pos + 4 ≤ s.streamEnd
  · have hr := readFields_fits (limit := s.streamEnd) (bad := .streamUnderrun) (fs := [.plain 4]) (pos := s.parser.pos)
      (by simpa [Field.plain] using h) (by simp [Field.plain])
    unfold State.unlistedMode
    rw [hr]
    cases hu : s.params.unknownMode with
    | skip => exact .inr (.inl ⟨h, rfl, by simp [Field.plain]⟩)
    | fail => exact .inr (.inr ⟨h, rfl, rfl⟩)
  · refine .inl ⟨by omega, ?_⟩
    unfold State.unlistedMode
    rw [readFields, if_pos (by simp only [Field.plain]; omega)]

/-- R151: what the loop's exit does. -/
theorem State.parseExit_cases (s : State) :
    s.parseExit = s.endParse .ok s.streamEnd ∨ s.parseExit = s.endParse .streamTrailing s.parser.pos := by
  unfold State.parseExit
  split
  · exact .inl rfl
  · split
    · exact .inl rfl
    · exact .inr rfl

/-! ## Host accesses -/

/-- What a host write can change: the buffers, the registers a host writes, the flags, and, by a command issue, the fields R156
lists. -/
theorem State.hostWrite_frame (s : State) (off : Nat) (w : Width) (v : Word) :
    (s.hostWrite off w v).params = s.params ∧ (s.hostWrite off w v).ready = s.ready ∧
    (s.hostWrite off w v).gfTab = s.gfTab ∧ (s.hostWrite off w v).host = s.host ∧
    (s.hostWrite off w v).draws = s.draws ∧ (s.hostWrite off w v).rdata = s.rdata := by
  unfold State.hostWrite
  split
  · split
    · unfold State.writeReg State.writeStatus State.writeIrq State.accept
      split <;> first | simp | (split <;> simp)
    · simp
    · split <;> simp
    · simp
  · simp

/-- R52: what a host read can change: the bus response, ACCVIOL, BUSERR and the count of draws. -/
theorem State.hostRead_frame (s : State) (off : Nat) (w : Width) :
    s.hostRead off w = { s with
      rdata := (s.hostRead off w).rdata, accViol := (s.hostRead off w).accViol, busErr := (s.hostRead off w).busErr,
      draws := (s.hostRead off w).draws } := by
  unfold State.hostRead
  split
  · split
    · split <;> rfl
    · rfl
    · split <;> rfl
    · split <;> rfl
  · rfl

end Sys2Proof.Machine
end

