-- ==== Sys2Proof/Laws/Parser.lean ====
section
/-! SUPPORT. What emitting a segment and ending a parse leave, in the terms of Safety.lean: `Emitted` and `ParseEnded`. -/

namespace Sys2Proof.Machine

theorem State.streamEnd_le (s : State) : s.streamEnd ≤ 65528 := by unfold State.streamEnd; omega

/-- R153: what ending a parse leaves. -/
theorem State.endParse_ended {s : State} (hs : s.ParserOk) (code : ErrorCode) {p : Nat} (hp : p ≤ s.streamEnd) :
    ParseEnded s (s.endParse code p) code p := by
  have h0 := s.streamEnd_le
  have ho := hs.out
  have hc := hs.chunks
  unfold outCap at ho
  unfold chunkCap at hc
  refine ⟨⟨rfl, by simp, rfl, rfl, rfl⟩, ?_, ?_, ?_, ?_, rfl⟩
  · simp only [State.endParse_bitPos, BitVec.toNat_ofNat]; omega
  · simp only [State.endParse_nChunk, BitVec.toNat_ofNat]; omega
  · simp only [State.endParse_outLen, BitVec.toNat_ofNat]; omega
  · exact fun _ _ => rfl

/-- R50: the four bytes of a word make its number. -/
theorem bytesOfWord_toNat (w : Word) :
    ((bytesOfWord w).getD 0 0).toNat + 2 ^ 8 * ((bytesOfWord w).getD 1 0).toNat + 2 ^ 16 * ((bytesOfWord w).getD 2 0).toNat
      + 2 ^ 24 * ((bytesOfWord w).getD 3 0).toNat = w.toNat := by
  have := w.isLt
  simp only [bytesOfWord, List.getD, List.getElem?_cons_succ, List.getElem?_cons_zero, Option.getD_some,
    BitVec.extractLsb'_toNat, Nat.shiftRight_eq_div_pow]
  omega

/-- A word read back from where it was written. -/
theorem Memory.word_writeBytes (m : Memory) (a : Nat) (pre rest : List Byte) (w : Word) :
    (m.writeBytes a (pre ++ bytesOfWord w ++ rest)).word (a + pre.length) = w.toNat := by
  have hr : ∀ k < 4, (m.writeBytes a (pre ++ bytesOfWord w ++ rest)).read (a + pre.length + k) = (bytesOfWord w).getD k 0 := by
    intro k hk
    have hl : (bytesOfWord w).length = 4 := rfl
    rw [Memory.read_writeBytes, if_pos (by simp only [List.length_append, hl]; omega),
      show a + pre.length + k - a = pre.length + k by omega]
    simp only [List.getD, List.append_assoc]
    rw [List.getElem?_append_right (by omega), List.getElem?_append_left (by rw [hl]; omega)]
    simp
  have h0 := hr 0 (by omega)
  rw [Nat.add_zero] at h0
  rw [Memory.word, h0, hr 1 (by omega), hr 2 (by omega), hr 3 (by omega), bytesOfWord_toNat]

theorem recordBytes_eq (w0 w1 w2 w3 : Word) :
    recordBytes w0 w1 w2 w3 = bytesOfWord w0 ++ (bytesOfWord w1 ++ (bytesOfWord w2 ++ bytesOfWord w3)) := by
  simp [recordBytes]

theorem recordBytes_length (w0 w1 w2 w3 : Word) : (recordBytes w0 w1 w2 w3).length = 16 := by
  simp [recordBytes_eq, bytesOfWord]

/-- The four words of a record read back from where it was written. -/
theorem Memory.word_record (m : Memory) (a : Nat) (w0 w1 w2 w3 : Word) :
    (m.writeBytes a (recordBytes w0 w1 w2 w3)).word a = w0.toNat ∧
    (m.writeBytes a (recordBytes w0 w1 w2 w3)).word (a + 4) = w1.toNat ∧
    (m.writeBytes a (recordBytes w0 w1 w2 w3)).word (a + 8) = w2.toNat ∧
    (m.writeBytes a (recordBytes w0 w1 w2 w3)).word (a + 12) = w3.toNat := by
  have h0 := Memory.word_writeBytes m a [] (bytesOfWord w1 ++ (bytesOfWord w2 ++ bytesOfWord w3)) w0
  have h1 := Memory.word_writeBytes m a (bytesOfWord w0) (bytesOfWord w2 ++ bytesOfWord w3) w1
  have h2 := Memory.word_writeBytes m a (bytesOfWord w0 ++ bytesOfWord w1) (bytesOfWord w3) w2
  have h3 := Memory.word_writeBytes m a (bytesOfWord w0 ++ bytesOfWord w1 ++ bytesOfWord w2) [] w3
  have hl : ∀ w, (bytesOfWord w).length = 4 := fun _ => rfl
  simp only [List.nil_append, List.append_nil, List.append_assoc, List.length_append, List.length_nil, hl, Nat.add_zero,
    Nat.reduceAdd] at h0 h1 h2 h3
  rw [recordBytes_eq]
  exact ⟨h0, h1, h2, h3⟩

/-- R85: W0 as a number. -/
theorem chunkWord0_toNat (typ : BitVec 4) {sbit : Nat} (h : sbit < 2 ^ 16) :
    (chunkWord0 typ sbit).toNat = typ.toNat + 2 ^ 8 * sbit := by
  have ht := typ.isLt
  have h0 : ∀ k, (0 : BitVec k).toNat = 0 := fun k => BitVec.toNat_ofNat ..
  simp only [chunkWord0, BitVec.toNat_append, BitVec.toNat_ofNat, h0, Nat.mod_eq_of_lt h, Nat.zero_shiftLeft, Nat.zero_or,
    Nat.or_zero]
  rw [← Nat.shiftLeft_add_eq_or_of_lt (by omega)]
  simp only [Nat.shiftLeft_eq]
  omega

/-- R86: a 14-bit field as a number. -/
theorem word14_toNat {n : Nat} (h : n < 2 ^ 14) : (word14 n).toNat = n := by
  have h0 : ∀ k, (0 : BitVec k).toNat = 0 := fun k => BitVec.toNat_ofNat ..
  simp only [word14, BitVec.toNat_append, BitVec.toNat_ofNat, h0, Nat.mod_eq_of_lt h, Nat.zero_shiftLeft, Nat.zero_or]

/-- R152: what emitting a segment that fits leaves. -/
theorem State.emit_emitted {s : State} (typ : BitVec 4) (out : List Byte) (w1 w2 w3 : Word) {bits : Nat}
    (hf : s.Fits bits out.length) :
    Emitted s (s.emit typ out w1 w2 w3 (s.parser.pos + bits)) typ.toNat out w1.toNat w2.toNat w3.toNat bits := by
  have hd := s.streamEnd_le
  have h1 := hf.stream
  have h2 := hf.out
  have h3 := hf.chunks
  rcases s.emit_cases typ out w1 w2 w3 (s.parser.pos + bits) with ⟨h | h, _⟩ | ⟨-, -, h⟩
  · omega
  · omega
  · rw [h]
    obtain ⟨r0, r1, r2, r3⟩ := Memory.word_record (s.mem.writeBytes (outRam + s.parser.outLen) out)
      (chunkRam + 16 * s.parser.nChunk) (chunkWord0 typ s.parser.pos) w1 w2 w3
    refine ⟨?_, r0.trans (chunkWord0_toNat typ (by omega)), r1, r2, r3, rfl, ?_, rfl⟩
    · refine List.ext_getElem (by simp) fun i hi1 hi2 => ?_
      simp only [Memory.readBytes_length] at hi1
      rw [Memory.readBytes_getElem, Memory.read_writeBytes_other _ (by unfold outRam chunkRam outCap at *; omega),
        Memory.read_writeBytes, if_pos (by omega)]
      simp [List.getD, hi2]
    · intro a ha
      simp only [Within, not_or, not_and, not_lt] at ha
      rw [Memory.read_writeBytes_other _ (by rw [recordBytes_length]; omega), Memory.read_writeBytes_other _ (by omega)]

/-! ## A segment of bytes, R86, R144 to R147 -/

/-- A segment of bytes that fits and is in range is emitted. -/
theorem State.bytesSegment_emitted {s : State} (typ : BitVec 4) (bad : ErrorCode) {fs : List Field} {count : Nat}
    (hr : ∀ f ∈ fs, f.inRange = true) (hc : count < 2 ^ 14)
    (hf : s.Fits (fieldsWidth fs) (fs.flatMap (·.out)).length) :
    Emitted s (s.bytesSegment typ bad fs count) typ.toNat (fs.flatMap (·.out)) s.parser.outLen (fs.flatMap (·.out)).length
      count (fieldsWidth fs) := by
  have h2 := hf.out
  unfold outCap at h2
  unfold State.bytesSegment
  rw [readFields_fits hf.stream hr]
  have h := State.emit_emitted typ (fs.flatMap (·.out)) (word14 s.parser.outLen) (word14 (fs.flatMap (·.out)).length)
    (word14 count) hf
  rwa [word14_toNat (by omega), word14_toNat (by omega), word14_toNat hc] at h

/-- R141: a field of a segment of bytes runs past the end of the stream. -/
theorem State.bytesSegment_underrun {s : State} (hs : s.ParserOk) (typ : BitVec 4) (bad : ErrorCode) {pre post : List Field}
    {f : Field} {count : Nat} (hr : ∀ g ∈ pre, g.inRange = true) (h1 : s.parser.pos + fieldsWidth pre ≤ s.streamEnd)
    (h2 : s.streamEnd < s.parser.pos + fieldsWidth pre + f.width) :
    ParseEnded s (s.bytesSegment typ bad (pre ++ f :: post) count) .streamUnderrun (s.parser.pos + fieldsWidth pre) := by
  unfold State.bytesSegment
  rw [readFields_underrun hr h1 h2]
  exact State.endParse_ended hs _ h1

/-- R144, R145: a value of a segment of bytes is out of range. -/
theorem State.bytesSegment_range {s : State} (hs : s.ParserOk) (typ : BitVec 4) (bad : ErrorCode) {pre post : List Field}
    {f : Field} {count : Nat} (hr : ∀ g ∈ pre, g.inRange = true) (h : s.parser.pos + fieldsWidth pre + f.width ≤ s.streamEnd)
    (hf : f.inRange = false) :
    ParseEnded s (s.bytesSegment typ bad (pre ++ f :: post) count) bad (s.parser.pos + fieldsWidth pre) := by
  unfold State.bytesSegment
  rw [readFields_range hr h hf]
  exact State.endParse_ended hs _ (by omega)

/-- R152: a segment of bytes the stream holds but the buffers have no room for. -/
theorem State.bytesSegment_overflow {s : State} (hs : s.ParserOk) (typ : BitVec 4) (bad : ErrorCode) {fs : List Field}
    {count : Nat} (hr : ∀ f ∈ fs, f.inRange = true) (h : s.parser.pos + fieldsWidth fs ≤ s.streamEnd)
    (hc : outCap < s.parser.outLen + (fs.flatMap (·.out)).length ∨ chunkCap < s.parser.nChunk + 1) :
    ParseEnded s (s.bytesSegment typ bad fs count) .outOverflow s.parser.pos := by
  unfold State.bytesSegment
  rw [readFields_fits h hr]
  rcases s.emit_cases typ (fs.flatMap (·.out)) (word14 s.parser.outLen) (word14 (fs.flatMap (·.out)).length) (word14 count)
    (s.parser.pos + fieldsWidth fs) with ⟨-, he⟩ | ⟨h1, h2, -⟩
  · simp only [he]; exact State.endParse_ended hs _ hs.pos
  · omega

/-! ## A segment of header fields, R86, R148, R149 -/

/-- A segment of header fields that fits is emitted. -/
theorem State.headerSegment_emitted {s : State} (typ : BitVec 4) {fs : List Field} (w1 : Word)
    (hr : ∀ f ∈ fs, f.inRange = true) (hf : s.Fits (fieldsWidth fs) 0) :
    Emitted s (s.headerSegment typ fs w1) typ.toNat [] w1.toNat 0 0 (fieldsWidth fs) := by
  unfold State.headerSegment
  rw [readFields_fits hf.stream hr]
  exact State.emit_emitted typ [] w1 0 0 hf

/-- R141: a field of a segment of header fields runs past the end of the stream. -/
theorem State.headerSegment_underrun {s : State} (hs : s.ParserOk) (typ : BitVec 4) {pre post : List Field} {f : Field}
    {w1 : Word} (hr : ∀ g ∈ pre, g.inRange = true) (h1 : s.parser.pos + fieldsWidth pre ≤ s.streamEnd)
    (h2 : s.streamEnd < s.parser.pos + fieldsWidth pre + f.width) :
    ParseEnded s (s.headerSegment typ (pre ++ f :: post) w1) .streamUnderrun (s.parser.pos + fieldsWidth pre) := by
  unfold State.headerSegment
  rw [readFields_underrun hr h1 h2]
  exact State.endParse_ended hs _ h1

/-- R152: a segment of header fields the stream holds but CHUNK_RAM has no room for. -/
theorem State.headerSegment_overflow {s : State} (hs : s.ParserOk) (typ : BitVec 4) {fs : List Field} {w1 : Word}
    (hr : ∀ f ∈ fs, f.inRange = true) (h : s.parser.pos + fieldsWidth fs ≤ s.streamEnd)
    (hc : outCap < s.parser.outLen ∨ chunkCap < s.parser.nChunk + 1) :
    ParseEnded s (s.headerSegment typ fs w1) .outOverflow s.parser.pos := by
  unfold State.headerSegment
  rw [readFields_fits h hr]
  rcases s.emit_cases typ [] w1 0 0 (s.parser.pos + fieldsWidth fs) with ⟨-, he⟩ | ⟨h1, h2, -⟩
  · simp only [he]; exact State.endParse_ended hs _ hs.pos
  · simp only [List.length_nil] at h1; omega

end Sys2Proof.Machine
end

