-- ==== Sys2Proof/Laws/PerInstr.lean ====
section
/-! SUPPORT. Statements about every instruction, one lemma per constructor: the encoding bears the opcode of its table row. -/

namespace Sys2Proof.Laws.Opcode

/-- What spec/opcode_table.json asks of the row's fixed bits: OP and RSV of a command word (R64, R68), the mode indicator of a
segment (R73). -/
inductive Row
  | command (op : BitVec 4) (rsv : Bool)
  | mode (m : Nat)

/-- The row of each instruction. -/
def row : Instr → Row
  | .nop => .command 0x0 false
  | .extract _ _ => .command 0x1 false
  | .deinterleave _ _ => .command 0x2 false
  | .rsDecode _ _ => .command 0x3 false
  | .rsDecodeAll _ _ => .command 0x4 false
  | .parse _ => .command 0x5 false
  | .decode _ _ _ => .command 0x6 false
  | .rsEncode _ _ => .command 0x7 false
  | .rsFill _ _ => .command 0x8 false
  | .init => .command 0xF false
  | .reservedOp9 => .command 0x9 false
  | .reservedOpA => .command 0xA false
  | .reservedOpB => .command 0xB false
  | .reservedOpC => .command 0xC false
  | .reservedOpD => .command 0xD false
  | .reservedOpE => .command 0xE false
  | .illegalRsv op => .command op true
  | .term => .mode 0x0
  | .num _ _ => .mode 0x1
  | .alnum _ _ => .mode 0x2
  | .sa _ _ _ => .mode 0x3
  | .byte _ => .mode 0x4
  | .kanji _ => .mode 0x8
  | .eci7 _ => .mode 0x7
  | .eci14 _ => .mode 0x7
  | .eci21 _ => .mode 0x7
  | .eciCorrupt => .mode 0x7
  | .unlisted5 => .mode 0x5
  | .unlisted6 => .mode 0x6
  | .unlisted9 => .mode 0x9
  | .unlistedA => .mode 0xA
  | .unlistedB => .mode 0xB
  | .unlistedC => .mode 0xC
  | .unlistedD => .mode 0xD
  | .unlistedE => .mode 0xE
  | .unlistedF => .mode 0xF

/-- The code has the row's fixed bits. -/
def Bears : Code → Row → Prop
  | .command w, .command op rsv => w.extractLsb' 0 4 = op ∧ w.getLsbD 15 = rsv
  | .segment bits, .mode m => bits.take 4 = natBits 4 m
  | .command _, .mode _ => False
  | .segment _, .command _ _ => False

/-- The encoding of an instruction bears the fixed bits of its table row. -/
def Statement (i : Instr) : Prop := ∀ sc, Bears (encode sc i) (row i)

theorem commandWord_op (op : BitVec 4) (ver : BitVec 6) (ecl : BitVec 2) (mask : BitVec 3) (rsv : BitVec 1) (n nec : BitVec 8) :
    (commandWord op ver ecl mask rsv n nec).extractLsb' 0 4 = op := by
  refine BitVec.eq_of_getLsbD_eq fun i hi => ?_
  rw [BitVec.getLsbD_extractLsb', commandWord, BitVec.getLsbD_append, decide_eq_true hi, Bool.true_and, Nat.zero_add, if_pos hi]

theorem commandWord_rsv (op : BitVec 4) (ver : BitVec 6) (ecl : BitVec 2) (mask : BitVec 3) (rsv : BitVec 1) (n nec : BitVec 8) :
    (commandWord op ver ecl mask rsv n nec).getLsbD 15 = rsv.getLsbD 0 := by
  simp only [commandWord, BitVec.getLsbD_append]
  rfl

theorem nop : Statement .nop := fun _ => ⟨commandWord_op .., commandWord_rsv ..⟩
theorem extract (ver : BitVec 6) (mask : BitVec 3) : Statement (.extract ver mask) := fun _ => ⟨commandWord_op .., commandWord_rsv ..⟩
theorem deinterleave (ver : BitVec 6) (ecl : BitVec 2) : Statement (.deinterleave ver ecl) := fun _ => ⟨commandWord_op .., commandWord_rsv ..⟩
theorem rsDecode (n nec : BitVec 8) : Statement (.rsDecode n nec) := fun _ => ⟨commandWord_op .., commandWord_rsv ..⟩
theorem rsDecodeAll (ver : BitVec 6) (ecl : BitVec 2) : Statement (.rsDecodeAll ver ecl) := fun _ => ⟨commandWord_op .., commandWord_rsv ..⟩
theorem parse (ver : BitVec 6) : Statement (.parse ver) := fun _ => ⟨commandWord_op .., commandWord_rsv ..⟩
theorem decode (ver : BitVec 6) (ecl : BitVec 2) (mask : BitVec 3) : Statement (.decode ver ecl mask) := fun _ => ⟨commandWord_op .., commandWord_rsv ..⟩
theorem rsEncode (n nec : BitVec 8) : Statement (.rsEncode n nec) := fun _ => ⟨commandWord_op .., commandWord_rsv ..⟩
theorem rsFill (n nec : BitVec 8) : Statement (.rsFill n nec) := fun _ => ⟨commandWord_op .., commandWord_rsv ..⟩
theorem init : Statement .init := fun _ => ⟨commandWord_op .., commandWord_rsv ..⟩
theorem reservedOp9 : Statement .reservedOp9 := fun _ => ⟨commandWord_op .., commandWord_rsv ..⟩
theorem reservedOpA : Statement .reservedOpA := fun _ => ⟨commandWord_op .., commandWord_rsv ..⟩
theorem reservedOpB : Statement .reservedOpB := fun _ => ⟨commandWord_op .., commandWord_rsv ..⟩
theorem reservedOpC : Statement .reservedOpC := fun _ => ⟨commandWord_op .., commandWord_rsv ..⟩
theorem reservedOpD : Statement .reservedOpD := fun _ => ⟨commandWord_op .., commandWord_rsv ..⟩
theorem reservedOpE : Statement .reservedOpE := fun _ => ⟨commandWord_op .., commandWord_rsv ..⟩
theorem illegalRsv (op : BitVec 4) : Statement (.illegalRsv op) := fun _ => ⟨commandWord_op .., commandWord_rsv ..⟩
theorem term : Statement .term := fun _ => rfl
theorem num (groups : List (BitVec 10)) (tail : NumTail) : Statement (.num groups tail) := fun _ => rfl
theorem alnum (pairs : List (BitVec 11)) (last : Option (BitVec 6)) : Statement (.alnum pairs last) := fun _ => rfl
theorem sa (cur tot : BitVec 4) (par : BitVec 8) : Statement (.sa cur tot par) := fun _ => rfl
theorem byte (bytes : List (BitVec 8)) : Statement (.byte bytes) := fun _ => rfl
theorem kanji (chars : List (BitVec 13)) : Statement (.kanji chars) := fun _ => rfl
theorem eci7 (a : BitVec 7) : Statement (.eci7 a) := fun _ => rfl
theorem eci14 (a : BitVec 14) : Statement (.eci14 a) := fun _ => rfl
theorem eci21 (a : BitVec 21) : Statement (.eci21 a) := fun _ => rfl
theorem eciCorrupt : Statement .eciCorrupt := fun _ => rfl
theorem unlisted5 : Statement .unlisted5 := fun _ => rfl
theorem unlisted6 : Statement .unlisted6 := fun _ => rfl
theorem unlisted9 : Statement .unlisted9 := fun _ => rfl
theorem unlistedA : Statement .unlistedA := fun _ => rfl
theorem unlistedB : Statement .unlistedB := fun _ => rfl
theorem unlistedC : Statement .unlistedC := fun _ => rfl
theorem unlistedD : Statement .unlistedD := fun _ => rfl
theorem unlistedE : Statement .unlistedE := fun _ => rfl
theorem unlistedF : Statement .unlistedF := fun _ => rfl

end Sys2Proof.Laws.Opcode
end

