-- ==== Sys2Proof/Tests/Slice0.lean ====
section
/-! SUPPORT. Tests: ill-formed instructions are refused, words written out from the spec's encodings decode to what they stand for, one
step of each instruction on a vector of spec/95_test_vectors.md (named V<n>, P<n>), and a witness for every statement's hypotheses. -/

namespace Sys2Proof.Tests

open Sys2Proof.Machine

set_option Elab.async false

/-! ## Helpers -/

/-- The bits of some bytes, R72. -/
def bitsOf (bytes : List Nat) : List Bool := bytes.flatMap (natBits 8)

/-- Some bytes. -/
def bytesOf (bytes : List Nat) : List Byte := bytes.map (BitVec.ofNat 8)

/-- A memory whose every byte is known and 0. -/
def zeroMem : Memory := ⟨[], []⟩

/-- An idle, initialised block whose buffers hold 0. -/
def ready : State := { State.reset with ready := true, gfTab := some GfTab.build, mem := zeroMem }

/-- `ready` with the bytes `bs` from offset `a` on. -/
def holding (a : Nat) (bs : List Nat) : State := { ready with mem := zeroMem.writeBytes a (bytesOf bs) }

/-- A PARSE at the start of its loop on the stream `bs`, VER 1. -/
def parsing (bs : List Nat) : State :=
  { ((holding dataRam bs).accept 0x00000015).beginParse 1 with dlen := BitVec.ofNat 13 bs.length }

/-- `s` with one pending host event. -/
def pending (s : State) (e : HostEvent) : State := { s with host := [e] }

/-- The outcome is a next state with the property `p`. -/
def after (o : Result) (p : State → Bool) : Bool :=
  match o with
  | .next t => p t
  | .fault _ => false
  | .refused _ => false

/-- The four words of a chunk record. -/
def record (s : State) (i : Nat) : List Nat := (List.range 4).map fun k => s.mem.word (chunkRam + 16 * i + 4 * k)

/-- The bytes of OUT_RAM up to the parser's OUTLEN. -/
def outBytes (s : State) : List Byte := s.mem.readBytes outRam s.parser.outLen

/-! ## Ill-formed instructions: a count its field cannot hold (R75) -/

theorem test_wellFormed_num : (Instr.num (List.replicate 341 0) (.one 0)).wellFormed .small = false := by decide +kernel
theorem test_wellFormed_alnum : (Instr.alnum (List.replicate 256 0) none).wellFormed .small = false := by decide +kernel
theorem test_wellFormed_byte : (Instr.byte (List.replicate 256 0)).wellFormed .small = false := by decide +kernel
theorem test_wellFormed_kanji : (Instr.kanji (List.replicate 256 0)).wellFormed .small = false := by decide +kernel

/-! ## Words written out from the encodings -/

theorem test_decode_nop : decodeCommand 0x00007FF0 = .nop := by decide
theorem test_decode_extract : decodeCommand 0x00003051 = .extract 5 3 := by decide
theorem test_decode_deinterleave : decodeCommand 0x00000C52 = .deinterleave 5 3 := by decide
theorem test_decode_rsDecode : decodeCommand 0x0A1A0003 = .rsDecode 26 10 := by decide
theorem test_decode_rsDecodeAll : decodeCommand 0x00000C54 = .rsDecodeAll 5 3 := by decide
theorem test_decode_parse : decodeCommand 0x000000A5 = .parse 10 := by decide
theorem test_decode_decode : decodeCommand 0x00003C56 = .decode 5 3 3 := by decide
theorem test_decode_rsEncode : decodeCommand 0x0A1A0007 = .rsEncode 26 10 := by decide
theorem test_decode_rsFill : decodeCommand 0x0A1A0008 = .rsFill 26 10 := by decide
theorem test_decode_init : decodeCommand 0x0000000F = .init := by decide
theorem test_decode_reserved : [0x9, 0xA, 0xB, 0xC, 0xD, 0xE].map (fun w => decodeCommand (BitVec.ofNat 32 w))
    = [.reservedOp9, .reservedOpA, .reservedOpB, .reservedOpC, .reservedOpD, .reservedOpE] := by decide
theorem test_decode_illegalRsv : decodeCommand 0x0000800E = .illegalRsv 0xE := by decide
theorem test_decode_term : decodeSegment .small (bitsOf [0x00]) = .ok .term := by decide
theorem test_decode_num : decodeSegment .small (bitsOf [0x10, 0x20, 0x0C, 0x56, 0x61, 0x80]) = .ok (.num [12, 345] (.two 67)) := by
  decide
theorem test_decode_alnum :
    decodeSegment .small (bitsOf [0x20, 0x29, 0xCE, 0xE7, 0x21, 0x00]) = .ok (.alnum [462, 1849] (some 2)) := by decide
theorem test_decode_sa : decodeSegment .small (bitsOf [0x30, 0x15, 0xA0]) = .ok (.sa 0 1 0x5A) := by decide
theorem test_decode_byte : decodeSegment .small (bitsOf [0x40, 0x40, 0x0F, 0xF1, 0x07, 0xE0]) = .ok (.byte [0x00, 0xFF, 0x10, 0x7E]) := by
  decide
theorem test_decode_kanji : decodeSegment .small (bitsOf [0x80, 0x26, 0xCF, 0xEA, 0xA8, 0x00]) = .ok (.kanji [0x0D9F, 0x1AAA]) := by
  decide
theorem test_decode_eci7 : decodeSegment .small (bitsOf [0x71, 0xA4]) = .ok (.eci7 26) := by decide
theorem test_decode_eci14 : decodeSegment .small (bitsOf [0x78, 0x3E, 0x84]) = .ok (.eci14 1000) := by decide
theorem test_decode_eci21 : decodeSegment .small (bitsOf [0x7C, 0x18, 0x6A, 0x04]) = .ok (.eci21 100000) := by decide
theorem test_decode_eciCorrupt : decodeSegment .small (bitsOf [0x7E, 0x04]) = .ok .eciCorrupt := by decide
theorem test_decode_unlisted : [0x50, 0x60, 0x90, 0xA0, 0xB0, 0xC0, 0xD0, 0xE0, 0xF0].map (fun b => (decodeSegment .small (bitsOf [b])).toOption)
    = [some .unlisted5, some .unlisted6, some .unlisted9, some .unlistedA, some .unlistedB, some .unlistedC, some .unlistedD,
       some .unlistedE, some .unlistedF] := by decide
/-- V59: the count field has 16 bits in size class 1. -/
theorem test_decode_sizeClass : decodeSegment .medium (bitsOf [0x40, 0x00, 0x14, 0x10]) = .ok (.byte [0x41]) := by decide
/-- R151: fewer than 4 bits are no segment. -/
theorem test_decode_endOfStream : decodeSegment .small [true, false, true] = .error .endOfStream := by decide
/-- R63: fewer than 4 bytes are no command word. -/
theorem test_decode_shortCommand : decodeCommandBytes [0x0F, 0x00] = .error .shortCommand := by decide

/-- The table's rows, as the table numbers them. -/
theorem test_table_words : [(16, 0x0), (16, 0x1), (16, 0x2), (32, 0x3), (16, 0x4), (16, 0x5), (16, 0x6), (32, 0x7), (32, 0x8),
      (16, 0xF), (32, 0x9), (16, 0x8000), (8, 0x0), (8, 0x1), (8, 0x2), (8, 0x3), (8, 0x4), (8, 0x8), (16, 0x700), (16, 0x780),
      (16, 0x7C0), (16, 0x7E0), (8, 0x5), (8, 0xF)].map (fun p => decodeTableWord p.1 p.2)
    = [some .nop, some (.extract 0 0), some (.deinterleave 0 0), some (.rsDecode 0 0), some (.rsDecodeAll 0 0), some (.parse 0),
       some (.decode 0 0 0), some (.rsEncode 0 0), some (.rsFill 0 0), some .init, some .reservedOp9, some (.illegalRsv 0),
       some .term, some (.num [] .none), some (.alnum [] none), some (.sa 0 0 0), some (.byte []), some (.kanji []),
       some (.eci7 0), some (.eci14 0), some (.eci21 0), some .eciCorrupt, some .unlisted5, some .unlistedF] := by decide +kernel

/-- A word stored where step fetches is what the very next step runs: INIT sets READY; a numeric segment of no digits emits. -/
theorem test_fetch_init : after (step (State.reset.withFetchWord 16 0xF)) (fun t => t.ready && t.done) = true := by decide +kernel
theorem test_fetch_num :
    after (step (State.reset.withFetchWord 8 0x1)) (fun t => t.parser.nChunk == 1 && t.parser.pos == 14) = true := by decide +kernel
theorem test_fetch_eciCorrupt :
    after (step (State.reset.withFetchWord 16 0x7E0)) (fun t => t.parser.nChunk == 1 && record t 0 == [7, 0xFFFFFFFF, 0, 0]) = true := by
  decide +kernel

/-! ## GF(256), the scan, the masks -/

/-- V10. -/
theorem test_gfMul : gfMul 0x53 0xCA = 0x8F ∧ gfMul 0xFF 0xFF = 0xE2 := by decide
/-- V11. -/
theorem test_gfInv : gfInv 0x53 = 0x8C ∧ gfInv 0xFF = 0xFD := by decide +kernel
/-- V20: the first five visits and the last. -/
theorem test_scan : (scan 1 []).take 5 = [(20, 20), (19, 20), (20, 19), (19, 19), (20, 18)] ∧ (scan 1 []).getLast? = some (0, 12) := by
  decide +kernel
/-- R113, rows 5 to 7 by hand at (x, y) = (2, 3): xy = 6. -/
theorem test_dataMask : [dataMask 5 2 3, dataMask 6 2 3, dataMask 7 2 3, dataMask 4 2 3, dataMask 1 2 3, dataMask 2 2 3]
    = [true, true, false, false, false, false] := by decide

/-! ## One step of each command -/

/-- V70. -/
theorem test_nop : after (exec .nop State.reset) (fun t => t.statusWord == 0x00000004 && t.irqWord == 2) = true := by decide +kernel
theorem test_init : after (exec .init State.reset) (fun t => t.statusWord == 0x00000005) = true := by decide +kernel
theorem test_illegal : after (exec .reservedOp9 State.reset) (fun t => t.statusWord == 0x0000010C) = true := by decide +kernel
theorem test_illegalRsv : after (exec (.illegalRsv 0xE) ready) (fun t => t.statusWord == 0x0000010D) = true := by decide +kernel
theorem test_notReady : after (exec (.decode 1 0 0) State.reset) (fun t => t.statusWord == 0x0000020C) = true := by decide +kernel
theorem test_param : after (exec (.extract 41 0) ready) (fun t => t.statusWord == 0x0000030D) = true := by decide +kernel

/-- P1's grid: V31 placed with MASK 0. -/
def helloGrid : List Nat :=
  [0x00, 0x14, 0x00, 0xC0, 0x00, 0x00, 0x50, 0x00, 0x00, 0x0A, 0x00, 0xC0, 0x01, 0x00, 0x1C, 0x00, 0x00, 0x00, 0x00, 0x00, 0x00, 0x00,
   0x12, 0xC0, 0x23, 0x21, 0xE2, 0x2E, 0x8D, 0xD7, 0x5C, 0x27] ++
  [0xAB, 0x5C, 0x01, 0x88, 0x28, 0x00, 0xA4, 0x01, 0x30, 0x16, 0x00, 0xD2, 0x1F, 0x80, 0x15, 0x01, 0xB8, 0x4B, 0x00, 0x1C, 0x0D, 0xA0,
   0x0E, 0x01]

/-- V31. -/
def helloBlock : List Nat :=
  [0x20, 0x5B, 0x0B, 0x78, 0xD1, 0x72, 0xDC, 0x4D, 0x43, 0x40, 0xEC, 0x11, 0xEC, 0x11, 0xEC, 0x11, 0xC4, 0x23, 0x27, 0x77, 0xEB, 0xD7,
   0xE7, 0xE2, 0x5D, 0x17]

/-- P1, V23. -/
theorem test_extract : after (exec (.extract 1 0) (holding moduleRam helloGrid))
    (fun t => t.mem.readBytes cwRam 26 == bytesOf helloBlock && t.cwCount == 26 && t.remBits == 0) = true := by decide +kernel

/-- R120 by hand for VER 3, code 2 (ec 22, blocks of 13 and 35, 13 and 35), with CW_RAM[i] = i: row 12 of block 0 is cw[24],
row 0 of block 1 cw[1], its first EC codeword cw[27], its last cw[69]. -/
theorem test_deinterleave : after (exec (.deinterleave 3 2) { holding cwRam (List.range 70) with cwCount := 70 })
    (fun t => t.mem.read (blkRam + 12) == 24 && t.mem.read (blkRam + 35) == 1 && t.mem.read (blkRam + 35 + 13) == 27
      && t.mem.read (blkRam + 69) == 69 && t.errCode == .ok) = true := by decide +kernel

/-- V27. -/
theorem test_deinterleave_short : after (exec (.deinterleave 5 3) { ready with cwCount := 133 })
    (fun t => t.errCode == .shortCodewords && t.totalCw == 134 && t.nBlocks == 4 && t.ecCount == 18
      && t.mem.word (blkDesc + 4) == 0x0210F021 && t.mem.word (blkDesc + 16) == 0) = true := by decide +kernel

/-- V30, second row. -/
theorem test_rsDecode : after (exec (.rsDecode 4 2) (holding rsRam [0x12, 0xB4, 0x22, 0x04]))
    (fun t => t.mem.readBytes rsRam 4 == bytesOf [0x12, 0x34, 0x22, 0x04] && t.errCnt == 1 && t.errCode == .ok) = true := by
  decide +kernel

/-- V34, n = 4: RS_POSITION. -/
theorem test_rsDecode_position : after (exec (.rsDecode 4 2) (holding rsRam [0x61, 0xA1, 0x5D, 0x8E]))
    (fun t => t.errCode == .rsPosition && t.errCnt == 0 && t.mem.readBytes rsRam 4 == bytesOf [0x61, 0xA1, 0x5D, 0x8E]) = true := by
  decide +kernel

/-- V41. -/
theorem test_rsEncode : after (exec (.rsEncode 7 3) (holding rsRam [0x10, 0x20, 0x30, 0x40, 0xFF, 0xFF, 0xFF]))
    (fun t => t.mem.readBytes rsRam 7 == bytesOf [0x10, 0x20, 0x30, 0x40, 0xC3, 0x98, 0x1B]) = true := by decide +kernel

/-- V43, first and third items. -/
theorem test_rsFill : after (exec (.rsFill 4 2) { holding rsRam [0x00, 0x34, 0x00, 0x04] with erase := 0xFFFFFFF5 })
    (fun t => t.mem.readBytes rsRam 4 == bytesOf [0x12, 0x34, 0x22, 0x04] && t.errCnt == 2) = true := by decide +kernel
theorem test_rsFill_inconsistent : after (exec (.rsFill 4 2) { holding rsRam [0x12, 0x35, 0x22, 0x00] with erase := 0x8 })
    (fun t => t.errCode == .rsInconsistent && t.errCnt == 0) = true := by decide +kernel

/-- V31, V50, R136. -/
theorem test_rsDecodeAll : after (exec (.rsDecodeAll 1 0) (holding blkRam helloBlock))
    (fun t => t.mem.readBytes dataRam 17 == bytesOf (helloBlock.take 16) ++ [0] && t.dlen == 16 && t.failBlk == 0xFF
      && t.mem.word blkDesc == 0x01A10000) = true := by decide +kernel

/-- P1: DECODE up to the start of its parse loop. -/
theorem test_decode_hello : after (exec (.decode 1 0 0) ((holding moduleRam helloGrid).accept 0x00000016))
    (fun t => t.busy && t.stage == .parse && t.dlen == 16 && t.mem.readBytes dataRam 16 == bytesOf (helloBlock.take 16)) = true := by
  decide +kernel

theorem test_parse : after (exec (.parse 27) (ready.accept 0x000001B5)) (fun t => t.busy && t.parser == ⟨0, .large, 0, 0⟩) = true := by
  decide +kernel

/-! ## One step of each segment (V51 to V57) -/

theorem test_term : after (step (parsing [0x00])) (fun t => t.bitPos == 4 && t.done && t.errCode == .ok && !t.busy) = true := by
  decide +kernel
theorem test_num : after (step (parsing [0x10, 0x20, 0x0C, 0x56, 0x61, 0x80]))
    (fun t => outBytes t == bytesOf [0x30, 0x31, 0x32, 0x33, 0x34, 0x35, 0x36, 0x37] && record t 0 == [1, 0, 8, 8]) = true := by
  decide +kernel
theorem test_num_range : after (step (parsing [0x10, 0x06, 0x80]))
    (fun t => t.errCode == .streamNumericRange && t.bitPos == 14 && t.nChunk == 0) = true := by decide +kernel
theorem test_alnum : after (step (parsing [0x20, 0x29, 0xCE, 0xE7, 0x21, 0x00]))
    (fun t => outBytes t == bytesOf [0x41, 0x43, 0x2D, 0x34, 0x32] && record t 0 == [2, 0, 5, 5] && t.parser.pos == 41) = true := by
  decide +kernel
theorem test_alnum_range : after (step (parsing [0x20, 0x17, 0xE9, 0x00]))
    (fun t => t.errCode == .streamAlnumRange && t.bitPos == 13) = true := by decide +kernel
theorem test_byte : after (step (parsing [0x40, 0x40, 0x0F, 0xF1, 0x07, 0xE0]))
    (fun t => outBytes t == bytesOf [0x00, 0xFF, 0x10, 0x7E] && record t 0 == [4, 0, 4, 4]) = true := by decide +kernel
theorem test_byte_underrun : after (step (parsing [0x40, 0x54, 0x14, 0x10]))
    (fun t => t.errCode == .streamUnderrun && t.bitPos == 28 && t.nChunk == 0) = true := by decide +kernel
theorem test_kanji : after (step (parsing [0x80, 0x26, 0xCF, 0xEA, 0xA8, 0x00]))
    (fun t => outBytes t == bytesOf [0x93, 0x5F, 0xE4, 0xAA] && record t 0 == [8, 0, 4, 2]) = true := by decide +kernel
/-- V52: the test is made on c, not on the raw value. -/
theorem test_kanji_split : after (step (parsing [0x80, 0x1C, 0x00, 0x00])) (fun t => outBytes t == bytesOf [0xE1, 0x40]) = true := by
  decide +kernel
theorem test_eci7 : after (step (parsing [0x71, 0xA4])) (fun t => record t 0 == [7, 0x1A, 0, 0] && t.parser.pos == 12) = true := by
  decide +kernel
theorem test_eci14 : after (step (parsing [0x78, 0x3E, 0x84])) (fun t => record t 0 == [7, 1000, 0, 0] && t.parser.pos == 20) = true := by
  decide +kernel
theorem test_eci21 : after (step (parsing [0x7C, 0x18, 0x6A, 0x04]))
    (fun t => record t 0 == [7, 100000, 0, 0] && t.parser.pos == 28) = true := by decide +kernel
theorem test_eciCorrupt : after (step (parsing [0x7E, 0x04]))
    (fun t => record t 0 == [7, 0xFFFFFFFF, 0, 0] && t.parser.pos == 12) = true := by decide +kernel
theorem test_sa : after (step (parsing [0x30, 0x15, 0xA0])) (fun t => record t 0 == [3, 0x5A10, 0, 0] && t.parser.pos == 20) = true := by
  decide +kernel
theorem test_unlisted_skip : after (step (parsing [0x50])) (fun t => t.busy && t.parser == ⟨4, .small, 0, 0⟩) = true := by decide +kernel
theorem test_unlisted_fail :
    after (step { parsing [0x50] with params := { Params.standard with unknownMode := .fail } })
      (fun t => t.errCode == .streamUnknownMode && t.bitPos == 0) = true := by decide +kernel
/-- V56, third and second rows, at the exit of the loop. -/
theorem test_exit : after (step { parsing [0x10, 0x09, 0x55] with
      params := { Params.standard with trailing := .reject }, parser := ⟨21, .small, 2, 1⟩ })
    (fun t => t.errCode == .streamTrailing && t.bitPos == 21 && t.nChunk == 1 && t.outLen == 2) = true := by decide +kernel
/-- V60: no room for record 2049. -/
theorem test_overflow : after (step { parsing [0x70, 0x00] with parser := ⟨0, .small, 0, 2048⟩ })
    (fun t => t.errCode == .outOverflow && t.bitPos == 0 && t.nChunk == 2048) = true := by decide +kernel

/-! ## Host accesses (V71) -/

theorem test_overrun : after (step { ready.accept 0 with host := [.write 0x004 .w32 0xF] })
    (fun t => t.overrun && t.lcmd == 0 && t.busy) = true := by decide +kernel
theorem test_busErr : after (step { ready with host := [.read 0x1002 .w32] }) (fun t => t.busErr && t.rdata == 0) = true := by
  decide +kernel
theorem test_mixedWidth : after (step { ready with host := [.write 0x3000 .w32 0x44332211] })
    (fun t => t.mem.readBytes 0x3000 4 == bytesOf [0x11, 0x22, 0x33, 0x44]) = true := by decide +kernel
/-- R54: a write to BLKDESC while busy is ignored and sets no status bit. -/
theorem test_blkDescWriteBusy : after (step { ready.accept 0 with host := [.write 0x5400 .w32 5] })
    (fun t => !t.accViol && !t.busErr && t.mem.word 0x5400 == 0) = true := by decide +kernel
/-- 93_implementation_defined.md, R153: a parse that ends leaves the bytes past OUTLEN as they were. -/
theorem test_endParse_keeps : after (step { parsing [0x00] with mem := (parsing [0x00]).mem.write 0x6000 0x55 })
    (fun t => t.done && t.outLen == 0 && t.mem.read 0x6000 == 0x55) = true := by decide +kernel
theorem test_outsideWindow : (match step { ready with host := [.read 0x10000 .w32] } with
    | .fault .outsideWindow => true
    | .next _ => false
    | .refused _ => false) = true := by decide +kernel

/-! ## Witnesses: concrete states and operands that meet the hypotheses of each statement, clause by clause -/

theorem witness_DecodeOfEncode : (Instr.byte (List.replicate 255 0)).wellFormed .small = true ∧
    (Instr.num (List.replicate 341 0) .none).wellFormed .small = true := by decide +kernel

theorem witness_SegmentLengths : (Instr.byte [0x41]).wellFormed .small = true ∧ ∃ bits, encode .small (.byte [0x41]) = .segment bits :=
  ⟨rfl, _, rfl⟩

theorem witness_StepRunsDecoded_idle : State.reset.host = [] ∧ State.reset.busy = false := ⟨rfl, rfl⟩
theorem witness_StepRunsDecoded_issue :
    (State.reset.accept 0).host = [] ∧ (State.reset.accept 0).busy = true ∧ (State.reset.accept 0).stage = .issue := ⟨rfl, rfl, rfl⟩
theorem witness_StepRunsDecoded_parse : (parsing [0x00]).host = [] ∧ (parsing [0x00]).busy = true ∧ (parsing [0x00]).stage = .parse ∧
    decodeSegment (parsing [0x00]).parser.sizeClass (parsing [0x00]).streamRest = .ok .term := by decide +kernel
theorem witness_StepRunsDecoded_exit : (parsing []).host = [] ∧ (parsing []).busy = true ∧ (parsing []).stage = .parse ∧
    (parsing []).streamRest.length < 4 := by decide +kernel
/-- A pending `pause` or `wait`: idle, at the issue stage, in the parse loop on a segment, and at the loop's exit. -/
theorem witness_StepRunsDecoded_host : ∀ e ∈ [HostEvent.pause, .wait],
    (pending State.reset e).host = e :: [] ∧ (pending State.reset e).busy = false ∧
    (pending (State.reset.accept 0) e).busy = true ∧ (pending (State.reset.accept 0) e).stage = .issue ∧
    (pending (parsing [0x00]) e).busy = true ∧ (pending (parsing [0x00]) e).stage = .parse ∧
    decodeSegment (pending (parsing [0x00]) e).parser.sizeClass (pending (parsing [0x00]) e).streamRest = .ok .term ∧
    (pending (parsing []) e).busy = true ∧ (pending (parsing []) e).stage = .parse ∧ (pending (parsing []) e).streamRest.length < 4 := by
  decide +kernel

theorem witness_StepRunsEncodedSegment : (parsing [0x5F]).host = [] ∧ (parsing [0x5F]).busy = true ∧ (parsing [0x5F]).stage = .parse ∧
    Instr.unlisted5.wellFormed (parsing [0x5F]).parser.sizeClass = true ∧
    encode (parsing [0x5F]).parser.sizeClass .unlisted5 = .segment [false, true, false, true] ∧
    (parsing [0x5F]).streamRest = [false, true, false, true] ++ [true, true, true, true] := by decide +kernel

theorem witness_IllegalCommandsComplete : Instr.reservedOp9.isIllegal ∧ (Instr.illegalRsv 0xF).isIllegal := ⟨trivial, trivial⟩

theorem witness_ChecksBeforeTheRule_notReady : (Instr.decode 1 0 0).needsReady ∧ State.reset.ready = false := ⟨trivial, rfl⟩
theorem witness_ChecksBeforeTheRule_param : ready.ready = true ∧ (Instr.extract 0 0).badParam ready ∧ (Instr.extract 41 0).badParam ready ∧
    (Instr.deinterleave 1 0).badParam { ready with cwCount := 4097 } ∧ (Instr.rsDecode 0 0).badParam ready ∧
    (Instr.rsFill 4 5).badParam ready ∧ (Instr.parse 1).badParam { ready with dlen := 4097 } := by
  refine ⟨rfl, .inl rfl, .inr (by decide), .inr (.inr (by decide)), .inl rfl, .inr (by decide), .inr (.inr (by decide))⟩

theorem witness_CompletionIsOneStep : (∃ t, (ready.accept 0).busy = true ∧ exec .nop (ready.accept 0) = .next t) ∧
    ∃ t, (ready.accept 0x15).busy = true ∧ exec (.parse 1) (ready.accept 0x15) = .next t := ⟨⟨_, rfl, rfl⟩, _, rfl, rfl⟩

/-- A table of 40 equal records, of one block of 16 data codewords and 10 EC codewords for every code. -/
def smallTable : Params := { Params.standard with
  versionTable := List.replicate 40 ⟨[], .one 10 1 16, .one 10 1 16, .one 10 1 16, .one 10 1 16⟩ }

theorem witness_EveryCommandCompletes :
    smallTable.Admissible ∧ { State.reset with params := smallTable }.busy = false ∧ { State.reset with params := smallTable }.host = [] := by
  refine ⟨?_, rfl, rfl⟩
  unfold Params.Admissible
  decide +kernel

theorem witness_ExecNeverStops : smallTable.Admissible := witness_EveryCommandCompletes.1

theorem witness_EngineKeepsHostState : ∃ t, exec .nop ready = .next t ∧ Instr.nop ≠ .init := ⟨_, rfl, by decide⟩

theorem witness_EngineStoresOnlyInItsBuffers : ∃ t, exec .nop ready = .next t := ⟨_, rfl⟩
theorem witness_EngineStoresOnlyInItsBuffers_parse : (parsing [0x00]).host = [] ∧ (parsing [0x00]).busy = true ∧
    (parsing [0x00]).stage = .parse ∧ after (step (parsing [0x00])) (fun t => t.parser.nChunk == (parsing [0x00]).parser.nChunk) = true := by
  decide +kernel

theorem witness_ReadyOnlyByInitAndReset_rises :
    ∃ t, step (State.reset.accept 0xF) = .next t ∧ (State.reset.accept 0xF).ready = false ∧ t.ready = true := ⟨_, rfl, rfl, rfl⟩
theorem witness_ReadyOnlyByInitAndReset_falls : ∃ t, step { ready with host := [.reset] } = .next t ∧
    { ready with host := [.reset] }.ready = true ∧ t.ready = false := ⟨_, rfl, rfl, rfl⟩

theorem witness_ExtractEffects : ready.ready = true ∧ verOk 1 = true ∧ verOk 40 = true ∧ (ready.params.record? 1).isSome = true ∧
    (ready.params.record? 40).isSome = true ∧ verOk 0 = false ∧ verOk 41 = false := by decide +kernel

/-- Codewords whose placement in a version 1 symbol with MASK 0 leaves every data module 0. -/
def maskWords : List Byte := (packBits 0 0 ((scan 1 []).map fun p => dataMask 0 p.1 p.2)).1

theorem maskWords_placed : ∀ k < 208, ((scan 1 [])[k]?.all fun p =>
    ready.module 21 p.1 p.2 == ((maskWords.getD (k / 8) 0).getLsbD (7 - k % 8) ^^ dataMask 0 p.1 p.2)) = true := by decide +kernel

/-- R109, R110: the record of version 1. -/
def record1 : VersionRecord := ⟨[], .one 10 1 16, .one 7 1 19, .one 17 1 9, .one 13 1 13⟩

theorem witness_ExtractOfPlacement : ready.ready = true ∧ verOk 1 = true ∧ ready.params.record? 1 = some record1 ∧
    record1.alignment = [] ∧ maskWords.length = (scan 1 []).length / 8 ∧
    ∀ k < 8 * maskWords.length, ∀ x y, (scan 1 [])[k]? = some (x, y) →
      ready.module (dimOf 1) x y = ((maskWords.getD (k / 8) 0).getLsbD (7 - k % 8) ^^ dataMask 0 x y) := by
  have hl : maskWords.length = 26 := by decide +kernel
  refine ⟨rfl, rfl, rfl, rfl, by decide +kernel, ?_⟩
  intro k hk x y h
  have := maskWords_placed k (by omega)
  rw [h] at this
  exact beq_iff_eq.1 this

theorem witness_DefaultTableTotals : ∀ ver ∈ ([1, 40] : List (BitVec 6)), (Params.standard.record? ver).isSome = true := by decide

theorem witness_DefaultTableAdmissible : ∀ ver ∈ ([1, 2, 7] : List (BitVec 6)), (Params.standard.record? ver).isSome = true := by decide

/-- The entry of version 1, code 0: one block of 16 data and 10 EC codewords. -/
def entry1 : EcEntry := .one 10 1 16

theorem witness_DescriptorsWritten : ready.ready = true ∧ verOk 1 = true ∧ ready.params.entry? 1 0 = some entry1 ∧
    { ready with cwCount := 4096 }.cwCount.toNat ≤ 4096 := by decide +kernel

theorem witness_DeinterleaveShort : ready.ready = true ∧ verOk 1 = true ∧ ready.params.entry? 1 0 = some entry1 ∧
    { ready with cwCount := 25 }.cwCount.toNat < entry1.total := by decide +kernel

theorem witness_DeinterleaveDeals : ready.ready = true ∧ verOk 1 = true ∧ ready.params.entry? 1 0 = some entry1 ∧
    entry1.total ≤ { ready with cwCount := 26 }.cwCount.toNat ∧ { ready with cwCount := 26 }.cwCount.toNat ≤ 4096 ∧
    entry1.total ≤ { ready with cwCount := 4096 }.cwCount.toNat ∧ { ready with cwCount := 4096 }.cwCount.toNat ≤ 4096 := by decide +kernel

theorem witness_FieldLaws : (0x53 : Byte) ≠ 0 := by decide
theorem witness_ExponentsAndLogarithms : (0xFF : Byte) ≠ 0 ∧ 254 < 255 := by decide
theorem witness_DivisionWithRemainder : Poly.isZero [0x00, 0x01] = false := by decide

theorem witness_RsDecodeCommand_ok : ready.ready = true ∧ blockOk 4 2 = true ∧
    rsdecode ((holding rsRam [0x12, 0xB4, 0x22, 0x04]).mem.readBytes rsRam 4) 2 = .ok [0x12, 0x34, 0x22, 0x04] 1 := by decide +kernel
theorem witness_RsDecodeCommand_fail : blockOk 4 2 = true ∧
    rsdecode ((holding rsRam [0x1C, 0xFC, 0x3C, 0xDC]).mem.readBytes rsRam 4) 2 = .fail .rsSigma0Zero := by decide +kernel
theorem witness_RsDecodeCommand_param : blockOk 0 0 = false ∧ blockOk 4 5 = false := by decide

theorem witness_RsdecodeCorrects : ([0x12, 0xB4, 0x22, 0x04] : List Byte).length = ([0x12, 0x34, 0x22, 0x04] : List Byte).length ∧
    Codeword [0x12, 0x34, 0x22, 0x04] 2 ∧ 2 * differences [0x12, 0xB4, 0x22, 0x04] [0x12, 0x34, 0x22, 0x04] ≤ 2 := by
  refine ⟨rfl, ?_, by decide +kernel⟩
  unfold Codeword
  decide +kernel
theorem witness_EuclidChecksNeverFail : 1 ≤ 1 := le_rfl
theorem witness_RsdecodeBound : rsdecode [0x12, 0xB4, 0x22, 0x04] 2 = .ok [0x12, 0x34, 0x22, 0x04] 1 := by decide +kernel
theorem witness_RsEncodeMakesCodeword : ready.ready = true ∧ blockOk 1 0 = true ∧ blockOk 3 3 = true ∧ blockOk 255 255 = true ∧
    blockOk 0 0 = false := by decide
theorem witness_EncodeThenDecode : ∃ t, ready.ready = true ∧ blockOk 4 2 = true ∧ exec (.rsEncode 4 2) ready = .next t := ⟨_, rfl, rfl, rfl⟩

theorem witness_RsFillSolves : { ready with erase := 1 }.ready = true ∧ blockOk 1 1 = true ∧
    ({ ready with erase := 1 }.erasedPositions (1 : BitVec 8).toNat).length ≤ (1 : BitVec 8).toNat ∧
    FillOf { ready with erase := 1 } (1 : BitVec 8).toNat (1 : BitVec 8).toNat [0x00] := by
  refine ⟨rfl, rfl, by decide +kernel, rfl, ?_, ?_⟩
  · intro p hp hn
    have : p = 0 := by simpa using hp
    subst this
    exact absurd ⟨by decide, by decide +kernel⟩ hn
  · unfold Codeword
    decide +kernel

theorem witness_RsFillFails_count :
    (0 : BitVec 8).toNat < ({ ready with erase := 1 }.erasedPositions (1 : BitVec 8).toNat).length ∧ blockOk 1 0 = true := by decide +kernel

theorem witness_RsFillFails_inconsistent : blockOk 1 1 = true ∧
    ((holding rsRam [0x05]).erasedPositions (1 : BitVec 8).toNat).length ≤ (1 : BitVec 8).toNat ∧
    ∀ c', ¬ FillOf (holding rsRam [0x05]) (1 : BitVec 8).toNat (1 : BitVec 8).toNat c' := by
  refine ⟨rfl, by decide +kernel, ?_⟩
  rintro c' ⟨hl, hk, hc⟩
  have h0 := hk 0 (by decide) (by rintro ⟨_, h⟩; revert h; decide +kernel)
  have h1 : (holding rsRam [0x05]).mem.read (rsRam + 0) = 0x05 := by decide +kernel
  rw [h1] at h0
  match c', hl with
  | [x], _ =>
    have hx : x = 0x05 := h0
    subst hx
    exact absurd (hc 0 (by decide)) (by decide +kernel)

theorem witness_RsFillFullRank : { ready with erase := 1 }.ready = true ∧ blockOk 1 1 = true ∧
    ({ ready with erase := 1 }.erasedPositions (1 : BitVec 8).toNat).length = (1 : BitVec 8).toNat := by decide +kernel

theorem witness_RsDecodeAllSucceeds : ready.ready = true ∧ verOk 1 = true ∧ ready.params.entry? 1 0 = some entry1 ∧
    ∀ b < entry1.blocks.length, ∃ c nu, ready.decodedBlock entry1 b = .ok c nu := by
  refine ⟨rfl, rfl, by decide +kernel, ?_⟩
  intro b hb
  have hb0 : b = 0 := by
    have : entry1.blocks.length = 1 := rfl
    omega
  subst hb0
  exact ⟨List.replicate 26 0, 0, by decide +kernel⟩

/-- V34, RS_ROOTCOUNT. -/
def badBlock : List Nat :=
  [0x20, 0xCD, 0x04, 0x78, 0x5B, 0x72, 0xDC, 0x4D, 0x43, 0x40, 0x3F, 0x11, 0xF5, 0x11, 0xEC, 0x11, 0xC4, 0x23, 0x27, 0x77, 0xB5, 0xD7,
   0xE7, 0xE2, 0x5D, 0x17]

theorem witness_RsDecodeAllFails : (holding blkRam badBlock).ready = true ∧ verOk 1 = true ∧
    (holding blkRam badBlock).params.entry? 1 0 = some entry1 ∧ 0 < entry1.blocks.length ∧
    (∀ b < 0, ∃ c nu, (holding blkRam badBlock).decodedBlock entry1 b = .ok c nu) ∧
    (holding blkRam badBlock).decodedBlock entry1 0 = .fail .rsRootcount := by
  refine ⟨rfl, rfl, by decide +kernel, by decide, ?_, by decide +kernel⟩
  intro b hb
  exact absurd hb (Nat.not_lt_zero b)

theorem witness_ParseBegins : ready.ready = true ∧ (∀ ver ∈ ([1, 9, 10, 26, 27, 40] : List (BitVec 6)), verOk ver = true) ∧
    { ready with dlen := 4096 }.dlen.toNat ≤ 4096 := by decide

theorem parsing_ok (bs : List Nat) : (parsing bs).ParserOk := ⟨Nat.zero_le _, Nat.zero_le _, Nat.zero_le _⟩

theorem witness_TermEndsParse : (parsing [0x00]).ParserOk ∧ (parsing [0x00]).parser.pos + 4 ≤ (parsing [0x00]).streamEnd :=
  ⟨parsing_ok _, by decide⟩

theorem witness_NumericSegment_emits : (∀ g ∈ ([999] : List (BitVec 10)), g.toNat < 1000) ∧ (NumTail.two 99).InRange ∧
    (NumTail.one 9).InRange ∧
    (parsing [0, 0, 0, 0]).Fits (Instr.tableLength (parsing [0, 0, 0, 0]).parser.sizeClass (.num [999] (.two 99)))
      (numericBytes [999] (.two 99)).length :=
  ⟨by decide, by simp [NumTail.InRange], by simp [NumTail.InRange], ⟨by decide +kernel, by decide +kernel, by decide +kernel⟩⟩
theorem witness_NumericSegment_group : ([1000] : List (BitVec 10)) = [] ++ 1000 :: [] ∧ 1000 ≤ (1000 : BitVec 10).toNat ∧
    (parsing [0, 0, 0]).ParserOk ∧ (parsing [0, 0, 0]).parser.pos + 4 + 10 + 10 * 0 + 10 ≤ (parsing [0, 0, 0]).streamEnd :=
  ⟨rfl, by decide, parsing_ok _, by decide +kernel⟩
theorem witness_NumericSegment_tail : ¬ (NumTail.one 10).InRange ∧ ¬ (NumTail.two 100).InRange ∧ (parsing [0, 0, 0]).ParserOk ∧
    (parsing [0, 0, 0]).parser.pos + Instr.tableLength (parsing [0, 0, 0]).parser.sizeClass (.num [] (.two 100))
      ≤ (parsing [0, 0, 0]).streamEnd :=
  ⟨by simp [NumTail.InRange], by simp [NumTail.InRange], parsing_ok _, by decide +kernel⟩

theorem witness_AlphanumericSegment_emits : (∀ v ∈ ([2024] : List (BitVec 11)), v.toNat < 2025) ∧
    (∀ v ∈ (some 44 : Option (BitVec 6)), v.toNat < 45) ∧
    (parsing [0, 0, 0, 0]).Fits (Instr.tableLength (parsing [0, 0, 0, 0]).parser.sizeClass (.alnum [2024] (some 44)))
      (alnumBytes [2024] (some 44)).length :=
  ⟨by decide, by decide, ⟨by decide +kernel, by decide +kernel, by decide +kernel⟩⟩
theorem witness_AlphanumericSegment_pair : ([2025] : List (BitVec 11)) = [] ++ 2025 :: [] ∧ 2025 ≤ (2025 : BitVec 11).toNat ∧
    (parsing [0, 0, 0]).ParserOk ∧ (parsing [0, 0, 0]).parser.pos + 4 + 9 + 11 * 0 + 11 ≤ (parsing [0, 0, 0]).streamEnd :=
  ⟨rfl, by decide, parsing_ok _, by decide +kernel⟩
theorem witness_AlphanumericSegment_last : 45 ≤ (45 : BitVec 6).toNat ∧ (parsing [0, 0, 0]).ParserOk ∧
    (parsing [0, 0, 0]).parser.pos + Instr.tableLength (parsing [0, 0, 0]).parser.sizeClass (.alnum [] (some 45))
      ≤ (parsing [0, 0, 0]).streamEnd := ⟨by decide, parsing_ok _, by decide +kernel⟩

theorem witness_ByteSegment : (parsing [0, 0, 0]).Fits (Instr.tableLength (parsing [0, 0, 0]).parser.sizeClass (.byte [0x41])) 1 :=
  ⟨by decide +kernel, by decide +kernel, by decide +kernel⟩
theorem witness_KanjiSegment : (parsing [0, 0, 0, 0]).Fits (Instr.tableLength (parsing [0, 0, 0, 0]).parser.sizeClass (.kanji [0x1FFF]))
    (2 * [0x1FFF].length) := ⟨by decide +kernel, by decide +kernel, by decide +kernel⟩
theorem witness_HeaderSegments : (parsing [0, 0, 0, 0]).Fits 12 0 ∧ (parsing [0, 0, 0, 0]).Fits 20 0 ∧ (parsing [0, 0, 0, 0]).Fits 28 0 :=
  ⟨⟨by decide +kernel, by decide +kernel, by decide +kernel⟩, ⟨by decide +kernel, by decide +kernel, by decide +kernel⟩,
    ⟨by decide +kernel, by decide +kernel, by decide +kernel⟩⟩

theorem witness_UnderrunEndsParse : (parsing [0x78, 0x00]).ParserOk ∧ (Instr.eci14 0).ValuesInRangeBefore 2 ∧
    2 < ((Instr.eci14 0).fieldWidths (parsing [0x78, 0x00]).parser.sizeClass).length ∧
    12 = (parsing [0x78, 0x00]).parser.pos + (((Instr.eci14 0).fieldWidths (parsing [0x78, 0x00]).parser.sizeClass).take 2).sum ∧
    12 ≤ (parsing [0x78, 0x00]).streamEnd ∧
    (parsing [0x78, 0x00]).streamEnd < 12 + ((Instr.eci14 0).fieldWidths (parsing [0x78, 0x00]).parser.sizeClass).getD 2 0 :=
  ⟨parsing_ok _, trivial, by decide +kernel, by decide +kernel, by decide +kernel, by decide +kernel⟩

/-- A second numeric group cut after the bits 11111111, which the decoder reads as 1020 (log 22): the value cut is out of range. -/
theorem witness_UnderrunEndsParse_cut : (parsing [0x10, 0x18, 0x00, 0xFF]).ParserOk ∧
    decodeSegment .small (parsing [0x10, 0x18, 0x00, 0xFF]).streamRest = .ok (.num [0, 1020] .none) ∧
    (Instr.num [0, 1020] .none).ValuesInRangeBefore 3 ∧ 3 < ((Instr.num [0, 1020] .none).fieldWidths .small).length ∧
    24 = 0 + (((Instr.num [0, 1020] .none).fieldWidths .small).take 3).sum ∧ 24 ≤ (parsing [0x10, 0x18, 0x00, 0xFF]).streamEnd ∧
    (parsing [0x10, 0x18, 0x00, 0xFF]).streamEnd < 24 + ((Instr.num [0, 1020] .none).fieldWidths .small).getD 3 0 :=
  ⟨parsing_ok _, by decide +kernel, ⟨by decide, fun h => absurd h (by decide)⟩, by decide, by decide, by decide +kernel, by decide +kernel⟩

theorem witness_UnlistedModes : Instr.unlistedF.isUnlisted ∧ (parsing [0xF0]).parser.pos + 4 ≤ (parsing [0xF0]).streamEnd ∧
    (parsing [0xF0]).params.unknownMode = .skip ∧
    { parsing [0xF0] with params := { Params.standard with unknownMode := .fail } }.params.unknownMode = .fail ∧
    { parsing [0xF0] with params := { Params.standard with unknownMode := .fail } }.ParserOk :=
  ⟨trivial, by decide +kernel, rfl, rfl, ⟨Nat.zero_le _, Nat.zero_le _, Nat.zero_le _⟩⟩

/-- A parse that has filled OUT_RAM (8192 bytes), or CHUNK_RAM (2048 records). -/
def fullAt (out chunks : Nat) : State := { parsing [0x40, 0x14, 0x10] with parser := ⟨0, .small, out, chunks⟩ }

theorem witness_OverflowEndsParse : (fullAt 8192 0).ParserOk ∧ (fullAt 0 2048).ParserOk ∧ (Instr.byte [0x41]).ValuesInRange ∧
    (Instr.byte [0x41]).emittedBytes = some [0x41] ∧ 0 + Instr.tableLength .small (.byte [0x41]) ≤ (fullAt 8192 0).streamEnd ∧
    outCap < (fullAt 8192 0).parser.outLen + [0x41].length ∧ chunkCap < (fullAt 0 2048).parser.nChunk + 1 :=
  ⟨⟨Nat.zero_le _, by decide, Nat.zero_le _⟩, ⟨Nat.zero_le _, Nat.zero_le _, by decide⟩, trivial, rfl, by decide +kernel, by decide,
    by decide⟩

/-- V56: a parse 3 bits before the end of `10 09 55`. -/
def nearEnd (policy : TrailingPolicy) : State := { parsing [0x10, 0x09, 0x55] with
  params := { Params.standard with trailing := policy }, parser := ⟨21, .small, 2, 1⟩ }

theorem witness_LoopExit : (nearEnd .accept).host = [] ∧ (nearEnd .accept).busy = true ∧ (nearEnd .accept).stage = .parse ∧
    (nearEnd .accept).ParserOk ∧ (nearEnd .accept).streamEnd < (nearEnd .accept).parser.pos + 4 ∧
    (nearEnd .accept).params.trailing = .accept :=
  ⟨rfl, rfl, rfl, ⟨by decide +kernel, by decide, by decide⟩, by decide +kernel, rfl⟩
theorem witness_LoopExit_reject : (nearEnd .reject).params.trailing = .reject ∧
    ∃ q, (nearEnd .reject).parser.pos ≤ q ∧ q < (nearEnd .reject).streamEnd ∧ (nearEnd .reject).streamBit q = true :=
  ⟨rfl, 21, by decide +kernel, by decide +kernel, by decide +kernel⟩
theorem witness_LoopExit_end : (parsing []).ParserOk ∧ (parsing []).streamEnd < (parsing []).parser.pos + 4 ∧
    ∀ q, (parsing []).parser.pos ≤ q → q < (parsing []).streamEnd → (parsing []).streamBit q = false :=
  ⟨parsing_ok _, by decide, fun q _ h => absurd h (Nat.not_lt_zero q)⟩

/-- A table whose entries ask for 27 codewords where version 1 yields 26. -/
def wideTable : Params := { Params.standard with
  versionTable := List.replicate 40 ⟨[], .one 10 1 17, .one 10 1 17, .one 10 1 17, .one 10 1 17⟩ }

/-- The first error branch: DEINTERLEAVE after EXTRACT completes with an error. -/
theorem witness_DecodeChainsStages_short : wideTable.entry? 1 0 = some (.one 10 1 17) ∧
    after (exec (.extract 1 0) { ready with params := wideTable }) (fun s1 =>
      after (exec (.deinterleave 1 0) s1) fun s2 => s2.errCode != .ok) = true := by decide +kernel
/-- The second error branch: on an all-0 grid with MASK 0 the one block of version 1 does not decode. -/
theorem witness_DecodeChainsStages_fails : after (exec (.extract 1 0) ready) (fun s1 =>
    after (exec (.deinterleave 1 0) s1) fun s2 => s2.errCode == .ok &&
      after (exec (.rsDecodeAll 1 0) s2) fun s3 => s3.errCode != .ok) = true := by decide +kernel
/-- The branch in which all succeed: P1's grid. -/
theorem witness_DecodeChainsStages_ok : after (exec (.extract 1 0) (holding moduleRam helloGrid)) (fun s1 =>
    after (exec (.deinterleave 1 0) s1) fun s2 => s2.errCode == .ok &&
      after (exec (.rsDecodeAll 1 0) s2) fun s3 => s3.errCode == .ok) = true := by decide +kernel
theorem witness_DecodeChainsStages : ready.ready = true ∧ verOk 1 = true ∧ ready.params.entry? 1 0 = some entry1 := by decide +kernel

theorem witness_CmdWrite : (pending ready (.write 0x004 .w32 0xF)).host
      = .write (0x10000 * (pending ready (.write 0x004 .w32 0xF)).params.baseBlock + 0x004) .w32 0xF :: [] ∧ ready.busy = false ∧
    (pending (ready.accept 0) (.write 0x004 .w32 0xF)).host
      = .write (0x10000 * (pending (ready.accept 0) (.write 0x004 .w32 0xF)).params.baseBlock + 0x004) .w32 0xF :: [] ∧
    (ready.accept 0).busy = true := ⟨rfl, rfl, rfl, rfl⟩

theorem witness_StatusAndIrq :
    (pending ready (.read 0x008 .w32)).host = .read (0x10000 * ready.params.baseBlock + 0x008) .w32 :: [] ∧
    (pending ready (.write 0x008 .w32 0x70000)).host = .write (0x10000 * ready.params.baseBlock + 0x008) .w32 0x70000 :: [] ∧
    (pending ready (.read 0x00C .w32)).host = .read (0x10000 * ready.params.baseBlock + 0x00C) .w32 :: [] ∧
    (pending ready (.write 0x00C .w32 3)).host = .write (0x10000 * ready.params.baseBlock + 0x00C) .w32 3 :: [] := ⟨rfl, rfl, rfl, rfl⟩

theorem witness_RegisterReads : (∀ off ∈ [0x000, 0x004, 0x010, 0x02C, 0x038, 0x040, 0x05C],
      (pending ready (.read off .w32)).host = .read (0x10000 * ready.params.baseBlock + off) .w32 :: []) ∧
    ready.busy = false ∧ (ready.accept 0).busy = true := by decide +kernel

theorem witness_RegisterReads_erase : 0x05C = 0x040 + 4 * 7 ∧ ∀ j < 32, (0 : Word).getLsbD j = ready.erase.getLsbD (32 * 7 + j) := by
  decide +kernel

theorem witness_RegisterWrites : (∀ off ∈ [0x000, 0x010, 0x014, 0x03C, 0x040, 0x05C, 0x060, 0xFFC],
      (pending ready (.write off .w32 5)).host = .write (0x10000 * ready.params.baseBlock + off) .w32 5 :: []) ∧
    ready.busy = false ∧ (ready.accept 0).busy = true := by decide +kernel

theorem witness_BufferAccess : (∀ off ∈ [0x1000, 0x50FC, 0x6000, 0xFFFC], off < 0x10000 ∧ accessOk off .w32 = true ∧
      (pending ready (.write off .w32 5)).host = .write (0x10000 * ready.params.baseBlock + off) .w32 5 :: [] ∧
      (pending ready (.read off .w32)).host = .read (0x10000 * ready.params.baseBlock + off) .w32 :: []) ∧
    accessOk 0xFFFF .w8 = true ∧ accessOk 0x5540 .w16 = true ∧ (Within moduleRam 0x4100 0x1000 ∧ Within moduleRam 0x4100 0x50FF) ∧
    (Within outRam 0xA000 0x6000 ∧ Within outRam 0xA000 0xFFFF) ∧ Stored 0x5543 := by
  refine ⟨by decide +kernel, by decide, by decide, ⟨⟨by decide, by decide⟩, by decide, by decide⟩, ⟨⟨by decide, by decide⟩, by decide, by decide⟩,
    .inr (.inl ⟨by decide, by decide⟩)⟩

theorem witness_BusErrorsAndReserved : (0x1002 % 4 ≠ 0 ∧ 0x1001 % 2 = 1 ∧ (Width.w8 ≠ .w32 ∧ 0xFFF < 0x1000)) ∧
    (pending ready (.read 0x1002 .w32)).host = .read (0x10000 * ready.params.baseBlock + 0x1002) .w32 :: [] ∧
    (pending ready (.write 0x5400 .w32 5)).host = .write (0x10000 * ready.params.baseBlock + 0x5400) .w32 5 :: [] ∧
    accessOk 0x5100 .w8 = true ∧ accessOk 0x53FC .w32 = true ∧ accessOk 0x5544 .w16 = true ∧ accessOk 0x5FFF .w8 = true ∧
    accessOk 0x03C .w32 = true ∧ accessOk 0x060 .w32 = true ∧ accessOk 0xFFC .w32 = true ∧ accessOk 0x5540 .w32 = true ∧
    ready.busy = false := by decide +kernel

theorem witness_ResetValues : (pending (ready.accept 0xF) .reset).host = .reset :: [] := rfl

/-- A reset block with one `pause` pending meets the invariant. -/
theorem witness_StepKeepsInv : (pending State.reset .pause).Inv ∧ ∃ t, step (pending State.reset .pause) = .next t := by
  refine ⟨⟨Memory.wf_atReset 0, by decide, ?_, ?_, by decide, by decide, by decide, rfl, fun h => absurd h (by decide), by decide⟩, _, rfl⟩
  · intro a ha
    have h1 : ¬ (0x1000 ≤ a ∧ a < 0x5100) := fun h => ha (.inl h)
    have h2 : ¬ (0x6000 ≤ a ∧ a < 0x10000) := fun h => ha (.inr (.inr h))
    change (Memory.atReset 0).read a = 0
    simp only [Memory.read, Memory.unlisted, Memory.atReset, cellAt, drawAt, if_neg h1, if_neg h2]
  · intro a ha
    have h1 : ¬ (0x1000 ≤ a ∧ a < 0x5100) := by unfold Within blkDesc at ha; omega
    have h2 : ¬ (0x6000 ≤ a ∧ a < 0x10000) := by unfold Within blkDesc at ha; omega
    change drawAt (Memory.atReset 0).drawn a = none
    simp only [Memory.atReset, drawAt, if_neg h1, if_neg h2]

end Sys2Proof.Tests
end

section
/-! SUPPORT. The engine: for each instruction, once, everything it can do (`Executed`, `exec_executed`), in the terms of the
stages the commands are made of. Later proofs take an executed instruction apart here and unfold no command again. -/

namespace Sys2Proof.Machine

/-- R64, R71: whether an instruction is a command word; the others are segments of the data stream (R73). -/
def isCommand (i : Instr) : Bool :=
  match Laws.Opcode.row i with
  | .command _ _ => true
  | .mode _ => false

/-- What an instruction that answers a next state has done to the state `s`. -/
inductive Executed (s : State) : Instr → State → Prop
  /-- R71, R157, R160: NOP, an illegal word or a failed check: a completion and nothing else -/
  | completed {i : Instr} (code : ErrorCode) (command : isCommand i = true) : Executed s i (s.complete code)
  /-- R161 -/
  | init : Executed s .init ({ s with ready := true, gfTab := some GfTab.build }.complete .ok)
  /-- R116 -/
  | extract {ver : BitVec 6} {mask : BitVec 3} {r : VersionRecord} (ready : s.ready = true) (version : verOk ver = true)
      (record : s.params.record? ver = some r) :
      Executed s (.extract ver mask) ((s.extractStage ver mask r.alignment).complete .ok)
  /-- R122 -/
  | deinterleave {ver : BitVec 6} {ecl : BitVec 2} {e : EcEntry} (ready : s.ready = true) (version : verOk ver = true)
      (count : s.cwCount.toNat ≤ 4096) (entry : s.params.entry? ver ecl = some e) :
      Executed s (.deinterleave ver ecl) ((s.deinterleaveStage e).1.complete (s.deinterleaveStage e).2)
  /-- R136 -/
  | rsDecodeAll {ver : BitVec 6} {ecl : BitVec 2} {e : EcEntry} (ready : s.ready = true) (version : verOk ver = true)
      (entry : s.params.entry? ver ecl = some e) :
      Executed s (.rsDecodeAll ver ecl) ((s.rsDecodeAllStage e).1.complete (s.rsDecodeAllStage e).2)
  /-- R135: the block does not decode: ERRCNT is 0, and nothing is stored -/
  | rsDecodeFailed {n nec : BitVec 8} {code : ErrorCode} (ready : s.ready = true) (block : blockOk n nec = true)
      (failed : rsdecode (s.mem.readBytes rsRam n.toNat) nec.toNat = .fail code) :
      Executed s (.rsDecode n nec) ({ s with errCnt := 0 }.complete code)
  /-- R138: too many positions are erased, or no fill is consistent: ERRCNT is 0, and nothing is stored -/
  | rsFillFailed {n nec : BitVec 8} (code : ErrorCode) (ready : s.ready = true) (block : blockOk n nec = true) :
      Executed s (.rsFill n nec) ({ s with errCnt := 0 }.complete code)
  /-- R135 -/
  | rsDecode {n nec : BitVec 8} {c : List Byte} {nu : Nat} (ready : s.ready = true) (block : blockOk n nec = true)
      (decoded : rsdecode (s.mem.readBytes rsRam n.toNat) nec.toNat = .ok c nu) :
      Executed s (.rsDecode n nec)
        ({ s with mem := s.mem.writeBytes rsRam c, errCnt := BitVec.ofNat 16 nu }.complete .ok)
  /-- R137 -/
  | rsEncode {n nec : BitVec 8} (ready : s.ready = true) (block : blockOk n nec = true) :
      Executed s (.rsEncode n nec) ({ s with
        mem := s.mem.writeBytes (rsRam + (n.toNat - nec.toNat))
          (rsEncodeBlock (s.mem.readBytes rsRam (n.toNat - nec.toNat)) nec.toNat)
        errCnt := 0 }.complete .ok)
  /-- R138 -/
  | rsFill {n nec : BitVec 8} {c : List Byte} (ready : s.ready = true) (block : blockOk n nec = true)
      (count : (s.erasedPositions n.toNat).length ≤ nec.toNat)
      (filled : rsFillBlock (s.mem.readBytes rsRam n.toNat) nec.toNat (s.erasedPositions n.toNat) = some c) :
      Executed s (.rsFill n nec) ({ s with
        mem := s.mem.scatter rsRam ((s.erasedPositions n.toNat).map fun p => (p, c.getD p 0))
        errCnt := BitVec.ofNat 16 (s.erasedPositions n.toNat).length }.complete .ok)
  /-- R154 -/
  | parse {ver : BitVec 6} (ready : s.ready = true) (version : verOk ver = true) (length : s.dlen.toNat ≤ 4096) :
      Executed s (.parse ver) (s.beginParse ver)
  /-- R162: DECODE ends with the code of its stage DEINTERLEAVE -/
  | decodeShort {ver : BitVec 6} {ecl : BitVec 2} {mask : BitVec 3} {r : VersionRecord} {e : EcEntry} {d : State × ErrorCode}
      (ready : s.ready = true) (version : verOk ver = true) (entry : s.params.entry? ver ecl = some e)
      (dealt : d = (s.extractStage ver mask r.alignment).deinterleaveStage e) (failed : d.2 ≠ .ok) :
      Executed s (.decode ver ecl mask) (d.1.complete d.2)
  /-- R162: DECODE ends with the code of its stage RS_DECODE_ALL -/
  | decodeFailed {ver : BitVec 6} {ecl : BitVec 2} {mask : BitVec 3} {r : VersionRecord} {e : EcEntry} {d a : State × ErrorCode}
      (ready : s.ready = true) (version : verOk ver = true) (entry : s.params.entry? ver ecl = some e)
      (dealt : d = (s.extractStage ver mask r.alignment).deinterleaveStage e) (decoded : a = d.1.rsDecodeAllStage e)
      (failed : a.2 ≠ .ok) :
      Executed s (.decode ver ecl mask) (a.1.complete a.2)
  /-- R162: DECODE enters the parse loop -/
  | decodeParses {ver : BitVec 6} {ecl : BitVec 2} {mask : BitVec 3} {r : VersionRecord} {e : EcEntry} {d a : State × ErrorCode}
      (ready : s.ready = true) (version : verOk ver = true) (entry : s.params.entry? ver ecl = some e)
      (dealt : d = (s.extractStage ver mask r.alignment).deinterleaveStage e) (decoded : a = d.1.rsDecodeAllStage e)
      (succeeded : a.2 = .ok) :
      Executed s (.decode ver ecl mask) (a.1.beginParse ver)
  /-- R141, R143 to R145, R150, R152: a segment ends the parse, at a position in the stream -/
  | parseEnded {i : Instr} (code : ErrorCode) {p : Nat} (segment : isCommand i = false)
      (position : s.parser.pos ≤ s.streamEnd → p ≤ s.streamEnd) : Executed s i (s.endParse code p)
  /-- R152: a segment is emitted -/
  | emitted {i : Instr} (typ : BitVec 4) {out : List Byte} (w1 w2 w3 : Word) {p : Nat} (segment : isCommand i = false)
      (room : s.parser.outLen + out.length ≤ outCap) (records : s.parser.nChunk + 1 ≤ chunkCap) (position : p ≤ s.streamEnd) :
      Executed s i { s with
        mem := (s.mem.writeBytes (outRam + s.parser.outLen) out).writeBytes (chunkRam + 16 * s.parser.nChunk)
          (recordBytes (chunkWord0 typ s.parser.pos) w1 w2 w3)
        parser := { s.parser with
          pos := p, outLen := s.parser.outLen + out.length, nChunk := s.parser.nChunk + 1 } }
  /-- R150: an unlisted mode indicator is skipped -/
  | skipped {i : Instr} (segment : isCommand i = false) (position : s.parser.pos + 4 ≤ s.streamEnd) :
      Executed s i { s with parser := { s.parser with pos := s.parser.pos + 4 } }

variable {s t : State}

/-! ## The checks of a command, R157 -/

/-- A command that starts with the READY check either ends there or its rule runs. -/
theorem executed_whenReady {i : Instr} {k : Result} (hi : isCommand i = true) (h : s.whenReady k = .next t)
    (hk : s.ready = true → k = .next t → Executed s i t) : Executed s i t := by
  obtain ⟨-, rfl⟩ | ⟨hr, h⟩ := State.whenReady_cases h
  · exact .completed _ hi
  · exact hk hr h

/-- A command with a READY check and a parameter check either ends at one of them or its rule runs. -/
theorem executed_whenParam {i : Instr} {c : Bool} {k : Result} (hi : isCommand i = true)
    (h : s.whenReady (s.whenParam c k) = .next t) (hk : s.ready = true → c = true → k = .next t → Executed s i t) :
    Executed s i t := by
  refine executed_whenReady hi h fun hr h => ?_
  obtain ⟨-, rfl⟩ | ⟨hc, h⟩ := State.whenParam_cases h
  · exact .completed _ hi
  · exact hk hr hc h

/-! ## The commands -/

theorem execExtract_executed {ver : BitVec 6} {mask : BitVec 3} (h : execExtract ver mask s = .next t) :
    Executed s (.extract ver mask) t := by
  refine executed_whenParam rfl h fun hr hv h => ?_
  obtain ⟨r, hrec, h⟩ := State.withRecord_cases h
  cases h
  exact .extract hr hv hrec

theorem execDeinterleave_executed {ver : BitVec 6} {ecl : BitVec 2} (h : execDeinterleave ver ecl s = .next t) :
    Executed s (.deinterleave ver ecl) t := by
  refine executed_whenParam rfl h fun hr hc h => ?_
  simp only [Bool.and_eq_true, decide_eq_true_eq] at hc
  obtain ⟨e, he, h⟩ := State.withEntry_cases h
  cases h
  exact .deinterleave hr hc.1 hc.2 he

theorem execRsDecodeAll_executed {ver : BitVec 6} {ecl : BitVec 2} (h : execRsDecodeAll ver ecl s = .next t) :
    Executed s (.rsDecodeAll ver ecl) t := by
  refine executed_whenParam rfl h fun hr hv h => ?_
  obtain ⟨e, he, h⟩ := State.withEntry_cases h
  cases h
  exact .rsDecodeAll hr hv he

theorem execRsDecode_executed {n nec : BitVec 8} (h : execRsDecode n nec s = .next t) : Executed s (.rsDecode n nec) t := by
  refine executed_whenParam rfl h fun hr hb h => ?_
  split at h
  · cases h; exact .rsDecode hr hb (by assumption)
  · cases h; exact .rsDecodeFailed hr hb (by assumption)

theorem execRsEncode_executed {n nec : BitVec 8} (h : execRsEncode n nec s = .next t) : Executed s (.rsEncode n nec) t := by
  refine executed_whenParam rfl h fun hr hb h => ?_
  cases h
  exact .rsEncode hr hb

theorem execRsFill_executed {n nec : BitVec 8} (h : execRsFill n nec s = .next t) : Executed s (.rsFill n nec) t := by
  refine executed_whenParam rfl h fun hr hb h => ?_
  dsimp only at h
  split at h
  · cases h; exact .rsFillFailed _ hr hb
  · split at h
    · cases h; exact .rsFill hr hb (by omega) (by assumption)
    · cases h; exact .rsFillFailed _ hr hb

theorem execParse_executed {ver : BitVec 6} (h : execParse ver s = .next t) : Executed s (.parse ver) t := by
  refine executed_whenParam rfl h fun hr hc h => ?_
  simp only [Bool.and_eq_true, decide_eq_true_eq] at hc
  cases h
  exact .parse hr hc.1 hc.2

theorem execDecode_executed {ver : BitVec 6} {ecl : BitVec 2} {mask : BitVec 3} (h : execDecode ver ecl mask s = .next t) :
    Executed s (.decode ver ecl mask) t := by
  refine executed_whenParam rfl h fun hr hv h => ?_
  obtain ⟨r, -, h⟩ := State.withRecord_cases h
  obtain ⟨e, he, h⟩ := State.withEntry_cases h
  dsimp only at h
  split at h
  · cases h; exact .decodeShort (r := r) hr hv he rfl (by assumption)
  · split at h
    · cases h; exact .decodeFailed (r := r) hr hv he rfl rfl (by assumption)
    · rename_i hok
      cases h; exact .decodeParses (r := r) hr hv he rfl rfl (not_not.1 hok)

/-! ## The segments -/

/-- R140: a position that reading gives lies in the stream. -/
theorem readFields_ok_le {limit : Nat} {bad : ErrorCode} {f : Field} {fs : List Field} {pos p : Nat} {out : List Byte}
    (h : readFields limit bad pos (f :: fs) = .ok p out) : p ≤ limit := by
  obtain ⟨-, -, hnil | hle, -⟩ := readFields_ok h
  · cases hnil
  · exact hle

/-- R141: a position at which reading stops lies in the stream, where it started there. -/
theorem readFields_stop_le {limit : Nat} {bad code : ErrorCode} {fs : List Field} {pos p : Nat}
    (h : readFields limit bad pos fs = .stop code p) (hpos : pos ≤ limit) : p ≤ limit := by
  obtain ⟨pre, f, post, -, hp, -, rfl | hle, -⟩ := readFields_stop h
  · simpa [hp] using hpos
  · exact hle

variable {i : Instr}

theorem emit_executed (hi : isCommand i = false) (typ : BitVec 4) (out : List Byte) (w1 w2 w3 : Word) {p : Nat}
    (hp : p ≤ s.streamEnd) : Executed s i (s.emit typ out w1 w2 w3 p) := by
  obtain ⟨-, h⟩ | ⟨ho, hc, h⟩ := s.emit_cases typ out w1 w2 w3 p
  · rw [h]; exact .parseEnded _ hi id
  · rw [h]; exact .emitted typ w1 w2 w3 hi ho hc hp

theorem bytesSegment_executed (hi : isCommand i = false) (typ : BitVec 4) (bad : ErrorCode) (f : Field) (fs : List Field)
    (count : Nat) : Executed s i (s.bytesSegment typ bad (f :: fs) count) := by
  obtain ⟨code, p, hr, h⟩ | ⟨p, out, hr, h⟩ := s.bytesSegment_cases typ bad (f :: fs) count
  · rw [h]; exact .parseEnded code hi (readFields_stop_le hr)
  · rw [h]; exact emit_executed hi _ _ _ _ _ (readFields_ok_le hr)

theorem headerSegment_executed (hi : isCommand i = false) (typ : BitVec 4) (f : Field) (fs : List Field) (w1 : Word) :
    Executed s i (s.headerSegment typ (f :: fs) w1) := by
  obtain ⟨code, p, hr, h⟩ | ⟨p, out, hr, h⟩ := s.headerSegment_cases typ (f :: fs) w1
  · rw [h]; exact .parseEnded code hi (readFields_stop_le hr)
  · rw [h]; exact emit_executed hi _ _ _ _ _ (readFields_ok_le hr)

theorem unlistedMode_executed (hi : isCommand i = false) : Executed s i s.unlistedMode := by
  obtain ⟨-, h⟩ | ⟨hp, -, h⟩ | ⟨-, -, h⟩ := s.unlistedMode_cases
  · rw [h]; exact .parseEnded _ hi id
  · rw [h]; exact .skipped hi hp
  · rw [h]; exact .parseEnded _ hi id

theorem execTerm_executed (h : execTerm s = .next t) : Executed s .term t := by
  unfold execTerm at h
  split at h
  · rename_i hr; cases h; exact .parseEnded _ rfl (readFields_stop_le hr)
  · rename_i hr; cases h; exact .parseEnded _ rfl fun _ => readFields_ok_le hr

/-! ## Every instruction -/

/-- Everything an instruction can do when it answers a next state. -/
theorem exec_executed (h : exec i s = .next t) : Executed s i t := by
  cases i with
  | nop | reservedOp9 | reservedOpA | reservedOpB | reservedOpC | reservedOpD | reservedOpE =>
    obtain rfl := Host.Outcome.next.inj h; exact .completed _ rfl
  | illegalRsv op => obtain rfl := Host.Outcome.next.inj h; exact .completed _ rfl
  | init => obtain rfl := Host.Outcome.next.inj h; exact .init
  | extract ver mask => exact execExtract_executed h
  | deinterleave ver ecl => exact execDeinterleave_executed h
  | rsDecode n nec => exact execRsDecode_executed h
  | rsDecodeAll ver ecl => exact execRsDecodeAll_executed h
  | parse ver => exact execParse_executed h
  | decode ver ecl mask => exact execDecode_executed h
  | rsEncode n nec => exact execRsEncode_executed h
  | rsFill n nec => exact execRsFill_executed h
  | term => exact execTerm_executed h
  | num groups tail => obtain rfl := Host.Outcome.next.inj h; exact bytesSegment_executed rfl _ _ _ _ _
  | alnum pairs last => obtain rfl := Host.Outcome.next.inj h; exact bytesSegment_executed rfl _ _ _ _ _
  | byte bytes => obtain rfl := Host.Outcome.next.inj h; exact bytesSegment_executed rfl _ _ _ _ _
  | kanji chars => obtain rfl := Host.Outcome.next.inj h; exact bytesSegment_executed rfl _ _ _ _ _
  | sa cur tot par => obtain rfl := Host.Outcome.next.inj h; exact headerSegment_executed rfl _ _ _ _
  | eci7 a => obtain rfl := Host.Outcome.next.inj h; exact headerSegment_executed rfl _ _ _ _
  | eci14 a => obtain rfl := Host.Outcome.next.inj h; exact headerSegment_executed rfl _ _ _ _
  | eci21 a => obtain rfl := Host.Outcome.next.inj h; exact headerSegment_executed rfl _ _ _ _
  | eciCorrupt => obtain rfl := Host.Outcome.next.inj h; exact headerSegment_executed rfl _ _ _ _
  | unlisted5 | unlisted6 | unlisted9 | unlistedA | unlistedB | unlistedC | unlistedD | unlistedE | unlistedF =>
    obtain rfl := Host.Outcome.next.inj h; exact unlistedMode_executed rfl

end Sys2Proof.Machine
end

section
/-! SUPPORT. What the stages of the commands can do, and what no instruction writes (R14, R19 to R22, R34, R39, R178). -/

namespace Sys2Proof.Machine

/-! ## The stages DEINTERLEAVE and RS_DECODE_ALL share with DECODE -/

/-- R122: what DEINTERLEAVE does before its completion. -/
theorem State.deinterleaveStage_cases (s : State) (e : EcEntry) :
    (s.cwCount.toNat < e.total ∧ s.deinterleaveStage e = (s.writeDescriptors e, .shortCodewords)) ∨
    (e.total ≤ s.cwCount.toNat ∧ s.deinterleaveStage e = ({ s.writeDescriptors e with
      mem := (s.writeDescriptors e).mem.scatter blkRam ((dealOrder e.ecPerBlock (blockList e)).zip
        ((s.writeDescriptors e).mem.readBytes cwRam e.total)) }, .ok)) := by
  unfold State.deinterleaveStage
  dsimp only
  split
  · exact .inl ⟨by assumption, rfl⟩
  · exact .inr ⟨by omega, rfl⟩

/-- R136: what RS_DECODE_ALL does before its completion. -/
theorem State.rsDecodeAllStage_cases (s : State) (e : EcEntry) {all : AllResult}
    (hall : all = decodeBlocks e.ecPerBlock (s.writeDescriptors e).mem 0 0 (blockList e)) :
    (∃ b code, all.failed = some (b, code) ∧ s.rsDecodeAllStage e = ({ s.writeDescriptors e with
      mem := all.mem, errCnt := BitVec.ofNat 16 all.sum, failBlk := BitVec.ofNat 8 b }, code)) ∨
    (all.failed = none ∧ s.rsDecodeAllStage e = ({ s.writeDescriptors e with
      mem := all.mem.writeBytes dataRam (gatherData all.mem (blockList e))
      dlen := BitVec.ofNat 13 (gatherData all.mem (blockList e)).length
      errCnt := BitVec.ofNat 16 all.sum
      failBlk := 0xFF }, .ok)) := by
  subst hall
  unfold State.rsDecodeAllStage
  dsimp only
  split
  · exact .inl ⟨_, _, by assumption, rfl⟩
  · exact .inr ⟨by assumption, rfl⟩

/-! ## What the engine keeps -/

/-- The fields that no instruction but INIT writes, and INIT only `ready` and `gfTab` (R178). -/
structure EngineKept where
  params : Params
  ready : Bool
  overrun : Bool
  accViol : Bool
  busErr : Bool
  irqEn : Bool
  lcmd : Word
  gfTab : Option GfTab
  erase : BitVec 256
  rdata : Word
  draws : Nat
  host : List HostEvent

/-- The fields of a state that no instruction but INIT writes. -/
def State.kept (s : State) : EngineKept :=
  ⟨s.params, s.ready, s.overrun, s.accViol, s.busErr, s.irqEn, s.lcmd, s.gfTab, s.erase, s.rdata, s.draws, s.host⟩

@[simp] theorem State.complete_kept (s : State) (code : ErrorCode) : (s.complete code).kept = s.kept := rfl
@[simp] theorem State.beginParse_kept (s : State) (ver : BitVec 6) : (s.beginParse ver).kept = s.kept := rfl
@[simp] theorem State.endParse_kept (s : State) (code : ErrorCode) (p : Nat) : (s.endParse code p).kept = s.kept := rfl
@[simp] theorem State.writeDescriptors_kept (s : State) (e : EcEntry) : (s.writeDescriptors e).kept = s.kept := rfl
@[simp] theorem State.extractStage_kept (s : State) (ver : BitVec 6) (mask : BitVec 3) (cs : List Nat) :
    (s.extractStage ver mask cs).kept = s.kept := rfl

@[simp] theorem State.deinterleaveStage_kept (s : State) (e : EcEntry) : (s.deinterleaveStage e).1.kept = s.kept := by
  obtain ⟨-, h⟩ | ⟨-, h⟩ := s.deinterleaveStage_cases e <;> rw [h] <;> rfl

@[simp] theorem State.rsDecodeAllStage_kept (s : State) (e : EcEntry) : (s.rsDecodeAllStage e).1.kept = s.kept := by
  obtain ⟨b, code, -, h⟩ | ⟨-, h⟩ := s.rsDecodeAllStage_cases e rfl <;> rw [h] <;> rfl

/-- An instruction keeps these fields, but that INIT sets READY and GFTAB (R161). -/
theorem Executed.kept {s t : State} {i : Instr} (h : Executed s i t) :
    t.kept = s.kept ∨ (i = .init ∧ t.kept = { s.kept with ready := true, gfTab := some GfTab.build }) := by
  cases h with
  | init => exact .inr ⟨rfl, rfl⟩
  | completed code _ => exact .inl rfl
  | extract _ _ _ => exact .inl ((State.complete_kept ..).trans (s.extractStage_kept ..))
  | deinterleave _ _ _ _ => exact .inl (s.deinterleaveStage_kept _)
  | rsDecodeAll _ _ _ => exact .inl (s.rsDecodeAllStage_kept _)
  | rsDecodeFailed _ _ _ => exact .inl rfl
  | rsFillFailed code _ _ => exact .inl rfl
  | rsDecode _ _ _ => exact .inl rfl
  | rsEncode _ _ => exact .inl rfl
  | rsFill _ _ _ _ => exact .inl rfl
  | parse _ _ _ => exact .inl rfl
  | decodeShort _ _ _ hd _ => exact .inl (by rw [hd]; simp)
  | decodeFailed _ _ _ hd ha _ => exact .inl (by rw [ha, hd]; simp)
  | decodeParses _ _ _ hd ha _ => exact .inl (by rw [ha, hd]; simp)
  | parseEnded code _ _ => exact .inl rfl
  | emitted typ w1 w2 w3 _ _ _ _ => exact .inl rfl
  | skipped _ _ => exact .inl rfl

/-- Settles O14: each of its fields is one of those every instruction keeps. -/
theorem engineKeepsHostState : Obligations.EngineKeepsHostState := by
  intro i s t h
  obtain hk | ⟨hi, hk⟩ := (exec_executed h).kept
  all_goals
    simp only [State.kept, EngineKept.mk.injEq] at hk
    obtain ⟨hparams, hready, hoverrun, haccViol, hbusErr, hirqEn, hlcmd, hgfTab, herase, hrdata, -, hhost⟩ := hk
  · exact ⟨hparams, hirqEn, hoverrun, haccViol, hbusErr, hlcmd, herase, hrdata, hhost, fun _ => ⟨hready, hgfTab⟩⟩
  · exact ⟨hparams, hirqEn, hoverrun, haccViol, hbusErr, hlcmd, herase, hrdata, hhost, fun hne => absurd hi hne⟩

end Sys2Proof.Machine
end

section
/-! SUPPORT. How far each stage stores: the sizes of what the commands write and the offsets they write it at, within the
buffers of R41. -/

namespace Sys2Proof.Machine

/-! ## Extraction, R114, R115 -/

/-- R114: a symbol of `col + 1` columns has at most `(col + 1) / 2` pairs, since column 6 is skipped. -/
theorem scanColumns_length_le (fuel col : Nat) : (scanColumns fuel col).length ≤ (col + 1) / 2 := by
  induction fuel generalizing col with
  | zero => simp [scanColumns]
  | succ fuel ih =>
    have h5 := ih (5 - 2)
    have hc := ih (col - 2)
    simp only [scanColumns]
    split_ifs with hpos h6
    · subst h6; simp only [List.length_cons]; omega
    · simp only [List.length_cons]; omega
    · simp

theorem scanPair_length (dim : Nat) (up : Bool) (col : Nat) : (scanPair dim up col).length = dim * 2 := by
  simp [scanPair, List.length_flatMap]

theorem scanPairs_length (dim : Nat) (up : Bool) (cols : List Nat) :
    (scanPairs dim up cols).length = cols.length * (dim * 2) := by
  induction cols generalizing up with
  | nil => simp [scanPairs]
  | cons col cols ih => simp only [scanPairs, List.length_append, scanPair_length, ih, List.length_cons]; ring

/-- R114: the scan visits at most every module of the grid. -/
theorem scan_length_le (ver : BitVec 6) (centres : List Nat) : (scan ver centres).length ≤ dimOf ver * dimOf ver := by
  have hcols := scanColumns_length_le (dimOf ver) (dimOf ver - 1)
  calc (scan ver centres).length
    _ ≤ (scanPairs (dimOf ver) true (scanColumns (dimOf ver) (dimOf ver - 1))).length := List.length_filter_le ..
    _ = (scanColumns (dimOf ver) (dimOf ver - 1)).length * 2 * dimOf ver := by rw [scanPairs_length]; ring
    _ ≤ dimOf ver * dimOf ver := Nat.mul_le_mul_right _ (by omega)

/-- R115: each whole codeword takes eight bits. -/
theorem packBits_length_le (acc : Byte) (bits : List Bool) {k : Nat} (hk : k < 8) :
    8 * (packBits acc k bits).1.length ≤ k + bits.length := by
  induction bits generalizing acc k with
  | nil => simp [packBits]
  | cons b bits ih =>
    simp only [packBits]
    split_ifs with h8
    · have := ih 0 (k := 0) (by omega)
      simp only [List.length_cons]; omega
    · have := ih ((acc <<< 1) ||| (BitVec.ofBool b).setWidth 8) (k := k + 1) (by omega)
      simp only [List.length_cons]; omega

/-- R116: EXTRACT yields no more codewords than CW_RAM holds. -/
theorem extract_length_le (s : State) {ver : BitVec 6} (mask : BitVec 3) (centres : List Nat) (hv : verOk ver = true) :
    (packBits 0 0 (s.dataBits ver mask centres)).1.length ≤ 4096 := by
  simp only [verOk, Bool.and_eq_true, decide_eq_true_eq] at hv
  have hpack := packBits_length_le 0 (s.dataBits ver mask centres) (k := 0) (by omega)
  have hscan := scan_length_le ver centres
  have hdim : dimOf ver * dimOf ver ≤ 177 * 177 := Nat.mul_self_le_mul_self (by unfold dimOf; omega)
  simp only [State.dataBits, List.length_map] at hpack ⊢
  omega

/-! ## Blocks, R118 to R120 -/

/-- R118: the blocks have the data counts of the entry, in order. -/
theorem blocksFrom_map_ndata (ec start : Nat) (nds : List Nat) : (blocksFrom ec start nds).map (·.ndata) = nds := by
  induction nds generalizing start with
  | nil => rfl
  | cons nd nds ih => simp [blocksFrom, ih]

theorem blockList_map_ndata (e : EcEntry) : (blockList e).map (·.ndata) = e.blocks := blocksFrom_map_ndata ..

theorem blockList_length (e : EcEntry) : (blockList e).length = e.blocks.length := by
  rw [← blockList_map_ndata e, List.length_map]

/-- R119: a block's codewords end by the end of all blocks. -/
theorem blocksFrom_bound {ec start : Nat} {nds : List Nat} {b : Block} (h : b ∈ blocksFrom ec start nds) :
    b.ntotal = b.ndata + ec ∧ b.start + b.ntotal ≤ start + (nds.map (· + ec)).sum := by
  induction nds generalizing start with
  | nil => cases h
  | cons nd nds ih =>
    simp only [List.map_cons, List.sum_cons]
    rcases List.mem_cons.1 h with rfl | h
    · exact ⟨rfl, by dsimp only; omega⟩
    · obtain ⟨htotal, hend⟩ := ih h
      exact ⟨htotal, by omega⟩

theorem blockList_bound {e : EcEntry} {b : Block} (h : b ∈ blockList e) :
    b.ntotal = b.ndata + e.ecPerBlock ∧ b.start + b.ntotal ≤ e.total := by
  obtain ⟨htotal, hend⟩ := blocksFrom_bound h
  exact ⟨htotal, by rwa [Nat.zero_add] at hend⟩

theorem foldl_min_le (xs : List Nat) (m : Nat) : xs.foldl min m ≤ m ∧ ∀ x ∈ xs, xs.foldl min m ≤ x := by
  induction xs generalizing m with
  | nil => simp
  | cons y ys ih =>
    obtain ⟨hm, hys⟩ := ih (min m y)
    refine ⟨hm.trans (min_le_left ..), fun x hx => ?_⟩
    rcases List.mem_cons.1 hx with rfl | hx
    · exact hm.trans (min_le_right ..)
    · exact hys x hx

/-- R119: `dmin` is at most each block's data count. -/
theorem minData_le {bs : List Block} {b : Block} (h : b ∈ bs) : minData bs ≤ b.ndata := by
  cases bs with
  | nil => cases h
  | cons c bs =>
    obtain ⟨hc, hbs⟩ := foldl_min_le (bs.map (·.ndata)) c.ndata
    rcases List.mem_cons.1 h with rfl | h
    · exact hc
    · exact hbs _ (List.mem_map_of_mem h)

/-- R120: every codeword is dealt to an offset below the total. -/
theorem dealOrder_lt {e : EcEntry} {o : Nat} (h : o ∈ dealOrder e.ecPerBlock (blockList e)) : o < e.total := by
  simp only [dealOrder, dealRow, List.mem_append, List.mem_flatMap, List.mem_map, List.mem_range, List.mem_filter,
    decide_eq_true_eq] at h
  obtain (⟨r, hr, b, hb, rfl⟩ | ⟨r, -, b, ⟨hb, hr⟩, rfl⟩) | ⟨r, hr, b, hb, rfl⟩ := h
  · have := blockList_bound hb; have := minData_le hb; omega
  · have := blockList_bound hb; omega
  · have := blockList_bound hb; omega

/-- R136: the gathered stream has as many codewords as the blocks have data codewords. -/
theorem gatherData_length (m : Memory) (e : EcEntry) : (gatherData m (blockList e)).length = e.blocks.sum := by
  simp only [gatherData, List.length_flatMap, Memory.readBytes_length, blockList_map_ndata]

theorem flatMap_bytesOfWord_length (ws : List Word) : (ws.flatMap bytesOfWord).length = 4 * ws.length := by
  simp [List.length_flatMap, bytesOfWord, Nat.mul_comm]

/-- R121: BLKDESC has 81 entries. -/
theorem descriptorWords_length {bs : List Block} (h : bs.length ≤ 81) : (descriptorWords bs).length = 81 := by
  simp only [descriptorWords, List.length_append, List.length_map, List.length_replicate]; omega

/-! ## Reed-Solomon blocks, R126 to R138 -/

@[simp] theorem xorAt_length (c : List Byte) (es : List (Nat × Byte)) : (xorAt c es).length = c.length := by
  induction es generalizing c with
  | nil => rfl
  | cons e es ih => simp [xorAt, ih]

/-- R132: rsdecode corrects a block in place. -/
theorem rsdecode_ok_length {c c' : List Byte} {nEc nu : Nat} (h : rsdecode c nEc = .ok c' nu) : c'.length = c.length := by
  unfold rsdecode at h
  dsimp only at h
  split at h
  · cases h; rfl
  · split at h
    · cases h
    · unfold rsCorrect at h
      dsimp only at h
      split_ifs at h
      cases h
      exact xorAt_length ..

theorem euclidLoop_fail_ne_ok {nEc fuel : Nat} {rLast r tLast t : Poly} {code : ErrorCode}
    (h : euclidLoop nEc fuel rLast r tLast t = .fail code) : code ≠ .ok := by
  induction fuel generalizing rLast r tLast t with
  | zero => cases h; decide
  | succ fuel ih =>
    simp only [euclidLoop] at h
    split_ifs at h
    · cases h; decide
    · cases h; decide
    · exact ih h

/-- R133: rsdecode never fails with OK. -/
theorem rsdecode_fail_ne_ok {c : List Byte} {nEc : Nat} {code : ErrorCode} (h : rsdecode c nEc = .fail code) :
    code ≠ .ok := by
  unfold rsdecode at h
  dsimp only at h
  split at h
  · cases h
  · split at h
    · rename_i heuclid
      cases h
      exact euclidLoop_fail_ne_ok heuclid
    · unfold rsCorrect at h
      dsimp only at h
      split_ifs at h <;> cases h <;> decide

/-- R136: a block that fails does not fail with OK. -/
theorem decodeBlocks_failed_ne_ok {ec : Nat} {m : Memory} {b sum : Nat} {bs : List Block} {k : Nat} {code : ErrorCode}
    (h : (decodeBlocks ec m b sum bs).failed = some (k, code)) : code ≠ .ok := by
  induction bs generalizing m b sum with
  | nil => cases h
  | cons blk bs ih =>
    simp only [decodeBlocks] at h
    split at h
    · exact ih h
    · cases h; exact rsdecode_fail_ne_ok (by assumption)

theorem encodeStep_length_le (gt rem : List Byte) (d : Byte) {n : Nat} (hgt : n = 0 → gt = []) (h : rem.length ≤ n) :
    (encodeStep gt rem d).length ≤ n := by
  simp only [encodeStep, List.length_zipWith, List.length_append, List.length_tail, List.length_singleton]
  rcases Nat.eq_zero_or_pos n with hn | hn
  · simp [hgt hn]
  · omega

/-- R137: the encoder gives no more than NEC codewords. -/
theorem rsEncodeBlock_length_le (data : List Byte) (nEc : Nat) : (rsEncodeBlock data nEc).length ≤ nEc := by
  have hgt : nEc = 0 → (generator nEc).reverse.tail = [] := by rintro rfl; rfl
  have hfold : ∀ rem : List Byte, rem.length ≤ nEc →
      (data.foldl (encodeStep (generator nEc).reverse.tail) rem).length ≤ nEc := by
    induction data with
    | nil => exact fun _ h => h
    | cons d data ih => exact fun rem h => ih _ (encodeStep_length_le _ rem d hgt h)
  exact hfold _ (by simp)

end Sys2Proof.Machine
end

section
/-! SUPPORT. The invariant in two parts: what holds of the memory and the result registers whether a command runs or not
(`State.DataInv`), which each stage of a command keeps, and what BUSY = 1 says of the flags (`State.Running`). -/

namespace Sys2Proof.Machine

/-! ## Memory -/

/-- R41, R45, R54: what the invariant says of memory, `draws` being the number of draws made. -/
structure Memory.Inv (m : Memory) (draws : Nat) : Prop where
  wf : m.wf = true
  drawn : ∀ r ∈ m.drawn, r.draw < draws
  mapped : ∀ a, ¬ Stored a → m.read a = 0
  descriptors : ∀ a, Within blkDesc 324 a → drawAt m.drawn a = none

theorem stored_iff (a : Nat) :
    Stored a ↔ (0x1000 ≤ a ∧ a < 0x5100) ∨ (0x5400 ≤ a ∧ a < 0x5544) ∨ (0x6000 ≤ a ∧ a < 0x10000) := Iff.rfl

/-- Every run left after a cut is of the draw of a run before it. -/
theorem draw_of_mem_drawnCut {lo hi : Nat} {rs : List Drawn} {r : Drawn} (h : r ∈ drawnCut lo hi rs) :
    ∃ q ∈ rs, r.draw = q.draw := by
  induction rs with
  | nil => cases h
  | cons q rs ih =>
    simp only [drawnCut, drawnRun, List.mem_append] at h
    obtain (h | h) | h := h
    · split_ifs at h with hlt
      · exact ⟨q, List.mem_cons_self .., by rw [List.mem_singleton.1 h]⟩
      · cases h
    · split_ifs at h with hlt
      · exact ⟨q, List.mem_cons_self .., by rw [List.mem_singleton.1 h]⟩
      · cases h
    · obtain ⟨x, hx, he⟩ := ih h
      exact ⟨x, List.mem_cons_of_mem _ hx, he⟩

/-- R55: a write to a byte of a buffer or of BLKDESC. -/
theorem Memory.Inv.write {m : Memory} {d a : Nat} (h : m.Inv d) (ha : Stored a) (v : Byte) : (m.write a v).Inv d where
  wf := Memory.wf_write h.wf a v
  drawn r hr := by
    obtain ⟨q, hq, he⟩ := draw_of_mem_drawnCut hr
    exact he ▸ h.drawn q hq
  mapped b hb := by
    have hne : b ≠ a := fun he => hb (he ▸ ha)
    rw [Memory.read_write_other _ _ hne]
    exact h.mapped b hb
  descriptors b hb := by
    change drawAt (drawnCut a (a + 1) m.drawn) b = none
    rw [drawAt_drawnCut _ _ _ _ (Nat.lt_succ_self a), h.descriptors b hb, ite_self]

theorem Memory.Inv.writeBytes {m : Memory} {d a : Nat} {bs : List Byte} (h : m.Inv d)
    (ha : ∀ k < bs.length, Stored (a + k)) : (m.writeBytes a bs).Inv d := by
  induction bs generalizing m a with
  | nil => exact h
  | cons b bs ih =>
    refine ih (h.write (ha 0 (by simp)) b) fun k hk => ?_
    rw [Nat.add_assoc, Nat.add_comm 1]
    exact ha (k + 1) (by simpa using hk)

theorem Memory.Inv.scatter {m : Memory} {d base : Nat} {ps : List (Nat × Byte)} (h : m.Inv d)
    (hp : ∀ p ∈ ps, Stored (base + p.1)) : (m.scatter base ps).Inv d := by
  induction ps generalizing m with
  | nil => exact h
  | cons p ps ih =>
    exact ih (h.write (hp p (List.mem_cons_self ..)) p.2) fun q hq => hp q (List.mem_cons_of_mem _ hq)

/-- R177: memory after reset. -/
theorem Memory.inv_atReset {draw d : Nat} (h : draw < d) : (Memory.atReset draw).Inv d where
  wf := Memory.wf_atReset draw
  drawn := by simpa [Memory.atReset] using h
  mapped a ha := by
    rw [stored_iff] at ha
    simp only [Memory.atReset, Memory.read, Memory.unlisted, cellAt, drawAt]
    rw [if_neg (by omega), if_neg (by omega)]
  descriptors a ha := by
    unfold Within blkDesc at ha
    simp only [Memory.atReset, drawAt]
    rw [if_neg (by omega), if_neg (by omega)]

/-! ## The data of a state -/

/-- The part of the invariant that says nothing of the running command. -/
structure State.DataInv (s : State) : Prop where
  memory : s.mem.Inv s.draws
  tables : s.gfTab = if s.ready then some GfTab.build else none
  results : s.totalCw.toNat ≤ 4096 ∧ s.nBlocks.toNat ≤ 81 ∧ s.bitPos.toNat ≤ 32768 ∧ s.nChunk.toNat ≤ 2048
    ∧ s.outLen.toNat ≤ 8192

/-- R18: a command runs, and the flags are as its acceptance left them. -/
structure State.Running (s : State) : Prop where
  busy : s.busy = true
  done : s.done = false
  err : s.err = false
  errCode : s.errCode = .ok

theorem State.Inv.data {s : State} (h : s.Inv) : s.DataInv :=
  ⟨⟨h.memory, h.drawn, h.mapped, h.descriptors⟩, h.tables, h.results⟩

theorem State.Inv.running {s : State} (h : s.Inv) (hb : s.busy = true) : s.Running := by
  obtain ⟨hdone, hcode⟩ := h.busy hb
  exact ⟨hb, hdone, by simpa [hcode] using h.err, hcode⟩

/-- R158: a completion makes a state whose data are in order meet the invariant, whatever ran. -/
theorem State.DataInv.complete {s : State} {code : ErrorCode} (h : s.DataInv) : (s.complete code).Inv where
  memory := h.memory.wf
  drawn := h.memory.drawn
  mapped := h.memory.mapped
  descriptors := h.memory.descriptors
  err := by simp
  busy hb := nomatch hb
  idle _ := rfl
  tables := h.tables
  parse hp := nomatch hp
  results := h.results

/-- R142: a running state whose data and parser are in order meets the invariant. -/
theorem State.DataInv.inv {s : State} (h : s.DataInv) (hr : s.Running)
    (hp : s.stage = .parse → s.ready = true ∧ s.dlen.toNat ≤ 4096 ∧ s.ParserOk) : s.Inv where
  memory := h.memory.wf
  drawn := h.memory.drawn
  mapped := h.memory.mapped
  descriptors := h.memory.descriptors
  err := by simp [hr.err, hr.errCode]
  busy _ := ⟨hr.done, hr.errCode⟩
  idle hb := absurd hr.busy (by simp [hb])
  tables := h.tables
  parse := hp
  results := h.results

/-- R142: the start of the parse loop. -/
theorem State.DataInv.beginParse {s : State} (h : s.DataInv) (hr : s.Running) (hready : s.ready = true)
    (hlen : s.dlen.toNat ≤ 4096) (ver : BitVec 6) : (s.beginParse ver).Inv :=
  State.DataInv.inv ⟨h.memory, h.tables, h.results⟩ ⟨hr.busy, hr.done, hr.err, hr.errCode⟩
    fun _ => ⟨hready, hlen, Nat.zero_le _, Nat.zero_le _, Nat.zero_le _⟩

/-! ## The stages of the commands -/

/-- R116: EXTRACT stores in CW_RAM. -/
theorem State.DataInv.extractStage {s : State} (h : s.DataInv) {ver : BitVec 6} (mask : BitVec 3) (centres : List Nat)
    (hv : verOk ver = true) : (s.extractStage ver mask centres).DataInv := by
  refine ⟨h.memory.writeBytes fun k hk => ?_, h.tables, h.results⟩
  have := extract_length_le s mask centres hv
  rw [stored_iff]; unfold cwRam; omega

/-- R121: the descriptors stand in BLKDESC. -/
theorem State.DataInv.writeDescriptors {s : State} {e : EcEntry} (h : s.DataInv) (he : e.ok = true) :
    (s.writeDescriptors e).DataInv := by
  obtain ⟨hblocks, htotal, -⟩ := EcEntry.ok_bounds he
  refine ⟨h.memory.writeBytes fun k hk => ?_, h.tables, ?_, ?_, h.results.2.2⟩
  · rw [flatMap_bytesOfWord_length, descriptorWords_length (by rwa [blockList_length])] at hk
    rw [stored_iff]; unfold blkDesc; omega
  · simp only [State.writeDescriptors_totalCw, BitVec.toNat_ofNat]; omega
  · simp only [State.writeDescriptors_nBlocks, BitVec.toNat_ofNat]; omega

/-- R122: DEINTERLEAVE stores in BLKDESC and BLK_RAM. -/
theorem State.DataInv.deinterleaveStage {s : State} {e : EcEntry} (h : s.DataInv) (he : e.ok = true) :
    (s.deinterleaveStage e).1.DataInv := by
  have hw := h.writeDescriptors he
  obtain ⟨-, hd⟩ | ⟨-, hd⟩ := s.deinterleaveStage_cases e
  · rw [hd]; exact hw
  · rw [hd]
    refine ⟨hw.memory.scatter fun p hp => ?_, hw.tables, hw.results⟩
    have hlt := dealOrder_lt (List.of_mem_zip hp).1
    have := (EcEntry.ok_bounds he).2.1
    rw [stored_iff]; unfold blkRam; omega

/-- R136: the corrected blocks stand in BLK_RAM. -/
theorem decodeBlocks_mem_inv {ec d : Nat} {m : Memory} {b sum : Nat} {bs : List Block} (h : m.Inv d)
    (hbs : ∀ blk ∈ bs, blk.start + blk.ntotal ≤ 4096) : (decodeBlocks ec m b sum bs).mem.Inv d := by
  induction bs generalizing m b sum with
  | nil => exact h
  | cons blk bs ih =>
    simp only [decodeBlocks]
    split
    · rename_i hok
      refine ih (h.writeBytes fun k hk => ?_) fun x hx => hbs x (List.mem_cons_of_mem _ hx)
      rw [rsdecode_ok_length hok, Memory.readBytes_length] at hk
      have := hbs blk (List.mem_cons_self ..)
      rw [stored_iff]; unfold blkRam; omega
    · exact h

/-- R136: RS_DECODE_ALL stores in BLKDESC, BLK_RAM and DATA_RAM. -/
theorem State.DataInv.rsDecodeAllStage {s : State} {e : EcEntry} (h : s.DataInv) (he : e.ok = true) :
    (s.rsDecodeAllStage e).1.DataInv := by
  obtain ⟨-, htotal, hdata⟩ := EcEntry.ok_bounds he
  have hw := h.writeDescriptors he
  have hall : (decodeBlocks e.ecPerBlock (s.writeDescriptors e).mem 0 0 (blockList e)).mem.Inv s.draws :=
    decodeBlocks_mem_inv hw.memory fun blk hb => (blockList_bound hb).2.trans htotal
  obtain ⟨b, code, -, hd⟩ | ⟨-, hd⟩ := s.rsDecodeAllStage_cases e rfl
  · rw [hd]; exact ⟨hall, hw.tables, hw.results⟩
  · rw [hd]
    refine ⟨hall.writeBytes fun k hk => ?_, hw.tables, hw.results⟩
    rw [gatherData_length] at hk
    rw [stored_iff]; unfold dataRam; omega

/-- R136: where RS_DECODE_ALL ends with OK, DLEN counts the data codewords. -/
theorem State.rsDecodeAllStage_dlen_le {s : State} {e : EcEntry} (he : e.ok = true) (hok : (s.rsDecodeAllStage e).2 = .ok) :
    (s.rsDecodeAllStage e).1.dlen.toNat ≤ 4096 := by
  have hdata := (EcEntry.ok_bounds he).2.2
  obtain ⟨b, code, hf, hd⟩ | ⟨-, hd⟩ := s.rsDecodeAllStage_cases e rfl
  · rw [hd] at hok
    exact absurd hok (decodeBlocks_failed_ne_ok hf)
  · rw [hd]
    simp only [gatherData_length, BitVec.toNat_ofNat]; omega

/-- R162: the stages of DECODE leave the flags of the running command. -/
theorem State.Running.deinterleaveStage {s : State} (h : s.Running) (e : EcEntry) : (s.deinterleaveStage e).1.Running := by
  obtain ⟨-, hd⟩ | ⟨-, hd⟩ := s.deinterleaveStage_cases e <;> rw [hd] <;> exact ⟨h.busy, h.done, h.err, h.errCode⟩

theorem State.Running.rsDecodeAllStage {s : State} (h : s.Running) (e : EcEntry) : (s.rsDecodeAllStage e).1.Running := by
  obtain ⟨b, code, -, hd⟩ | ⟨-, hd⟩ := s.rsDecodeAllStage_cases e rfl <;> rw [hd] <;>
    exact ⟨h.busy, h.done, h.err, h.errCode⟩

end Sys2Proof.Machine
end

section
/-! SUPPORT. Every step keeps the invariant (R17, R18, R26, R27, R31 to R33, R37, R41, R45, R96): the engine's moves, taken
apart by `exec_executed`, then the host events. -/

namespace Sys2Proof.Machine

variable {s t : State}

/-! ## The engine -/

/-- An entry a command uses is one R111 admits. -/
theorem ok_of_entry {p : Params} {ver : BitVec 6} {ecl : BitVec 2} {e : EcEntry} (h : p.entry? ver ecl = some e) :
    e.ok = true := by
  obtain ⟨r, -, -, hok⟩ := entry?_some h
  exact hok

theorem blockOk_iff (n nec : BitVec 8) : blockOk n nec = true ↔ n.toNat ≠ 0 ∧ nec.toNat ≤ n.toNat := by
  simp [blockOk]

/-- R135, R137, R138: a byte of RS_RAM. -/
theorem stored_rsRam {n : BitVec 8} {k : Nat} (hk : k < n.toNat) : Stored (rsRam + k) := by
  have := n.isLt
  rw [stored_iff]; unfold rsRam; omega

/-- R135: RS_DECODE stores the corrected block in its place. -/
theorem Memory.Inv.rsDecode {m : Memory} {d : Nat} (h : m.Inv d) {n nec : BitVec 8} {c : List Byte} {nu : Nat}
    (hc : rsdecode (m.readBytes rsRam n.toNat) nec.toNat = .ok c nu) : (m.writeBytes rsRam c).Inv d :=
  h.writeBytes fun k hk => by
    rw [rsdecode_ok_length hc, Memory.readBytes_length] at hk
    exact stored_rsRam hk

/-- R137: RS_ENCODE stores the EC codewords after the data codewords of the block. -/
theorem Memory.Inv.rsEncode {m : Memory} {d : Nat} (h : m.Inv d) {n nec : BitVec 8} (hb : blockOk n nec = true)
    (data : List Byte) : (m.writeBytes (rsRam + (n.toNat - nec.toNat)) (rsEncodeBlock data nec.toNat)).Inv d :=
  h.writeBytes fun k hk => by
    have hle := rsEncodeBlock_length_le data nec.toNat
    have hblock := (blockOk_iff n nec).1 hb
    rw [Nat.add_assoc]
    exact stored_rsRam (n := n) (by omega)

/-- R138: RS_FILL stores at erased positions of the block. -/
theorem Memory.Inv.rsFill {m : Memory} {d : Nat} (h : m.Inv d) (n : BitVec 8) (c : List Byte) :
    (m.scatter rsRam ((s.erasedPositions n.toNat).map fun p => (p, c.getD p 0))).Inv d :=
  h.scatter fun q hq => by
    obtain ⟨p, hp, rfl⟩ := List.mem_map.1 hq
    exact stored_rsRam (n := n) (List.mem_range.1 (List.mem_of_mem_filter hp))

/-- R152: an emitted segment stores in OUT_RAM and CHUNK_RAM, within their capacities. -/
theorem Memory.Inv.emit {m : Memory} {d : Nat} (h : m.Inv d) {out : List Byte} {o k : Nat} (ho : o + out.length ≤ outCap)
    (hk : k + 1 ≤ chunkCap) (w0 w1 w2 w3 : Word) :
    ((m.writeBytes (outRam + o) out).writeBytes (chunkRam + 16 * k) (recordBytes w0 w1 w2 w3)).Inv d := by
  unfold outCap at ho
  unfold chunkCap at hk
  refine (h.writeBytes fun j hj => ?_).writeBytes fun j hj => ?_
  · rw [stored_iff]; unfold outRam; omega
  · rw [recordBytes_length] at hj
    rw [stored_iff]; unfold chunkRam; omega

/-- R153: the end of a parse, at a position in a stream of at most 4096 bytes. -/
theorem State.DataInv.endParse (h : s.DataInv) (hlen : s.dlen.toNat ≤ 4096) (hs : s.ParserOk) (code : ErrorCode) {p : Nat}
    (hp : p ≤ s.streamEnd) : (s.endParse code p).Inv := by
  have hended := State.endParse_ended hs code hp
  have ho := hs.out
  have hc := hs.chunks
  unfold State.streamEnd at hp
  unfold outCap at ho
  unfold chunkCap at hc
  obtain ⟨htotal, hblocks, -⟩ := h.results
  refine State.DataInv.complete (s := { s with nChunk := _, outLen := _, bitPos := _ })
    ⟨h.memory, h.tables, htotal, hblocks, ?_, ?_, ?_⟩
  · exact hended.bitPos.trans_le (by omega)
  · exact hended.nChunk.trans_le hc
  · exact hended.outLen.trans_le ho

/-- What a running instruction does keeps the invariant, where a segment is run by the parse loop. -/
theorem Executed.inv {i : Instr} (h : Executed s i t) (hs : s.Inv) (hb : s.busy = true)
    (hseg : isCommand i = false → s.stage = .parse) : t.Inv := by
  have hd := hs.data
  have hrun := hs.running hb
  cases h with
  | completed code _ => exact hd.complete
  | init => exact State.DataInv.complete ⟨hd.memory, rfl, hd.results⟩
  | extract _ hv _ => exact (hd.extractStage _ _ hv).complete
  | deinterleave _ _ _ he => exact (hd.deinterleaveStage (ok_of_entry he)).complete
  | rsDecodeAll _ _ he => exact (hd.rsDecodeAllStage (ok_of_entry he)).complete
  | rsDecodeFailed _ _ _ => exact State.DataInv.complete ⟨hd.memory, hd.tables, hd.results⟩
  | rsFillFailed code _ _ => exact State.DataInv.complete ⟨hd.memory, hd.tables, hd.results⟩
  | rsDecode _ _ hc => exact State.DataInv.complete ⟨hd.memory.rsDecode hc, hd.tables, hd.results⟩
  | rsEncode _ hn => exact State.DataInv.complete ⟨hd.memory.rsEncode hn _, hd.tables, hd.results⟩
  | rsFill _ _ _ _ => exact State.DataInv.complete ⟨hd.memory.rsFill _ _, hd.tables, hd.results⟩
  | parse hready _ hlen => exact hd.beginParse hrun hready hlen _
  | decodeShort _ hv he hdealt _ =>
    rw [hdealt]
    exact ((hd.extractStage _ _ hv).deinterleaveStage (ok_of_entry he)).complete
  | decodeFailed _ hv he hdealt hdecoded _ =>
    rw [hdecoded, hdealt]
    exact (((hd.extractStage _ _ hv).deinterleaveStage (ok_of_entry he)).rsDecodeAllStage (ok_of_entry he)).complete
  | @decodeParses ver ecl mask r e d a hready hv he hdealt hdecoded hok =>
    have hok' := ok_of_entry he
    have hkept : a.1.kept = s.kept := by rw [hdecoded, hdealt]; simp
    have hextract : (s.extractStage ver mask r.alignment).Running := ⟨hrun.busy, hrun.done, hrun.err, hrun.errCode⟩
    subst hdealt hdecoded
    exact (((hd.extractStage _ _ hv).deinterleaveStage hok').rsDecodeAllStage hok').beginParse
      ((hextract.deinterleaveStage _).rsDecodeAllStage _) ((congrArg EngineKept.ready hkept).trans hready)
      (State.rsDecodeAllStage_dlen_le hok' hok) _
  | parseEnded code hi hp =>
    obtain ⟨-, hlen, hparser⟩ := hs.parse (hseg hi)
    exact hd.endParse hlen hparser code (hp hparser.pos)
  | emitted typ w1 w2 w3 hi ho hc hp =>
    obtain ⟨hready, hlen, hparser⟩ := hs.parse (hseg hi)
    refine State.DataInv.inv ⟨hd.memory.emit ho hc _ _ _ _, hd.tables, hd.results⟩
      ⟨hrun.busy, hrun.done, hrun.err, hrun.errCode⟩ fun _ => ⟨hready, hlen, hp, ho, hc⟩
  | skipped hi hp =>
    obtain ⟨hready, hlen, hparser⟩ := hs.parse (hseg hi)
    exact State.DataInv.inv ⟨hd.memory, hd.tables, hd.results⟩ ⟨hrun.busy, hrun.done, hrun.err, hrun.errCode⟩
      fun _ => ⟨hready, hlen, hp, hparser.out, hparser.chunks⟩

/-- R63, R64, R71: a command word stands for a command. -/
theorem isCommand_decodeCommand (w : Word) : isCommand (decodeCommand w) = true := by
  unfold decodeCommand
  split
  · rfl
  · split <;> rfl

/-- R151: the exit of the parse loop. -/
theorem State.DataInv.parseExit (h : s.DataInv) (hlen : s.dlen.toNat ≤ 4096) (hs : s.ParserOk) : s.parseExit.Inv := by
  obtain he | he := s.parseExit_cases
  · rw [he]; exact h.endParse hlen hs _ le_rfl
  · rw [he]; exact h.endParse hlen hs _ hs.pos

/-- R142, R157: one move of a running engine keeps the invariant. -/
theorem engineStep_inv (hs : s.Inv) (hb : s.busy = true) (h : engineStep s = .next t) : t.Inv := by
  unfold engineStep at h
  split at h
  · refine (exec_executed h).inv hs hb fun hi => ?_
    rw [isCommand_decodeCommand] at hi
    cases hi
  · rename_i hstage
    split at h
    · exact (exec_executed h).inv hs hb fun _ => hstage
    · cases h
      obtain ⟨-, hlen, hparser⟩ := hs.parse hstage
      exact hs.data.parseExit hlen hparser

/-- R175: an engine that may be idle. -/
theorem engineTurn_inv (hs : s.Inv) (h : engineTurn s = .next t) : t.Inv := by
  unfold engineTurn at h
  split at h
  · exact engineStep_inv hs (by assumption) h
  · cases h; exact hs

/-! ## The host events -/

/-- The fields the invariant does not speak of may change freely, and draws may be made. -/
theorem State.Inv.of_frame (h : s.Inv) (ht : t = { s with
      overrun := t.overrun, accViol := t.accViol, busErr := t.busErr, irqEn := t.irqEn, irqPend := t.irqPend,
      cwCount := t.cwCount, erase := t.erase, rdata := t.rdata, draws := t.draws, host := t.host })
    (hd : s.draws ≤ t.draws) : t.Inv := by
  rw [ht]
  refine ⟨h.memory, fun r hr => (h.drawn r hr).trans_le hd, h.mapped, h.descriptors, h.err, h.busy, h.idle, h.tables,
    fun hp => ?_, h.results⟩
  obtain ⟨hready, hlen, hparser⟩ := h.parse hp
  exact ⟨hready, hlen, hparser.pos, hparser.out, hparser.chunks⟩

/-- R156: an accepted command. -/
theorem State.Inv.accept (h : s.Inv) (w : Word) : (s.accept w).Inv :=
  State.DataInv.inv ⟨h.data.memory, h.data.tables, h.data.results⟩ ⟨rfl, rfl, rfl, rfl⟩ nofun

/-- R23: DLEN is written while idle, so outside the parse loop. -/
theorem State.Inv.withDlen (h : s.Inv) (hb : s.busy = false) (v : BitVec 13) : ({ s with dlen := v } : State).Inv where
  __ := h
  parse hp := by
    have hstage := h.idle hb
    exact absurd hp (by simp [hstage])

/-- R55: memory is written while idle. -/
theorem State.Inv.withMem (h : s.Inv) (hb : s.busy = false) {m : Memory} (hm : m.Inv s.draws) :
    ({ s with mem := m } : State).Inv where
  __ := h
  memory := hm.wf
  drawn := hm.drawn
  mapped := hm.mapped
  descriptors := hm.descriptors
  parse hp := by
    have hstage := h.idle hb
    exact absurd hp (by simp [hstage])

/-- R41: an allowed access to a buffer lies in it. -/
theorem stored_of_ram {off k : Nat} {w : Width} (ho : off < 0x10000) (ha : accessOk off w = true)
    (hr : regionOf off = .ram) (hk : k < w.bytes) : Stored (off + k) := by
  have hreg : (0x1000 ≤ off ∧ off < 0x5100) ∨ 0x6000 ≤ off := by
    unfold regionOf at hr
    split_ifs at hr
    · omega
    · omega
  rw [stored_iff]
  cases w with
  | w8 => simp only [Width.bytes] at hk; omega
  | w16 => simp [accessOk] at ha; simp only [Width.bytes] at hk; omega
  | w32 => simp [accessOk] at ha; simp only [Width.bytes] at hk; omega
  | other => cases ha

/-- R13, R19 to R24, R34 to R36: a write to a register keeps the invariant. -/
theorem writeReg_inv (h : s.Inv) (r : Reg) (v : Word) : (s.writeReg r v).Inv := by
  cases r with
  | cmd =>
    simp only [State.writeReg]
    split
    · exact h.of_frame rfl le_rfl
    · exact h.accept v
  | dlen =>
    simp only [State.writeReg]
    split
    · exact h.of_frame rfl le_rfl
    · exact h.withDlen (by simpa using ‹¬ s.busy = true›) _
  | cwCount | erase k =>
    simp only [State.writeReg]
    split <;> exact h.of_frame rfl le_rfl
  | status | irq => exact h.of_frame rfl le_rfl
  | id | remBits | totalCw | nBlocks | ecCount | errCnt | failBlk | bitPos | nChunk | outLen | unlisted => exact h

/-- R54, R55, R57: a host write keeps the invariant. -/
theorem hostWrite_inv (h : s.Inv) {off : Nat} (ho : off < 0x10000) (w : Width) (v : Word) : (s.hostWrite off w v).Inv := by
  unfold State.hostWrite
  split
  · rename_i hacc
    split
    · exact writeReg_inv h _ v
    · exact h
    · rename_i hram
      split
      · exact h.of_frame rfl le_rfl
      · refine h.withMem (by simpa using ‹¬ s.busy = true›) (h.data.memory.writeBytes fun k hk => ?_)
        rw [List.length_take] at hk
        exact stored_of_ram ho hacc hram (by omega)
    · exact h
  · exact h.of_frame rfl le_rfl

/-- R36, R57: a host read makes at most one draw. -/
theorem draws_le_hostRead (s : State) (off : Nat) (w : Width) : s.draws ≤ (s.hostRead off w).draws := by
  unfold State.hostRead
  split
  · split
    · split <;> simp
    · simp
    · split <;> simp
    · split <;> simp
  · simp

theorem hostRead_inv (h : s.Inv) (off : Nat) (w : Width) : (s.hostRead off w).Inv := by
  have hf := s.hostRead_frame off w
  refine h.of_frame ?_ (draws_le_hostRead s off w)
  generalize s.hostRead off w = t at hf
  rw [hf]

/-- R176: the state after reset meets the invariant. -/
theorem afterReset_inv (p : Params) (draw : Nat) (host : List HostEvent) : (State.afterReset p draw host).Inv where
  memory := (Memory.inv_atReset (Nat.lt_succ_self draw)).wf
  drawn := (Memory.inv_atReset (Nat.lt_succ_self draw)).drawn
  mapped := (Memory.inv_atReset (Nat.lt_succ_self draw)).mapped
  descriptors := (Memory.inv_atReset (Nat.lt_succ_self draw)).descriptors
  err := by simp [State.afterReset]
  busy hb := nomatch hb
  idle _ := rfl
  tables := rfl
  parse hp := nomatch hp
  results := by simp [State.afterReset]

/-- R41: an offset in the window has 16 bits. -/
theorem windowOffset_lt {p : Params} {addr off : Nat} (h : windowOffset p addr = some off) : off < 0x10000 := by
  unfold windowOffset at h
  split at h
  · cases h; exact Nat.mod_lt _ (by decide)
  · cases h

/-- One pending host event keeps the invariant. -/
theorem hostStep_inv (hs : s.Inv) {e : HostEvent} {rest : List HostEvent} (h : hostStep s e rest = .next t) : t.Inv := by
  have hrest : ({ s with host := rest } : State).Inv := hs.of_frame rfl le_rfl
  cases e with
  | write addr w v =>
    simp only [hostStep] at h
    split at h
    · cases h; exact hostWrite_inv hrest (windowOffset_lt (by assumption)) w v
    · cases h
  | read addr w =>
    simp only [hostStep] at h
    split at h
    · cases h; exact hostRead_inv hrest _ w
    · cases h
  | pause => exact engineTurn_inv hrest h
  | wait =>
    simp only [hostStep] at h
    split at h
    · exact engineStep_inv hs (by assumption) h
    · cases h; exact hrest
  | reset => cases h; exact afterReset_inv ..

/-- Settles O59: an engine move where nothing is pending, else the first host event. -/
theorem stepKeepsInv : Obligations.StepKeepsInv := by
  intro s t hs h
  unfold step at h
  split at h
  · exact engineTurn_inv hs h
  · exact hostStep_inv hs h

end Sys2Proof.Machine
end

section
/-! SUPPORT. The checks before a command's rule (R157): a command that fails one completes and does nothing else. -/

namespace Sys2Proof.Machine

theorem verOk_eq_false_iff (ver : BitVec 6) : verOk ver = false ↔ ver.toNat = 0 ∨ 40 < ver.toNat := by
  rw [← Bool.not_eq_true, verOk, Bool.and_eq_true, decide_eq_true_eq, decide_eq_true_eq]
  omega

theorem blockOk_eq_false_iff (n nec : BitVec 8) : blockOk n nec = false ↔ n.toNat = 0 ∨ n.toNat < nec.toNat := by
  rw [← Bool.not_eq_true, blockOk_iff]
  omega

variable {s : State} {i : Instr} {k : Result}

/-- R158: what `complete` leaves is a completion, and nothing else. -/
theorem completesWithNothingElse {code : ErrorCode} (h : exec i s = .next (s.complete code)) :
    CompletesWithNothingElse i s code :=
  ⟨_, h, ⟨rfl, by simp, rfl, rfl, rfl⟩, rfl⟩

/-- R157 step 2. -/
theorem completes_notReady (h : exec i s = s.whenReady k) (hr : s.ready = false) :
    CompletesWithNothingElse i s .notReady :=
  completesWithNothingElse (h.trans (State.whenReady_notReady k hr))

/-- R157 step 3. -/
theorem completes_param {c : Bool} (h : exec i s = s.whenReady (s.whenParam c k)) (hr : s.ready = true) (hc : c = false) :
    CompletesWithNothingElse i s .param := by
  subst hc
  exact completesWithNothingElse (h.trans (State.whenReady_ready _ hr))

/-- R157 step 2: the instructions that need READY end there without it. -/
theorem needsReady_completes (hi : i.needsReady) (hr : s.ready = false) : CompletesWithNothingElse i s .notReady := by
  cases i with
  | extract ver mask => exact completes_notReady rfl hr
  | deinterleave ver ecl => exact completes_notReady rfl hr
  | rsDecode n nec => exact completes_notReady rfl hr
  | rsDecodeAll ver ecl => exact completes_notReady rfl hr
  | parse ver => exact completes_notReady rfl hr
  | decode ver ecl mask => exact completes_notReady rfl hr
  | rsEncode n nec => exact completes_notReady rfl hr
  | rsFill n nec => exact completes_notReady rfl hr
  | _ => cases hi

/-- R65, R69, R157 step 3: an operand outside its range ends the command. -/
theorem badParam_completes (hi : i.badParam s) (hr : s.ready = true) : CompletesWithNothingElse i s .param := by
  cases i with
  | extract ver mask => exact completes_param rfl hr ((verOk_eq_false_iff ver).2 hi)
  | rsDecodeAll ver ecl => exact completes_param rfl hr ((verOk_eq_false_iff ver).2 hi)
  | decode ver ecl mask => exact completes_param rfl hr ((verOk_eq_false_iff ver).2 hi)
  | deinterleave ver ecl =>
    refine completes_param rfl hr ?_
    obtain hv | hv | hc := hi
    · rw [(verOk_eq_false_iff ver).2 (.inl hv), Bool.false_and]
    · rw [(verOk_eq_false_iff ver).2 (.inr hv), Bool.false_and]
    · rw [decide_eq_false (Nat.not_le.2 hc), Bool.and_false]
  | parse ver =>
    refine completes_param rfl hr ?_
    obtain hv | hv | hl := hi
    · rw [(verOk_eq_false_iff ver).2 (.inl hv), Bool.false_and]
    · rw [(verOk_eq_false_iff ver).2 (.inr hv), Bool.false_and]
    · rw [decide_eq_false (Nat.not_le.2 hl), Bool.and_false]
  | rsDecode n nec => exact completes_param rfl hr ((blockOk_eq_false_iff n nec).2 hi)
  | rsEncode n nec => exact completes_param rfl hr ((blockOk_eq_false_iff n nec).2 hi)
  | rsFill n nec => exact completes_param rfl hr ((blockOk_eq_false_iff n nec).2 hi)
  | _ => cases hi

/-- Settles O10. -/
theorem checksBeforeTheRule : Obligations.ChecksBeforeTheRule :=
  fun _ _ => ⟨needsReady_completes, badParam_completes⟩

end Sys2Proof.Machine
end

section
/-! SUPPORT. Host accesses to the registers (R11 to R36): the step that handles a pending 32-bit access in the window, then
what each register reads and takes. -/

namespace Sys2Proof.Machine

variable {s : State} {rest : List HostEvent}

/-! ## The step of a pending access -/

/-- R41: the bus address of an offset of the window. -/
theorem windowOffset_base (p : Params) {off : Nat} (h : off < 0x10000) :
    windowOffset p (0x10000 * p.baseBlock + off) = some off := by
  unfold windowOffset
  rw [if_pos (by omega)]
  congr 1
  omega

theorem step_read {off : Nat} {w : Width} (h : s.host = .read (0x10000 * s.params.baseBlock + off) w :: rest)
    (ho : off < 0x10000) : step s = .next (({ s with host := rest } : State).hostRead off w) := by
  unfold step
  rw [h]
  simp only [hostStep, windowOffset_base s.params ho]

theorem step_write {off : Nat} {w : Width} {v : Word}
    (h : s.host = .write (0x10000 * s.params.baseBlock + off) w v :: rest) (ho : off < 0x10000) :
    step s = .next (({ s with host := rest } : State).hostWrite off w v) := by
  unfold step
  rw [h]
  simp only [hostStep, windowOffset_base s.params ho]

/-- R11, R52: a word offset of the registers is a register, and a 32-bit access to it is allowed. -/
theorem register_access {off : Nat} (ho : off < 0x1000) (ha : off % 4 = 0) :
    accessOk off .w32 = true ∧ regionOf off = .register (regAt off) := by
  refine ⟨by simp [accessOk, ha], ?_⟩
  unfold regionOf
  rw [if_pos ho, ha, Nat.sub_zero]

/-- R18, R35, R36: a read of a register whose value is defined. -/
theorem step_readReg {off : Nat} (h : s.host = .read (0x10000 * s.params.baseBlock + off) .w32 :: rest)
    (ho : off < 0x1000) (ha : off % 4 = 0) (hd : s.busy = false ∨ (regAt off).definedWhileBusy = true) :
    step s = .next { s with host := rest, rdata := s.readReg (regAt off) } := by
  obtain ⟨hacc, hreg⟩ := register_access ho ha
  have hdef : (s.busy && !(regAt off).definedWhileBusy) = false := by
    obtain hb | hd := hd
    · rw [hb, Bool.false_and]
    · rw [hd, Bool.not_true, Bool.and_false]
  have hbusy : ({ s with host := rest } : State).busy = s.busy := rfl
  rw [step_read h (by omega)]
  simp only [State.hostRead, hacc, hreg, hbusy, hdef, if_true, Bool.false_eq_true, if_false]
  rfl

/-- R36: a read of an operand or result register while busy. -/
theorem step_readReg_busy {off : Nat} (h : s.host = .read (0x10000 * s.params.baseBlock + off) .w32 :: rest)
    (ho : off < 0x1000) (ha : off % 4 = 0) (hb : s.busy = true) (hd : (regAt off).definedWhileBusy = false) :
    step s = .next { s with host := rest, rdata := Config.unspecifiedWord s.draws, draws := s.draws + 1 } := by
  obtain ⟨hacc, hreg⟩ := register_access ho ha
  have hbusy : ({ s with host := rest } : State).busy = true := hb
  rw [step_read h (by omega)]
  simp only [State.hostRead, hacc, hreg, hbusy, hd, if_true, Bool.not_false, Bool.and_self]
  rfl

/-- R13, R19 to R24, R34 to R36: a write to a register. -/
theorem step_writeReg {off : Nat} {v : Word} (h : s.host = .write (0x10000 * s.params.baseBlock + off) .w32 v :: rest)
    (ho : off < 0x1000) (ha : off % 4 = 0) : step s = .next (({ s with host := rest } : State).writeReg (regAt off) v) := by
  obtain ⟨hacc, hreg⟩ := register_access ho ha
  rw [step_write h (by omega)]
  simp only [State.hostWrite, hacc, hreg, if_true]

/-! ## STATUS and IRQ, R14 to R22, R169 -/

/-- R14 to R17, R19 to R21: the flags of STATUS, each at its bit. -/
theorem statusWord_flags (s : State) :
    s.statusWord.getLsbD 0 = s.ready ∧ s.statusWord.getLsbD 1 = s.busy ∧ s.statusWord.getLsbD 2 = s.done ∧
    s.statusWord.getLsbD 3 = s.err ∧ s.statusWord.getLsbD 16 = s.overrun ∧ s.statusWord.getLsbD 17 = s.accViol ∧
    s.statusWord.getLsbD 18 = s.busErr := by
  simp only [State.statusWord, bit, BitVec.getLsbD_append, BitVec.getLsbD_ofBool]
  simp

/-- R14, R17: the reserved fields of STATUS and ERRCODE. -/
theorem statusWord_fields (s : State) : s.statusWord.extractLsb' 4 4 = 0 ∧
    s.statusWord.extractLsb' 8 8 = s.errCode.toByte ∧ s.statusWord.extractLsb' 19 13 = 0 := by
  simp (disch := omega) only [State.statusWord, BitVec.extractLsb'_append_eq_of_le, BitVec.extractLsb'_append_eq_of_add_le,
    Nat.reduceSub, BitVec.extractLsb'_eq_self, and_self]

/-- R22: IRQ_EN, IRQ_PEND and the reserved field of IRQ. -/
theorem irqWord_fields (s : State) : s.irqWord.getLsbD 0 = s.irqEn ∧ s.irqWord.getLsbD 1 = s.irqPend ∧
    s.irqWord.extractLsb' 2 30 = 0 := by
  simp only [State.irqWord, bit, BitVec.getLsbD_append, BitVec.getLsbD_ofBool, BitVec.extractLsb'_append_eq_ite]
  simp

/-- Settles O52. -/
theorem statusAndIrq : Obligations.StatusAndIrq := by
  intro s rest v
  refine ⟨fun h => ?_, fun h => ?_, fun h => ?_, fun h => ?_, ?_⟩
  · obtain ⟨hready, hbusy, hdone, herr, hoverrun, haccViol, hbusErr⟩ := statusWord_flags s
    obtain ⟨hlow, hcode, hhigh⟩ := statusWord_fields s
    exact ⟨s.statusWord, step_readReg h (by decide) rfl (.inr rfl), hready, hbusy, hdone, herr, hlow, hcode, hoverrun,
      haccViol, hbusErr, hhigh⟩
  · exact step_writeReg h (by decide) rfl
  · exact ⟨s.irqWord, step_readReg h (by decide) rfl (.inr rfl), irqWord_fields s⟩
  · exact step_writeReg h (by decide) rfl
  · rw [State.irq, Bool.and_eq_true]

/-! ## The operand and result registers, R23 to R36 -/

/-- R34: an ERASE register is 32 bits of the erasure map. -/
theorem eq_eraseReg {s : State} {k : Nat} {value : Word}
    (h : ∀ j < 32, value.getLsbD j = s.erase.getLsbD (32 * k + j)) : value = s.eraseReg k := by
  refine BitVec.eq_of_getLsbD_eq fun j hj => ?_
  rw [h j hj, State.eraseReg, BitVec.getLsbD_extractLsb', decide_eq_true hj, Bool.true_and]

/-- R11: the eight ERASE registers. -/
theorem regAt_erase {k : Nat} (hk : k < 8) : regAt (0x040 + 4 * k) = .erase k := by
  interval_cases k <;> rfl

/-- R35: the offsets past the registers. -/
theorem regAt_unlisted {off : Nat} (h : 0x060 ≤ off) : regAt off = .unlisted := by
  unfold regAt
  split
  case h_16 => exact if_neg (by omega)
  all_goals omega

/-- Settles O53: each offset is that of its register, which reads its value where that is defined. -/
theorem registerReads : Obligations.RegisterReads := by
  intro s off rest h
  refine ⟨?_, ?_, fun value hv => ?_⟩
  · rintro rfl; exact step_readReg h (by decide) rfl (.inr rfl)
  · rintro rfl; exact step_readReg h (by decide) rfl (.inr rfl)
  · have hreg : off < 0x1000 ∧ off % 4 = 0 ∧ (regAt off).definedWhileBusy = false ∧ s.readReg (regAt off) = value := by
      rcases hv with ⟨rfl, rfl⟩ | ⟨rfl, rfl⟩ | ⟨rfl, rfl⟩ | ⟨rfl, rfl⟩ | ⟨rfl, rfl⟩ | ⟨rfl, rfl⟩ | ⟨rfl, rfl⟩ | ⟨rfl, rfl⟩
        | ⟨rfl, rfl⟩ | ⟨rfl, rfl⟩ | ⟨rfl, rfl⟩ | ⟨k, hk, rfl, hval⟩
      case inr.inr.inr.inr.inr.inr.inr.inr.inr.inr.inr =>
        rw [regAt_erase hk]
        exact ⟨by omega, by omega, rfl, (eq_eraseReg hval).symm⟩
      all_goals exact ⟨by decide, rfl, rfl, rfl⟩
    obtain ⟨ho, ha, hd, rfl⟩ := hreg
    exact ⟨fun hb => step_readReg h ho ha (.inl hb), fun hb => ⟨_, step_readReg_busy h ho ha hb hd⟩⟩

/-- R34: the erasure map after a write to one of its registers. -/
theorem getLsbD_setEraseReg (map : BitVec 256) {k p : Nat} (v : Word) (hp : p < 256) :
    (setEraseReg map k v).getLsbD p = if p / 32 = k then v.getLsbD (p % 32) else map.getLsbD p := by
  have hones : ∀ i, (0xFFFFFFFF#256).getLsbD i = decide (i < 32) := fun i => by
    rw [show 0xFFFFFFFF#256 = (BitVec.allOnes 32).setWidth 256 by rfl, BitVec.getLsbD_setWidth, BitVec.getLsbD_allOnes]
    simp only [Bool.and_eq_right_iff_imp, decide_eq_true_eq]
    omega
  simp only [setEraseReg, BitVec.getLsbD_or, BitVec.getLsbD_and, BitVec.getLsbD_not, BitVec.getLsbD_shiftLeft, hones,
    BitVec.getLsbD_setWidth]
  split
  · have hlow : ¬ p < 32 * k := by omega
    have hbit : p - 32 * k = p % 32 := by omega
    have hmod : p % 32 < 256 := by omega
    simp [hp, hlow, hbit, hmod, Nat.mod_lt]
  · by_cases hlow : p < 32 * k
    · simp [hp, hlow]
    · have hhigh : 32 ≤ p - 32 * k := by omega
      simp [hp, hlow, hhigh, Nat.not_lt.2 hhigh]

/-! ## Writes of the operand registers -/

/-- R20, R36: a write to an operand register while busy is dropped. -/
theorem writeReg_busy {r : Reg} (hr : r.isOperand = true) (hb : s.busy = true) (v : Word) :
    s.writeReg r v = { s with accViol := true } := by
  cases r with
  | dlen | cwCount | erase k => simp only [State.writeReg, hb, if_true]
  | _ => cases hr

theorem writeReg_dlen (hb : s.busy = false) (v : Word) : s.writeReg .dlen v = { s with dlen := v.setWidth 13 } := by
  simp only [State.writeReg, hb, Bool.false_eq_true, if_false]

theorem writeReg_cwCount (hb : s.busy = false) (v : Word) :
    s.writeReg .cwCount v = { s with cwCount := v.setWidth 13 } := by
  simp only [State.writeReg, hb, Bool.false_eq_true, if_false]

theorem writeReg_erase (hb : s.busy = false) (k : Nat) (v : Word) :
    s.writeReg (.erase k) v = { s with erase := setEraseReg s.erase k v } := by
  simp only [State.writeReg, hb, Bool.false_eq_true, if_false]

/-- R11, R35: the read-only registers and the offsets R11 does not list ignore writes. -/
theorem writeReg_ignored {off : Nat} (s : State) (v : Word)
    (h : off ∈ [0x000, 0x018, 0x01C, 0x020, 0x024, 0x028, 0x02C, 0x030, 0x034, 0x038, 0x03C] ∨ 0x060 ≤ off) :
    s.writeReg (regAt off) v = s := by
  obtain h | h := h
  · simp only [List.mem_cons, List.not_mem_nil, or_false] at h
    rcases h with rfl | rfl | rfl | rfl | rfl | rfl | rfl | rfl | rfl | rfl | rfl <;> rfl
  · rw [regAt_unlisted h]; rfl

/-- Settles O54. -/
theorem registerWrites : Obligations.RegisterWrites := by
  intro s off v rest h
  have hbusy : ({ s with host := rest } : State).busy = s.busy := rfl
  refine ⟨?_, ?_, ?_, fun hb hoff => ?_, fun hoff => ?_⟩
  · rintro hb rfl
    exact (step_writeReg h (by decide) rfl).trans (congrArg _ (writeReg_dlen (hbusy.trans hb) v))
  · rintro hb rfl
    exact (step_writeReg h (by decide) rfl).trans (congrArg _ (writeReg_cwCount (hbusy.trans hb) v))
  · rintro k hk hb rfl
    refine ⟨setEraseReg s.erase k v, ?_, fun p hp => getLsbD_setEraseReg s.erase v hp⟩
    rw [step_writeReg h (by omega) (by omega), regAt_erase hk]
    exact congrArg _ (writeReg_erase (hbusy.trans hb) k v)
  · have hreg : off < 0x1000 ∧ off % 4 = 0 ∧ (regAt off).isOperand = true := by
      obtain rfl | rfl | ⟨k, hk, rfl⟩ := hoff
      · exact ⟨by decide, rfl, rfl⟩
      · exact ⟨by decide, rfl, rfl⟩
      · rw [regAt_erase hk]; exact ⟨by omega, by omega, rfl⟩
    obtain ⟨ho, ha, hop⟩ := hreg
    exact (step_writeReg h ho ha).trans (congrArg _ (writeReg_busy hop (hbusy.trans hb) v))
  · have hrange : off < 0x1000 ∧ off % 4 = 0 := by
      obtain hmem | ⟨-, hlt, hal⟩ := hoff
      · clear h; revert off; decide
      · exact ⟨hlt, hal⟩
    rw [step_writeReg h hrange.1 hrange.2]
    exact congrArg _ (writeReg_ignored _ v (hoff.imp_right And.left))

end Sys2Proof.Machine
end

section
/-! SUPPORT. Which bytes each operation stores to (R41, R55, R182): the stages of the commands, the commands, the segments. -/

namespace Sys2Proof.Machine

variable {s t u : State}

/-! ## Frames -/

theorem SameBytesBut.of_mem_eq {p : Nat → Prop} (h : t.mem = s.mem) : SameBytesBut s t p := fun _ _ => by rw [h]

theorem SameBytesBut.mono {p q : Nat → Prop} (h : SameBytesBut s t p) (hpq : ∀ a, p a → q a) : SameBytesBut s t q :=
  fun a ha => h a (mt (hpq a) ha)

theorem SameBytesBut.trans {p : Nat → Prop} (h : SameBytesBut s t p) (h' : SameBytesBut t u p) : SameBytesBut s u p :=
  fun a ha => (h' a ha).trans (h a ha)

theorem Within.mono {lo n m a : Nat} (hnm : n ≤ m) (h : Within lo n a) : Within lo m a :=
  ⟨h.1, h.2.trans_le (Nat.add_le_add_left hnm lo)⟩

/-- A run of bytes lies in a run it starts in and does not reach past. -/
theorem Within.of_run {base lo n m a : Nat} (hlo : base ≤ lo) (hhi : lo + n ≤ base + m) (h : Within lo n a) :
    Within base m a :=
  ⟨hlo.trans h.1, h.2.trans_le hhi⟩

/-- R55: a run of bytes that is written leaves the bytes outside it. -/
theorem Memory.read_writeBytes_outside (m : Memory) {a b : Nat} {bs : List Byte} (h : ¬ Within a bs.length b) :
    (m.writeBytes a bs).read b = m.read b :=
  (m.read_writeBytes a bs b).trans (if_neg h)

theorem SameBytesBut.of_writeBytes {a : Nat} {bs : List Byte} (h : t.mem = s.mem.writeBytes a bs) :
    SameBytesBut s t (Within a bs.length) := fun b hb => by
  rw [h, Memory.read_writeBytes_outside _ hb]

theorem SameBytesBut.of_scatter {base : Nat} {ps : List (Nat × Byte)} (h : t.mem = s.mem.scatter base ps) :
    SameBytesBut s t (fun a => ∃ x ∈ ps, a = base + x.1) := fun b hb => by
  rw [h, Memory.read_scatter_other]
  exact fun x hx he => hb ⟨x, hx, he⟩

/-! ## The stages of the commands -/

/-- R116: EXTRACT stores in CW_RAM. -/
theorem State.extractStage_stores (s : State) {ver : BitVec 6} (mask : BitVec 3) (centres : List Nat)
    (hv : verOk ver = true) : SameBytesBut s (s.extractStage ver mask centres) (Within cwRam 4096) :=
  (SameBytesBut.of_writeBytes rfl).mono fun _ => Within.mono (extract_length_le s mask centres hv)

/-- R121: the descriptors fill BLKDESC. -/
theorem State.writeDescriptors_stores (s : State) {e : EcEntry} (he : e.ok = true) :
    SameBytesBut s (s.writeDescriptors e) (Within blkDesc 324) := by
  refine (SameBytesBut.of_writeBytes rfl).mono fun _ => Within.mono ?_
  rw [flatMap_bytesOfWord_length, descriptorWords_length ((blockList_length e).trans_le (EcEntry.ok_bounds he).1)]

/-- R122: DEINTERLEAVE stores in BLKDESC and, as many bytes as the symbol has codewords, in BLK_RAM. -/
theorem State.deinterleaveStage_stores (s : State) {e : EcEntry} (he : e.ok = true) :
    SameBytesBut s (s.deinterleaveStage e).1 (fun a => Within blkRam e.total a ∨ Within blkDesc 324 a) := by
  have hdesc := (s.writeDescriptors_stores he).mono (q := fun a => Within blkRam e.total a ∨ Within blkDesc 324 a)
    fun _ => .inr
  obtain ⟨-, hd⟩ | ⟨-, hd⟩ := s.deinterleaveStage_cases e
  · rw [hd]; exact hdesc
  · rw [hd]
    refine hdesc.trans ((SameBytesBut.of_scatter rfl).mono ?_)
    rintro _ ⟨x, hx, rfl⟩
    exact .inl ⟨Nat.le_add_right .., Nat.add_lt_add_left (dealOrder_lt (List.of_mem_zip hx).1) _⟩

/-- R136: the first loop stores in the blocks. -/
theorem decodeBlocks_read_other {ec : Nat} {m : Memory} {b sum a : Nat} {bs : List Block}
    (ha : ∀ blk ∈ bs, ¬ Within (blkRam + blk.start) blk.ntotal a) : (decodeBlocks ec m b sum bs).mem.read a = m.read a := by
  induction bs generalizing m b sum with
  | nil => rfl
  | cons blk bs ih =>
    simp only [decodeBlocks]
    split
    · rename_i c nu hok
      have hlen : c.length = blk.ntotal := (rsdecode_ok_length hok).trans (Memory.readBytes_length ..)
      have hblk := ha blk (List.mem_cons_self ..)
      rw [ih fun x hx => ha x (List.mem_cons_of_mem _ hx), Memory.read_writeBytes_outside _ (hlen ▸ hblk)]
    · rfl

/-- R136: RS_DECODE_ALL stores in BLKDESC, over the codewords in BLK_RAM and, as many bytes as there are data codewords, in
DATA_RAM. -/
theorem State.rsDecodeAllStage_stores (s : State) {e : EcEntry} (he : e.ok = true) :
    SameBytesBut s (s.rsDecodeAllStage e).1
      (fun a => Within blkRam e.total a ∨ Within dataRam e.blocks.sum a ∨ Within blkDesc 324 a) := by
  have hblocks : ∀ a, ¬ (Within blkRam e.total a ∨ Within dataRam e.blocks.sum a ∨ Within blkDesc 324 a) →
      (decodeBlocks e.ecPerBlock (s.writeDescriptors e).mem 0 0 (blockList e)).mem.read a = s.mem.read a := fun a ha => by
    rw [decodeBlocks_read_other fun blk hb hin => ha (.inl ?_)]
    · exact s.writeDescriptors_stores he a fun hdesc => ha (.inr (.inr hdesc))
    · have hend := (blockList_bound hb).2
      exact hin.of_run (Nat.le_add_right ..) (by omega)
  obtain ⟨b, code, -, hd⟩ | ⟨-, hd⟩ := s.rsDecodeAllStage_cases e rfl
  · rw [hd]; exact hblocks
  · rw [hd]
    intro a ha
    refine (Memory.read_writeBytes_outside _ fun hdata => ha (.inr (.inl ?_))).trans (hblocks a ha)
    rwa [gatherData_length] at hdata

/-! ## The Reed-Solomon commands -/

/-- R135: RS_DECODE stores over the block. -/
theorem rsDecode_stores {n nec : BitVec 8} {c : List Byte} {nu : Nat}
    (hc : rsdecode (s.mem.readBytes rsRam n.toNat) nec.toNat = .ok c nu) (ht : t.mem = s.mem.writeBytes rsRam c) :
    SameBytesBut s t (Within rsRam n.toNat) := by
  have hlen : c.length = n.toNat := (rsdecode_ok_length hc).trans (Memory.readBytes_length ..)
  exact hlen ▸ SameBytesBut.of_writeBytes ht

/-- R137: RS_ENCODE stores behind the data codewords. -/
theorem rsEncode_stores {a : Nat} {data : List Byte} {nEc : Nat} (ht : t.mem = s.mem.writeBytes a (rsEncodeBlock data nEc)) :
    SameBytesBut s t (Within a nEc) :=
  (SameBytesBut.of_writeBytes ht).mono fun _ => Within.mono (rsEncodeBlock_length_le data nEc)

/-- R138: RS_FILL stores at the erased positions of the block. -/
theorem rsFill_stores {n : Nat} {c : List Byte}
    (ht : t.mem = s.mem.scatter rsRam ((s.erasedPositions n).map fun p => (p, c.getD p 0))) :
    SameBytesBut s t (fun a => ∃ p, s.inErased n p ∧ a = rsRam + p) := by
  refine (SameBytesBut.of_scatter ht).mono ?_
  rintro _ ⟨_, hx, rfl⟩
  obtain ⟨p, hp, rfl⟩ := List.mem_map.1 hx
  obtain ⟨hlt, her⟩ := List.mem_filter.1 hp
  exact ⟨p, ⟨List.mem_range.1 hlt, her⟩, rfl⟩

/-! ## The commands, R41 -/

/-- R122, R162: the first two stages of DECODE. -/
theorem State.decodeDealt_stores (s : State) {ver : BitVec 6} (ecl : BitVec 2) (mask : BitVec 3) (centres : List Nat)
    {e : EcEntry} (hv : verOk ver = true) (he : e.ok = true) :
    SameBytesBut s ((s.extractStage ver mask centres).deinterleaveStage e).1 (Instr.decode ver ecl mask).stores := by
  have htotal := (EcEntry.ok_bounds he).2.1
  refine ((s.extractStage_stores mask centres hv).mono fun _ => .inl).trans ((State.deinterleaveStage_stores _ he).mono ?_)
  rintro a (hblk | hdesc)
  · exact .inr (.inl (hblk.mono htotal))
  · exact .inr (.inr (.inr hdesc))

/-- R136, R162: the first three stages of DECODE. -/
theorem State.decodeDecoded_stores (s : State) {ver : BitVec 6} (ecl : BitVec 2) (mask : BitVec 3) (centres : List Nat)
    {e : EcEntry} (hv : verOk ver = true) (he : e.ok = true) :
    SameBytesBut s (((s.extractStage ver mask centres).deinterleaveStage e).1.rsDecodeAllStage e).1
      (Instr.decode ver ecl mask).stores := by
  obtain ⟨-, htotal, hdata⟩ := EcEntry.ok_bounds he
  refine (s.decodeDealt_stores ecl mask centres hv he).trans ((State.rsDecodeAllStage_stores _ he).mono ?_)
  rintro a (hblk | hdat | hdesc)
  · exact .inr (.inl (hblk.mono htotal))
  · exact .inr (.inr (.inl (hdat.mono hdata)))
  · exact .inr (.inr (.inr hdesc))

/-- R41: a command stores only to the buffers the address map gives it. -/
theorem Executed.command_stores {i : Instr} (h : Executed s i t) (hi : isCommand i = true) : SameBytesBut s t i.stores := by
  cases h with
  | completed code _ => exact .of_mem_eq rfl
  | init => exact .of_mem_eq rfl
  | rsDecodeFailed _ _ _ => exact .of_mem_eq rfl
  | rsFillFailed code _ _ => exact .of_mem_eq rfl
  | parse _ _ _ => exact .of_mem_eq rfl
  | extract _ hv _ => exact s.extractStage_stores _ _ hv
  | deinterleave _ _ _ he =>
    obtain ⟨-, htotal, -⟩ := EcEntry.ok_bounds (ok_of_entry he)
    exact (s.deinterleaveStage_stores (ok_of_entry he)).mono fun _ => Or.imp_left (Within.mono htotal)
  | rsDecodeAll _ _ he =>
    obtain ⟨-, htotal, hdata⟩ := EcEntry.ok_bounds (ok_of_entry he)
    exact (s.rsDecodeAllStage_stores (ok_of_entry he)).mono fun _ =>
      Or.imp (Within.mono htotal) (Or.imp_left (Within.mono hdata))
  | @rsDecode n _ _ _ _ _ hc => exact (rsDecode_stores hc rfl).mono fun _ => Within.mono n.isLt.le
  | @rsEncode n nec _ hb =>
    have hle := ((blockOk_iff n nec).1 hb).2
    exact (rsEncode_stores rfl).mono fun _ => Within.of_run (Nat.le_add_right ..) (by omega)
  | @rsFill n _ _ _ _ _ _ =>
    refine (rsFill_stores rfl).mono ?_
    rintro _ ⟨p, ⟨hp, -⟩, rfl⟩
    exact ⟨Nat.le_add_right .., by omega⟩
  | decodeShort _ hv he hdealt _ =>
    rw [hdealt]; exact s.decodeDealt_stores _ _ _ hv (ok_of_entry he)
  | decodeFailed _ hv he hdealt hdecoded _ =>
    rw [hdecoded, hdealt]; exact s.decodeDecoded_stores _ _ _ hv (ok_of_entry he)
  | decodeParses _ hv he hdealt hdecoded _ =>
    rw [hdecoded, hdealt]; exact s.decodeDecoded_stores _ _ _ hv (ok_of_entry he)
  | parseEnded code hseg _ => exact absurd hi (by simp [hseg])
  | emitted typ w1 w2 w3 hseg _ _ _ => exact absurd hi (by simp [hseg])
  | skipped hseg _ => exact absurd hi (by simp [hseg])

/-! ## The segments, R152, R153 -/

/-- R152: the offsets of OUT_RAM and CHUNK_RAM. -/
def EmitBuffers (a : Nat) : Prop := Within outRam 8192 a ∨ Within chunkRam 32768 a

/-- R152: an emitted segment stores in OUT_RAM and CHUNK_RAM. -/
theorem emit_stores {out : List Byte} {o k : Nat} {w0 w1 w2 w3 : Word} (ho : o + out.length ≤ outCap) (hk : k + 1 ≤ chunkCap)
    (ht : t.mem = (s.mem.writeBytes (outRam + o) out).writeBytes (chunkRam + 16 * k) (recordBytes w0 w1 w2 w3)) :
    SameBytesBut s t EmitBuffers := by
  unfold outCap at ho
  unfold chunkCap at hk
  intro a ha
  have hout : ¬ Within (outRam + o) out.length a := fun hin =>
    ha (.inl (hin.of_run (Nat.le_add_right ..) (by omega)))
  have hrecord : ¬ Within (chunkRam + 16 * k) (recordBytes w0 w1 w2 w3).length a := fun hin =>
    ha (.inr (hin.of_run (Nat.le_add_right ..) (by rw [recordBytes_length]; omega)))
  rw [ht, Memory.read_writeBytes_outside _ hrecord, Memory.read_writeBytes_outside _ hout]

/-- R152, R153: a segment that emits no record stores nothing; one that emits one counts it. -/
theorem Executed.segment_stores {i : Instr} (h : Executed s i t) (hi : isCommand i = false) :
    t.mem = s.mem ∨ (t.parser.nChunk = s.parser.nChunk + 1 ∧ SameBytesBut s t EmitBuffers) := by
  cases h with
  | completed code hcmd => exact absurd hcmd (by simp [hi])
  | parseEnded code _ _ => exact .inl rfl
  | skipped _ _ => exact .inl rfl
  | emitted typ w1 w2 w3 _ ho hk _ => exact .inr ⟨rfl, emit_stores ho hk rfl⟩
  | _ => cases hi

/-- R41: the segments that emit a record have OUT_RAM and CHUNK_RAM to store to. -/
theorem stores_of_emits {i : Instr} (h : i.emittedBytes ≠ none) : i.stores = EmitBuffers := by
  cases i with
  | num | alnum | byte | kanji | eci7 | eci14 | eci21 | eciCorrupt | sa => rfl
  | _ => exact absurd rfl h

theorem execTerm_mem (h : execTerm s = .next t) : t.mem = s.mem := by
  unfold execTerm at h
  split at h <;> cases h <;> rfl

theorem State.unlistedMode_mem (s : State) : s.unlistedMode.mem = s.mem := by
  obtain ⟨-, h⟩ | ⟨-, -, h⟩ | ⟨-, -, h⟩ := s.unlistedMode_cases <;> rw [h] <;> rfl

/-- R143, R150: the terminator and the unlisted mode indicators store nothing. -/
theorem exec_mem_of_emits_none {i : Instr} (hi : isCommand i = false) (he : i.emittedBytes = none) (h : exec i s = .next t) :
    t.mem = s.mem := by
  cases i with
  | term => exact execTerm_mem h
  | unlisted5 | unlisted6 | unlisted9 | unlistedA | unlistedB | unlistedC | unlistedD | unlistedE | unlistedF =>
    obtain rfl := Host.Outcome.next.inj h; exact s.unlistedMode_mem
  | num | alnum | byte | kanji | eci7 | eci14 | eci21 | eciCorrupt | sa => cases he
  | _ => cases hi

/-- R41: a segment stores only to the buffers the address map gives it. -/
theorem exec_segment_stores {i : Instr} (hi : isCommand i = false) (h : exec i s = .next t) : SameBytesBut s t i.stores := by
  by_cases he : i.emittedBytes = none
  · exact .of_mem_eq (exec_mem_of_emits_none hi he h)
  · rw [stores_of_emits he]
    obtain hmem | ⟨-, hstores⟩ := (exec_executed h).segment_stores hi
    · exact .of_mem_eq hmem
    · exact hstores

/-! ## The parse loop, R142, R151 -/

/-- R73: a decoded segment is a segment. -/
theorem isCommand_decodeSegment {sc : SizeClass} {bits : List Bool} {i : Instr} (h : decodeSegment sc bits = .ok i) :
    isCommand i = false := by
  unfold decodeSegment at h
  split at h
  · obtain rfl := Except.ok.inj h
    split
    case h_2 => unfold decodeNum; dsimp only; split <;> rfl
    case h_8 => unfold decodeEci; dsimp only; split_ifs <;> rfl
    all_goals rfl
  · cases h

/-- R151: the exit of the parse loop stores nothing. -/
theorem State.parseExit_mem (s : State) : s.parseExit.mem = s.mem := by
  obtain h | h := s.parseExit_cases <;> rw [h] <;> rfl

/-- R142: a step of the parse loop runs the segment it fetches, or leaves the loop. -/
theorem step_parse_cases (hhost : s.host = []) (hb : s.busy = true) (hstage : s.stage = .parse) (h : step s = .next t) :
    (∃ i, isCommand i = false ∧ exec i s = .next t) ∨ t = s.parseExit := by
  simp only [step, hhost, engineTurn, hb, if_true, engineStep, hstage] at h
  split at h
  · exact .inl ⟨_, isCommand_decodeSegment (by assumption), h⟩
  · exact .inr (Host.Outcome.next.inj h).symm

/-- Settles O15: the commands and the segments apart; in the parse loop an emitted record is counted. -/
theorem engineStoresOnlyInItsBuffers : Obligations.EngineStoresOnlyInItsBuffers := by
  refine ⟨fun i s t h => ?_, fun s t hhost hb hstage h hcount => ?_⟩
  · cases hi : isCommand i with
    | true => exact (exec_executed h).command_stores hi
    | false => exact exec_segment_stores hi h
  · obtain ⟨i, hi, hexec⟩ | rfl := step_parse_cases hhost hb hstage h
    · obtain hmem | ⟨hnext, -⟩ := (exec_executed hexec).segment_stores hi
      · exact .of_mem_eq hmem
      · omega
    · exact .of_mem_eq s.parseExit_mem

end Sys2Proof.Machine
end

section
/-! SUPPORT. Host accesses to the buffers, BLKDESC and the reserved offsets (R41, R50 to R57), and bus errors (R21, R53). -/

namespace Sys2Proof.Machine

variable {s : State} {rest : List HostEvent}

/-! ## The regions, R41 -/

theorem regionOf_ram {off : Nat} (h : Within moduleRam 0x4100 off ∨ Within outRam 0xA000 off) : regionOf off = .ram := by
  unfold Within moduleRam outRam at h
  unfold regionOf
  obtain h | h := h
  · rw [if_neg (by omega), if_pos (by omega)]
  · rw [if_neg (by omega), if_neg (by omega), if_neg (by omega), if_neg (by omega), if_neg (by omega)]

theorem regionOf_blkDesc {off : Nat} (h : Within blkDesc 324 off) : regionOf off = .blkDesc := by
  unfold Within blkDesc at h
  unfold regionOf
  rw [if_neg (by omega), if_neg (by omega), if_neg (by omega), if_pos (by omega)]

theorem regionOf_reserved {off : Nat} (h : Within 0x5100 0x300 off ∨ Within 0x5544 0xABC off) : regionOf off = .reserved := by
  unfold Within at h
  unfold regionOf
  obtain h | h := h
  · rw [if_neg (by omega), if_neg (by omega), if_pos (by omega)]
  · rw [if_neg (by omega), if_neg (by omega), if_neg (by omega), if_neg (by omega), if_pos (by omega)]

/-- R41: the offsets that hold a byte are those of the buffers and BLKDESC. -/
theorem regionOf_stored {off : Nat} (h : Stored off) : regionOf off = .ram ∨ regionOf off = .blkDesc := by
  obtain h | h | h := h
  · exact .inl (regionOf_ram (.inl h))
  · exact .inr (regionOf_blkDesc h)
  · exact .inl (regionOf_ram (.inr h))

/-! ## Little-endian words, R50 -/

/-- R50: each bit of a little-endian number is a bit of one of its bytes. -/
theorem getLsbD_leWord (bs : List Byte) {j : Nat} (hj : j < 32) :
    (leWord bs).getLsbD j = (bs.getD (j / 8) 0).getLsbD (j % 8) := by
  induction bs generalizing j with
  | nil => simp [leWord]
  | cons b bs ih =>
    simp only [leWord, BitVec.getLsbD_or, BitVec.getLsbD_shiftLeft, BitVec.getLsbD_setWidth, hj, decide_true, Bool.true_and]
    by_cases hlow : j < 8
    · simp [hlow, Nat.div_eq_of_lt hlow, Nat.mod_eq_of_lt hlow]
    · have hnext : j / 8 = (j - 8) / 8 + 1 := by omega
      have hbit : (j - 8) % 8 = j % 8 := by omega
      have hbyte : b.getLsbD j = false := b.getLsbD_of_ge j (by omega)
      rw [ih (by omega), hbit, hnext, hbyte]
      simp [hlow]

/-- R50: byte `k` of a little-endian number. -/
theorem extractLsb'_leWord (bs : List Byte) {k : Nat} (hk : k < 4) : (leWord bs).extractLsb' (8 * k) 8 = bs.getD k 0 := by
  refine BitVec.eq_of_getLsbD_eq fun j hj => ?_
  have hbyte : (8 * k + j) / 8 = k := by omega
  have hbit : (8 * k + j) % 8 = j := by omega
  rw [BitVec.getLsbD_extractLsb', decide_eq_true hj, Bool.true_and, getLsbD_leWord bs (by omega), hbyte, hbit]

/-- R50: a little-endian number has eight bits for each byte. -/
theorem leWord_lt (bs : List Byte) : (leWord bs).toNat < 2 ^ (8 * bs.length) := by
  refine Nat.lt_pow_two_of_testBit _ fun j hj => ?_
  rw [BitVec.testBit_toNat]
  by_cases h32 : j < 32
  · rw [getLsbD_leWord bs h32, List.getD_eq_default _ _ (by omega)]
    exact BitVec.getLsbD_zero
  · exact (leWord bs).getLsbD_of_ge j (by omega)

theorem Width.bytes_le (w : Width) : w.bytes ≤ 4 := by cases w <;> decide

/-- R52: what an access carries fits its width. -/
theorem Width.clip_lt (w : Width) (v : Word) : (w.clip v).toNat < 2 ^ (8 * w.bytes) := by
  have hv := v.isLt
  cases w with
  | w8 | w16 => simp only [Width.clip, Width.bytes, BitVec.toNat_setWidth]; omega
  | w32 => exact hv
  | other => exact Nat.one_pos

/-- R50: the bytes a write stores. -/
theorem getD_take_bytesOfWord (v : Word) {k n : Nat} (hk : k < n) (hn : n ≤ 4) :
    ((bytesOfWord v).take n).getD k 0 = v.extractLsb' (8 * k) 8 := by
  have h4 : k < 4 := by omega
  simp only [List.getD, List.getElem?_take, hk, if_true]
  interval_cases k <;> rfl

/-! ## Accesses to the buffers, R50, R55, R57 -/

section
variable {off : Nat} {w : Width}

theorem hostWrite_ram_idle (ha : accessOk off w = true) (hr : regionOf off = .ram) (hb : s.busy = false) (v : Word) :
    s.hostWrite off w v = { s with mem := s.mem.writeBytes off ((bytesOfWord v).take w.bytes) } := by
  simp only [State.hostWrite, ha, hr, hb, if_true, Bool.false_eq_true, if_false]

theorem hostWrite_ram_busy (ha : accessOk off w = true) (hr : regionOf off = .ram) (hb : s.busy = true) (v : Word) :
    s.hostWrite off w v = { s with accViol := true } := by
  simp only [State.hostWrite, ha, hr, hb, if_true]

theorem hostRead_stored_idle (ha : accessOk off w = true) (hr : Stored off) (hb : s.busy = false) :
    s.hostRead off w = { s with rdata := leWord (s.mem.readBytes off w.bytes) } := by
  obtain hr | hr := regionOf_stored hr <;>
    simp only [State.hostRead, ha, hr, hb, if_true, Bool.false_eq_true, if_false]

theorem hostRead_stored_busy (ha : accessOk off w = true) (hr : Stored off) (hb : s.busy = true) :
    s.hostRead off w = ({ s with accViol := true } : State).drawRead w := by
  obtain hr | hr := regionOf_stored hr <;> simp only [State.hostRead, ha, hr, hb, if_true]

end

/-- Settles O55: the region of the offset, then the bytes of a little-endian word. -/
theorem bufferAccess : Obligations.BufferAccess := by
  intro s off w v rest ho ha
  have hw := w.bytes_le
  have hbusy : ({ s with host := rest } : State).busy = s.busy := rfl
  refine ⟨fun h hram => ⟨fun hb => ?_, fun hb => ?_⟩, fun h hst => ⟨fun hb => ?_, fun hb => ?_⟩⟩
  · have hlen : ((bytesOfWord v).take w.bytes).length = w.bytes := (List.length_take ..).trans (Nat.min_eq_left hw)
    have hwrite := hostWrite_ram_idle ha (regionOf_ram hram) (hbusy.trans hb) v
    refine ⟨_, (step_write h ho).trans (congrArg _ hwrite), fun k hk => ?_, ?_, rfl⟩
    · dsimp only
      rw [Memory.read_writeBytes, hlen, if_pos (by omega), Nat.add_sub_cancel_left, getD_take_bytesOfWord v hk hw]
    · exact (SameBytesBut.of_writeBytes rfl).mono fun _ => Within.mono hlen.le
  · exact (step_write h ho).trans (congrArg _ (hostWrite_ram_busy ha (regionOf_ram hram) (hbusy.trans hb) v))
  · refine ⟨_, (step_read h ho).trans (congrArg _ (hostRead_stored_idle ha hst (hbusy.trans hb))), fun k hk => ?_, ?_⟩
    · rw [extractLsb'_leWord _ (by omega), Memory.readBytes_getD _ _ _ _ hk]
    · exact (leWord_lt _).trans_eq (by rw [Memory.readBytes_length])
  · exact ⟨_, w.clip_lt _, (step_read h ho).trans (congrArg _ (hostRead_stored_busy ha hst (hbusy.trans hb)))⟩

/-! ## Bus errors, R21, R53 -/

/-- R52, R53: the accesses that are bus errors. -/
theorem accessOk_eq_false {off : Nat} {w : Width}
    (h : w = .other ∨ (w ≠ .w32 ∧ off < 0x1000) ∨ (w = .w16 ∧ off % 2 = 1) ∨ (w = .w32 ∧ off % 4 ≠ 0)) :
    accessOk off w = false := by
  obtain rfl | ⟨hne, hlow⟩ | ⟨rfl, hodd⟩ | ⟨rfl, hal⟩ := h
  · rfl
  · cases w with
    | w8 | w16 => simp [accessOk, hlow]
    | w32 => exact absurd rfl hne
    | other => rfl
  · simp [accessOk, hodd]
  · simp [accessOk, hal]

theorem hostWrite_busError {off : Nat} {w : Width} (ha : accessOk off w = false) (v : Word) :
    s.hostWrite off w v = s.busError off true := by
  simp only [State.hostWrite, ha, Bool.false_eq_true, if_false]

theorem hostRead_busError {off : Nat} {w : Width} (ha : accessOk off w = false) :
    s.hostRead off w = { s.busError off false with rdata := 0 } := by
  simp only [State.hostRead, ha, Bool.false_eq_true, if_false]

/-- R20: a bus error while idle is no access violation. -/
theorem busError_accViol_idle (hb : s.busy = false) (off : Nat) (isWrite : Bool) :
    (s.busError off isWrite).accViol = s.accViol := by
  rw [State.busError_accViol, hb, Bool.false_and, Bool.or_false]

/-! ## Reserved offsets, unlisted registers and BLKDESC, R35, R54 -/

/-- R52: an allowed access to a register is one of 32 bits at a word offset. -/
theorem register_of_accessOk {off : Nat} {w : Width} (ha : accessOk off w = true) (hlow : off < 0x1000) :
    w = .w32 ∧ off % 4 = 0 := by
  cases w with
  | w8 | w16 => simp [accessOk] at ha; omega
  | w32 => exact ⟨rfl, by simpa [accessOk] using ha⟩
  | other => cases ha

theorem hostWrite_ignored {off : Nat} {w : Width} (ha : accessOk off w = true)
    (hr : regionOf off = .reserved ∨ regionOf off = .blkDesc) (v : Word) : s.hostWrite off w v = s := by
  obtain hr | hr := hr <;> simp only [State.hostWrite, ha, hr, if_true]

theorem hostRead_reserved {off : Nat} {w : Width} (ha : accessOk off w = true) (hr : regionOf off = .reserved) :
    s.hostRead off w = { s with rdata := 0 } := by
  simp only [State.hostRead, ha, hr, if_true]

/-- R35, R54: a pending write of `v` at `off` changes nothing, and a pending read there returns 0 and has no other effect. -/
def AccessIgnored (s : State) (off : Nat) (w : Width) (v : Word) (rest : List HostEvent) : Prop :=
  (s.host = .write (0x10000 * s.params.baseBlock + off) w v :: rest → step s = .next { s with host := rest }) ∧
  (s.host = .read (0x10000 * s.params.baseBlock + off) w :: rest → step s = .next { s with host := rest, rdata := 0 })

/-- R35: an allowed access to an unlisted register. -/
theorem unlisted_ignored {off : Nat} {w : Width} {v : Word} (ha : accessOk off w = true) (hlow : off < 0x1000)
    (hreg : regAt off = .unlisted) : AccessIgnored s off w v rest := by
  obtain ⟨rfl, hal⟩ := register_of_accessOk ha hlow
  refine ⟨fun h => ?_, fun h => ?_⟩
  · rw [step_writeReg h hlow hal, hreg]; rfl
  · rw [step_readReg h hlow hal (.inr (by rw [hreg]; rfl)), hreg]; rfl

/-- R54: an allowed access to a reserved range. -/
theorem reserved_ignored {off : Nat} {w : Width} {v : Word} (ho : off < 0x10000) (ha : accessOk off w = true)
    (hr : regionOf off = .reserved) : AccessIgnored s off w v rest :=
  ⟨fun h => (step_write h ho).trans (congrArg _ (hostWrite_ignored ha (.inl hr) v)),
    fun h => (step_read h ho).trans (congrArg _ (hostRead_reserved ha hr))⟩

/-- Settles O56: a bus error by `busError`, the other accesses by their regions. -/
theorem busErrorsAndReserved : Obligations.BusErrorsAndReserved := by
  intro s off w v rest ho
  refine ⟨fun hbad => ?_, fun ha => ⟨fun hoff => ?_, fun hdesc h => ?_⟩⟩
  · have ha := accessOk_eq_false hbad
    exact ⟨fun h => ⟨_, (step_write h ho).trans (congrArg _ (hostWrite_busError ha v)), fun hb => busError_accViol_idle hb ..⟩,
      fun h => ⟨_, (step_read h ho).trans (congrArg _ (hostRead_busError ha)), fun hb => busError_accViol_idle hb ..⟩⟩
  · obtain hres | hres | rfl | ⟨hlo, hhi⟩ := hoff
    · exact reserved_ignored ho ha (regionOf_reserved (.inl hres))
    · exact reserved_ignored ho ha (regionOf_reserved (.inr hres))
    · exact unlisted_ignored ha (by decide) rfl
    · exact unlisted_ignored ha hhi (regAt_unlisted hlo)
  · exact (step_write h ho).trans (congrArg _ (hostWrite_ignored ha (.inr (regionOf_blkDesc hdesc)) v))

end Sys2Proof.Machine
end

section
/-! SUPPORT. Bits of the stream (R72, R140): what the field readers give on the bits the field writers wrote. -/

namespace Sys2Proof

/-! ## Writing bits -/

@[simp] theorem natBits_length (k n : Nat) : (natBits k n).length = k := by
  induction k with
  | zero => rfl
  | succ k ih => simp [natBits, ih]

@[simp] theorem fieldBits_length {k : Nat} (v : BitVec k) : (fieldBits v).length = k := natBits_length ..

theorem flatMap_fieldBits_length {k : Nat} (vs : List (BitVec k)) : (vs.flatMap fieldBits).length = k * vs.length := by
  simp [List.length_flatMap, Nat.mul_comm]

/-! ## Reading them back -/

/-- What was read before stands above the `k` bits that are read now. -/
theorem takeNat_natBits_append (k n : Nat) (rest : List Bool) (acc : Nat) :
    takeNat k (natBits k n ++ rest) acc = 2 ^ k * acc + n % 2 ^ k := by
  induction k generalizing acc with
  | zero => simp [takeNat, Nat.mod_one]
  | succ k ih =>
    rw [natBits, List.cons_append, takeNat, ih, Nat.toNat_testBit, Nat.mod_pow_succ]
    ring

theorem takeNat_natBits {k n : Nat} (h : n < 2 ^ k) (rest : List Bool) : takeNat k (natBits k n ++ rest) 0 = n := by
  rw [takeNat_natBits_append, Nat.mul_zero, Nat.zero_add, Nat.mod_eq_of_lt h]

@[simp] theorem drop_natBits (k n : Nat) (rest : List Bool) : (natBits k n ++ rest).drop k = rest :=
  List.drop_left' (natBits_length ..)

@[simp] theorem takeField_fieldBits {k : Nat} (v : BitVec k) (rest : List Bool) : takeField k (fieldBits v ++ rest) = v := by
  rw [takeField, fieldBits, takeNat_natBits v.isLt, BitVec.ofNat_toNat, BitVec.setWidth_eq]

@[simp] theorem drop_fieldBits {k : Nat} (v : BitVec k) (rest : List Bool) : (fieldBits v ++ rest).drop k = rest :=
  drop_natBits ..

theorem takeFields_flatMap {k : Nat} (vs : List (BitVec k)) (rest : List Bool) :
    takeFields k vs.length (vs.flatMap fieldBits ++ rest) = vs := by
  induction vs with
  | nil => rfl
  | cons v vs ih =>
    rw [List.length_cons, takeFields, List.flatMap_cons, List.append_assoc, takeField_fieldBits, drop_fieldBits, ih]

theorem drop_flatMap_fieldBits {k : Nat} (vs : List (BitVec k)) (rest : List Bool) :
    (vs.flatMap fieldBits ++ rest).drop (k * vs.length) = rest :=
  List.drop_left' (flatMap_fieldBits_length vs)

/-! ## The bits of what is read -/

theorem takeNat_succ (k : Nat) (bits : List Bool) (acc : Nat) :
    takeNat (k + 1) bits acc = takeNat k bits.tail (2 * acc + (bits.getD 0 false).toNat) := by
  cases bits <;> rfl

theorem testBit_takeNat (k : Nat) (bits : List Bool) (acc i : Nat) :
    (takeNat k bits acc).testBit i = if i < k then bits.getD (k - 1 - i) false else acc.testBit (i - k) := by
  induction k generalizing bits acc with
  | zero => simp [takeNat]
  | succ k ih =>
    rw [takeNat_succ, ih]
    obtain hlt | rfl | hgt := lt_trichotomy i k
    · rw [if_pos hlt, if_pos (by omega), show k + 1 - 1 - i = k - 1 - i + 1 by omega]
      cases bits <;> rfl
    · rw [if_neg (lt_irrefl i), if_pos i.lt_succ_self, Nat.sub_self, Nat.testBit_zero, Nat.add_sub_cancel, Nat.sub_self]
      cases bits.getD 0 false <;> simp
    · have hhalf : (2 * acc + (bits.getD 0 false).toNat) / 2 = acc := by have := (bits.getD 0 false).toNat_le; omega
      rw [if_neg (by omega), if_neg (by omega), show i - k = i - (k + 1) + 1 by omega, Nat.testBit_succ, hhalf]

/-- The first bit of a field is its highest. -/
theorem getLsbD_takeField (k : Nat) (bits : List Bool) (i : Nat) :
    (takeField k bits).getLsbD i = (decide (i < k) && bits.getD (k - 1 - i) false) := by
  rw [takeField, BitVec.getLsbD_ofNat, testBit_takeNat]
  by_cases h : i < k <;> simp [h]

theorem extractLsb'_takeField (j k : Nat) (bits : List Bool) :
    (takeField (j + k) bits).extractLsb' 0 k = takeField k (bits.drop j) := by
  refine BitVec.eq_of_getLsbD_eq fun i hi => ?_
  have hpos : j + k - 1 - i = j + (k - 1 - i) := by omega
  rw [BitVec.getLsbD_extractLsb', getLsbD_takeField, getLsbD_takeField, Nat.zero_add, hpos]
  simp [hi, Nat.lt_add_left]

theorem takeField_append (j k : Nat) (bits : List Bool) :
    takeField j bits ++ takeField k (bits.drop j) = takeField (j + k) bits := by
  refine BitVec.eq_of_getLsbD_eq fun i hi => ?_
  rw [BitVec.getLsbD_append, getLsbD_takeField, getLsbD_takeField, getLsbD_takeField, decide_eq_true hi, Bool.true_and]
  split
  case isTrue hlow =>
    rw [decide_eq_true hlow, Bool.true_and, show j + k - 1 - i = j + (k - 1 - i) by omega]
    simp
  case isFalse hhigh =>
    rw [decide_eq_true (by omega), Bool.true_and, show j - 1 - (i - k) = j + k - 1 - i by omega]

end Sys2Proof
end

section
/-! SUPPORT. Command words (R63, R64, R68, R71): the fields of a word made of fields, and the opcode map as a function of them. -/

namespace Sys2Proof

/-! ## The layout, R63 -/

theorem toNat_append_eq_add {j k : Nat} (hi : BitVec j) (lo : BitVec k) : (hi ++ lo).toNat = 2 ^ k * hi.toNat + lo.toNat := by
  rw [BitVec.toNat_append, ← Nat.shiftLeft_add_eq_or_of_lt lo.isLt, Nat.shiftLeft_eq, Nat.mul_comm]

section
variable (op : BitVec 4) (ver : BitVec 6) (ecl : BitVec 2) (mask : BitVec 3) (rsv : BitVec 1) (n nec : BitVec 8)

theorem commandWord_toNat : (commandWord op ver ecl mask rsv n nec).toNat =
    op.toNat + 2 ^ 4 * ver.toNat + 2 ^ 10 * ecl.toNat + 2 ^ 12 * mask.toNat + 2 ^ 15 * rsv.toNat + 2 ^ 16 * n.toNat
      + 2 ^ 24 * nec.toNat := by
  simp only [commandWord, toNat_append_eq_add]
  ring

/-- R63: each field of a word is read where it was put. -/
theorem commandWord_fields :
    fieldOp (commandWord op ver ecl mask rsv n nec) = op ∧ fieldVer (commandWord op ver ecl mask rsv n nec) = ver ∧
    fieldEcl (commandWord op ver ecl mask rsv n nec) = ecl ∧ fieldMask (commandWord op ver ecl mask rsv n nec) = mask ∧
    fieldN (commandWord op ver ecl mask rsv n nec) = n ∧ fieldNec (commandWord op ver ecl mask rsv n nec) = nec := by
  refine ⟨Laws.Opcode.commandWord_op .., ?_, ?_, ?_, ?_, ?_⟩
  all_goals
    refine BitVec.eq_of_toNat_eq ?_
    simp only [fieldVer, fieldEcl, fieldMask, fieldN, fieldNec, BitVec.extractLsb'_toNat, commandWord_toNat,
      Nat.shiftRight_eq_div_pow]
    omega

/-! ## The opcode map, R64 -/

/-- R64, R71: the row of the opcode map for each OP, on the fields of a word with RSV = 0. -/
def commandOf : Instr :=
  match op.toNat with
  | 0x0 => .nop
  | 0x1 => .extract ver mask
  | 0x2 => .deinterleave ver ecl
  | 0x3 => .rsDecode n nec
  | 0x4 => .rsDecodeAll ver ecl
  | 0x5 => .parse ver
  | 0x6 => .decode ver ecl mask
  | 0x7 => .rsEncode n nec
  | 0x8 => .rsFill n nec
  | 0x9 => .reservedOp9
  | 0xA => .reservedOpA
  | 0xB => .reservedOpB
  | 0xC => .reservedOpC
  | 0xD => .reservedOpD
  | 0xE => .reservedOpE
  | _ => .init

theorem decodeCommand_eq (w : Word) : decodeCommand w =
    if w.getLsbD 15 then .illegalRsv (fieldOp w)
    else commandOf (fieldOp w) (fieldVer w) (fieldEcl w) (fieldMask w) (fieldN w) (fieldNec w) := rfl

/-- R64, R70: RSV = 0. -/
theorem decodeCommand_commandWord :
    decodeCommand (commandWord op ver ecl mask 0 n nec) = commandOf op ver ecl mask n nec := by
  obtain ⟨hop, hver, hecl, hmask, hn, hnec⟩ := commandWord_fields op ver ecl mask 0 n nec
  rw [decodeCommand_eq, Laws.Opcode.commandWord_rsv, hop, hver, hecl, hmask, hn, hnec]
  rfl

/-- R68, R71: RSV = 1. -/
theorem decodeCommand_commandWord_rsv :
    decodeCommand (commandWord op ver ecl mask 1 n nec) = .illegalRsv op := by
  rw [decodeCommand_eq, Laws.Opcode.commandWord_rsv, (commandWord_fields ..).1]
  rfl

/-- R71: the reserved rows of the map. -/
theorem isIllegal_commandOf :
    (commandOf op ver ecl mask n nec).isIllegal ↔ 9 ≤ op.toNat ∧ op.toNat ≤ 14 := by
  have hop := op.isLt
  unfold commandOf
  split
  all_goals
    simp only [Instr.isIllegal, true_iff, false_iff, imp_false] at *
    omega

end

/-- Settles O2: row by row of the opcode map. -/
theorem commandFields : Obligations.CommandFields := by
  intro ver ecl mask n nec
  have hmap := fun op => decodeCommand_commandWord op ver ecl mask n nec
  exact ⟨hmap 0x0, hmap 0x1, hmap 0x2, hmap 0x3, hmap 0x4, hmap 0x5, hmap 0x6, hmap 0x7, hmap 0x8, hmap 0x9, hmap 0xA,
    hmap 0xB, hmap 0xC, hmap 0xD, hmap 0xE, hmap 0xF,
    fun op => ⟨decodeCommand_commandWord_rsv .., fun rsv => commandWord_toNat ..⟩⟩

end Sys2Proof
end

section
/-! SUPPORT. Segments (R72 to R84): how long an encoding is, and that each mode is read back from it. -/

namespace Sys2Proof

/-! ## Counts, R76, R77 -/

theorem NumTail.digits_lt (tail : NumTail) : tail.digits < 3 := by cases tail <;> simp [NumTail.digits]

theorem numCount_div (groups : List (BitVec 10)) (tail : NumTail) : numCount groups tail / 3 = groups.length := by
  have := tail.digits_lt
  unfold numCount
  omega

theorem numCount_mod (groups : List (BitVec 10)) (tail : NumTail) : numCount groups tail % 3 = tail.digits := by
  have := tail.digits_lt
  unfold numCount
  omega

theorem alnumCount_div (pairs : List (BitVec 11)) (last : Option (BitVec 6)) : alnumCount pairs last / 2 = pairs.length := by
  unfold alnumCount
  split <;> omega

theorem alnumCount_mod (pairs : List (BitVec 11)) (last : Option (BitVec 6)) :
    alnumCount pairs last % 2 = if last.isSome then 1 else 0 := by
  unfold alnumCount
  split <;> omega

/-! ## Lengths, R84 -/

theorem NumTail.bits_length (tail : NumTail) : tail.bits.length = [0, 4, 7].getD tail.digits 0 := by
  cases tail with
  | none => rfl
  | one v => exact fieldBits_length v
  | two v => exact fieldBits_length v

/-- R84: counted field by field; the forms with no count have a fixed length. -/
theorem encode_length (sc : SizeClass) (i : Instr) : (encode sc i).length = i.tableLength sc := by
  cases i
  case num | alnum | byte | kanji =>
    simp only [encode, Code.length, Instr.tableLength, List.length_append, natBits_length, flatMap_fieldBits_length,
      NumTail.bits_length, Option.length_toList, numCount_div, numCount_mod, alnumCount_div, alnumCount_mod]
  all_goals rfl

/-- Settles O3: the length of what is encoded is the table's for every instruction. -/
theorem segmentLengths : Obligations.SegmentLengths := by
  intro sc i _ bits h
  rw [← encode_length, h, Code.length]

/-! ## Reading each mode back -/

section
variable {sc : SizeClass}

/-- R76. -/
theorem decodeNum_bits {groups : List (BitVec 10)} {tail : NumTail} (h : numCount groups tail < 2 ^ numCountWidth sc)
    (rest : List Bool) :
    decodeNum sc (natBits (numCountWidth sc) (numCount groups tail) ++ groups.flatMap fieldBits ++ tail.bits ++ rest)
      = .num groups tail := by
  simp only [decodeNum, List.append_assoc, takeNat_natBits h, drop_natBits, numCount_div, numCount_mod, takeFields_flatMap,
    drop_flatMap_fieldBits]
  cases tail with
  | none => rfl
  | one v | two v => simp only [NumTail.digits, NumTail.bits, takeField_fieldBits]

/-- R77. -/
theorem decodeAlnum_bits {pairs : List (BitVec 11)} {last : Option (BitVec 6)}
    (h : alnumCount pairs last < 2 ^ alnumCountWidth sc) (rest : List Bool) :
    decodeAlnum sc (natBits (alnumCountWidth sc) (alnumCount pairs last)
      ++ pairs.flatMap fieldBits ++ last.toList.flatMap fieldBits ++ rest) = .alnum pairs last := by
  simp only [decodeAlnum, List.append_assoc, takeNat_natBits h, drop_natBits, alnumCount_div, alnumCount_mod,
    takeFields_flatMap, drop_flatMap_fieldBits]
  cases last with
  | none => rfl
  | some v => simp

/-- R78. -/
theorem decodeByte_bits {bytes : List (BitVec 8)} (h : bytes.length < 2 ^ byteCountWidth sc) (rest : List Bool) :
    decodeByte sc (natBits (byteCountWidth sc) bytes.length ++ bytes.flatMap fieldBits ++ rest) = .byte bytes := by
  simp only [decodeByte, List.append_assoc, takeNat_natBits h, drop_natBits, takeFields_flatMap]

/-- R79. -/
theorem decodeKanji_bits {chars : List (BitVec 13)} (h : chars.length < 2 ^ kanjiCountWidth sc) (rest : List Bool) :
    decodeKanji sc (natBits (kanjiCountWidth sc) chars.length ++ chars.flatMap fieldBits ++ rest) = .kanji chars := by
  simp only [decodeKanji, List.append_assoc, takeNat_natBits h, drop_natBits, takeFields_flatMap]

/-- R81. -/
theorem decodeSa_bits (cur tot : BitVec 4) (par : BitVec 8) (rest : List Bool) :
    decodeSa (fieldBits cur ++ fieldBits tot ++ fieldBits par ++ rest) = .sa cur tot par := by
  have hpar : (fieldBits cur ++ fieldBits tot ++ (fieldBits par ++ rest)).drop 8 = fieldBits par ++ rest :=
    List.drop_left' (by simp)
  simp only [List.append_assoc] at hpar
  simp only [decodeSa, List.append_assoc, takeField_fieldBits, drop_fieldBits, hpar]

/-! ## The designators, R80: the bits that tell the form are the high bits of the first byte -/

/-- R80: one equation for the four forms. -/
theorem decodeEci_cons (b7 b6 b5 : Bool) (bits : List Bool) : decodeEci (b7 :: b6 :: b5 :: bits) =
    if b7 = false then .eci7 (takeField 7 (b6 :: b5 :: bits))
    else if b6 = false then .eci14 (takeField 14 (b5 :: bits))
    else if b5 = false then .eci21 (takeField 21 bits)
    else .eciCorrupt := by
  have h7 : (takeField 8 (b7 :: b6 :: b5 :: bits)).getLsbD 7 = b7 := getLsbD_takeField ..
  have h6 : (takeField 8 (b7 :: b6 :: b5 :: bits)).getLsbD 6 = b6 := getLsbD_takeField ..
  have h5 : (takeField 8 (b7 :: b6 :: b5 :: bits)).getLsbD 5 = b5 := getLsbD_takeField ..
  have hlow7 : (takeField 8 (b7 :: b6 :: b5 :: bits)).extractLsb' 0 7 = takeField 7 (b6 :: b5 :: bits) :=
    extractLsb'_takeField 1 7 _
  have hlow6 : (takeField 8 (b7 :: b6 :: b5 :: bits)).extractLsb' 0 6 = takeField 6 (b5 :: bits) :=
    extractLsb'_takeField 2 6 _
  have hlow5 : (takeField 8 (b7 :: b6 :: b5 :: bits)).extractLsb' 0 5 = takeField 5 bits := extractLsb'_takeField 3 5 _
  have h14 : takeField 6 (b5 :: bits) ++ takeField 8 ((b7 :: b6 :: b5 :: bits).drop 8) = takeField 14 (b5 :: bits) :=
    takeField_append 6 8 _
  have h21 : takeField 5 bits ++ takeField 16 ((b7 :: b6 :: b5 :: bits).drop 8) = takeField 21 bits := takeField_append 5 16 _
  simp only [decodeEci, h7, h6, h5, hlow7, hlow6, hlow5, h14, h21]

/-! ## Every instruction -/

/-- R63 to R71: the command words. -/
theorem decodeCommand_encode {i : Instr} {w : Word} (h : encode sc i = .command w) : decodeCommand w = i := by
  cases i
  all_goals cases h
  case illegalRsv op => exact decodeCommand_commandWord_rsv ..
  all_goals exact decodeCommand_commandWord ..

/-- R72 to R83: the segments; the indicator names the mode, and the body of each mode is read back. -/
theorem decodeSegment_encode {i : Instr} {bits : List Bool} (hi : i.wellFormed sc = true) (h : encode sc i = .segment bits)
    (rest : List Bool) : decodeSegment sc (bits ++ rest) = .ok i := by
  cases i
  all_goals cases h
  case num groups tail => exact congrArg Except.ok (decodeNum_bits (of_decide_eq_true hi) rest)
  case alnum pairs last => exact congrArg Except.ok (decodeAlnum_bits (of_decide_eq_true hi) rest)
  case sa cur tot par => exact congrArg Except.ok (decodeSa_bits cur tot par rest)
  case byte bytes => exact congrArg Except.ok (decodeByte_bits (of_decide_eq_true hi) rest)
  case kanji chars => exact congrArg Except.ok (decodeKanji_bits (of_decide_eq_true hi) rest)
  case eci7 a =>
    exact congrArg Except.ok ((decodeEci_cons false ..).trans (congrArg Instr.eci7 (takeField_fieldBits a rest)))
  case eci14 a =>
    exact congrArg Except.ok ((decodeEci_cons true false ..).trans (congrArg Instr.eci14 (takeField_fieldBits a rest)))
  case eci21 a =>
    exact congrArg Except.ok ((decodeEci_cons true true false _).trans (congrArg Instr.eci21 (takeField_fieldBits a rest)))
  case eciCorrupt => exact congrArg Except.ok (decodeEci_cons true true true _)
  all_goals rfl

end

/-- Settles O1: the commands by the opcode map, the segments mode by mode. -/
theorem decodeOfEncode : Obligations.DecodeOfEncode := by
  intro sc i hi
  split
  · exact decodeCommand_encode (by assumption)
  · exact decodeSegment_encode hi (by assumption)

/-- Settles O4: fixed words, each evaluated. -/
theorem specWordsDecode : Obligations.SpecWordsDecode := by
  unfold Obligations.SpecWordsDecode
  decide

end Sys2Proof
end

section
/-! SUPPORT. What the decoded instruction does: the illegal command words (R71), and the segment at the parser's position (R142). -/

namespace Sys2Proof.Machine

/-- R71: which words are illegal. -/
theorem isIllegal_decodeCommand (w : Word) : (decodeCommand w).isIllegal ↔
    w.getLsbD 15 = true ∨ (9 ≤ (fieldOp w).toNat ∧ (fieldOp w).toNat ≤ 14) := by
  rw [decodeCommand_eq]
  split
  case isTrue hrsv => exact iff_of_true trivial (.inl hrsv)
  case isFalse hrsv => rw [isIllegal_commandOf, or_iff_right hrsv]

/-- R68, R71: an illegal word does nothing but complete. -/
theorem illegal_completes {i : Instr} (hi : i.isIllegal) (s : State) : CompletesWithNothingElse i s .illegalCmd := by
  cases i
  case reservedOp9 | reservedOpA | reservedOpB | reservedOpC | reservedOpD | reservedOpE | illegalRsv =>
    exact completesWithNothingElse rfl
  all_goals cases hi

/-- Settles O9: the decoder's illegal words, and what one does. -/
theorem illegalCommandsComplete : Obligations.IllegalCommandsComplete :=
  ⟨isIllegal_decodeCommand, fun s _ hi => illegal_completes hi s⟩

/-- R142: with no host event pending, a step of the parse loop runs the segment it fetches. -/
theorem step_of_fetchSegment {s : State} {i : Instr} (hhost : s.host = []) (hb : s.busy = true) (hstage : s.stage = .parse)
    (h : s.fetchSegment = .ok i) : step s = exec i s := by
  simp only [step, hhost, engineTurn, hb, if_true, engineStep, hstage, h]

/-- Settles O6: the segment fetched is the one encoded there. -/
theorem stepRunsEncodedSegment : Obligations.StepRunsEncodedSegment := by
  intro s i bits rest hhost hb hstage hi henc hstream
  refine step_of_fetchSegment hhost hb hstage ?_
  rw [State.fetchSegment, hstream, decodeSegment_encode hi henc]

end Sys2Proof.Machine
end

section
/-! SUPPORT. GF(256) (R92 to R98): doubling and the product are linear, and every nonzero byte is a power of α, so that the laws
of the product are laws of exponents. -/

namespace Sys2Proof.Machine

/-! ## The sum, R92: the laws of exclusive-or with the model's numeral 0 -/

theorem byte_xor_zero (a : Byte) : a ^^^ 0 = a := BitVec.xor_zero
theorem byte_zero_xor (a : Byte) : 0 ^^^ a = a := BitVec.zero_xor
theorem byte_xor_self (a : Byte) : a ^^^ a = 0 := BitVec.xor_self

/-- What is added to both summands cancels. -/
theorem byte_xor_cancel (a m b : Byte) : a ^^^ m ^^^ (b ^^^ m) = a ^^^ b := by
  rw [BitVec.xor_comm b, ← BitVec.xor_assoc, BitVec.xor_assoc a, byte_xor_self, byte_xor_zero]

/-! ## Doubling, R93 -/

theorem gfDouble_eq : ∀ r : Byte, gfDouble r = r <<< 1 ^^^ (if r.msb then 0x1D else 0) := by decide

@[simp] theorem gfDouble_zero : gfDouble 0 = 0 := rfl

theorem gfDouble_xor (a b : Byte) : gfDouble (a ^^^ b) = gfDouble a ^^^ gfDouble b := by
  have hmsb : (if (a ^^^ b).msb then (0x1D : Byte) else 0) = (if a.msb then 0x1D else 0) ^^^ (if b.msb then 0x1D else 0) := by
    rw [BitVec.msb_xor]
    cases a.msb <;> cases b.msb <;> rfl
  simp only [gfDouble_eq, hmsb, BitVec.shiftLeft_xor_distrib]
  ac_rfl

theorem gfDouble_eq_zero_iff : ∀ a : Byte, gfDouble a = 0 ↔ a = 0 := by decide

/-! ## The product as a linear map, R93 -/

/-- R93: one step of the bit-serial product. -/
def gfMulStep (a b r : Byte) (i : Nat) : Byte := if b.getLsbD i then gfDouble r ^^^ a else gfDouble r

theorem gfMul_eq_foldl (a b : Byte) : gfMul a b = [7, 6, 5, 4, 3, 2, 1, 0].foldl (gfMulStep a b) 0 := rfl

theorem gfMulStep_xor (a a' b r r' : Byte) (i : Nat) :
    gfMulStep a b r i ^^^ gfMulStep a' b r' i = gfMulStep (a ^^^ a') b (r ^^^ r') i := by
  unfold gfMulStep
  split
  · rw [gfDouble_xor]
    ac_rfl
  · rw [gfDouble_xor]

theorem gfMulStep_gfDouble (a b r : Byte) (i : Nat) : gfMulStep (gfDouble a) b (gfDouble r) i = gfDouble (gfMulStep a b r i) := by
  unfold gfMulStep
  split
  · rw [gfDouble_xor]
  · rfl

theorem gfMul_xor_left (a a' b : Byte) : gfMul (a ^^^ a') b = gfMul a b ^^^ gfMul a' b :=
  List.foldl_hom₂ _ (· ^^^ ·) (gfMulStep a b) (gfMulStep a' b) (gfMulStep (a ^^^ a') b) 0 0 fun r r' i =>
    gfMulStep_xor a a' b r r' i

theorem gfMul_gfDouble_left (a b : Byte) : gfMul (gfDouble a) b = gfDouble (gfMul a b) :=
  List.foldl_hom gfDouble (init := 0) fun r i => gfMulStep_gfDouble a b r i

@[simp] theorem gfMul_zero_left (b : Byte) : gfMul 0 b = 0 := by
  have h := gfMul_xor_left 0 0 b
  rwa [byte_xor_self, byte_xor_self] at h

@[simp] theorem gfMul_zero_right (a : Byte) : gfMul a 0 = 0 := by
  have hstep (i : Nat) : gfMulStep a 0 0 i = 0 := if_neg (by simp)
  exact List.foldl_fixed' hstep _

@[simp] theorem gfMul_one_left : ∀ b : Byte, gfMul 0x01 b = b := by decide +kernel

/-! ## The powers of α, R94 -/

theorem gfExp_eq_iterate (i : Nat) : gfExp i = gfDouble^[i] 0x01 := by
  induction i with
  | zero => rfl
  | succ i ih => rw [gfExp, ih, Function.iterate_succ_apply']

/-- R98: exponents add, because the product with a power of α is repeated doubling. -/
theorem gfMul_gfExp_gfExp (i j : Nat) : gfMul (gfExp i) (gfExp j) = gfExp (i + j) := by
  induction i with
  | zero => rw [gfExp, gfMul_one_left, Nat.zero_add]
  | succ i ih => rw [gfExp, gfMul_gfDouble_left, ih, Nat.succ_add, gfExp]

theorem gfExp_ne_zero (i : Nat) : gfExp i ≠ 0 := by
  induction i with
  | zero => decide
  | succ i ih => rwa [gfExp, ne_eq, gfDouble_eq_zero_iff]

theorem gfExp_255 : gfExp 255 = 0x01 := by decide +kernel

theorem gfExp_add_255 (i : Nat) : gfExp (i + 255) = gfExp i := by
  rw [gfExp_eq_iterate, Function.iterate_add_apply, ← gfExp_eq_iterate 255, gfExp_255, ← gfExp_eq_iterate]

@[simp] theorem gfExp_mod (i : Nat) : gfExp (i % 255) = gfExp i := Function.Periodic.map_mod_nat gfExp_add_255 i

/-- R94: α has order 255, because no proper divisor of 255 is a period. -/
theorem minimalPeriod_gfDouble : Function.minimalPeriod gfDouble 0x01 = 255 := by
  have hperiod : ∀ d ∈ Nat.divisors 255, gfExp d = 0x01 → d = 255 := by decide +kernel
  refine hperiod _ (Nat.mem_divisors.2 ⟨?_, by decide⟩) ?_
  · exact Function.IsPeriodicPt.minimalPeriod_dvd ((gfExp_eq_iterate 255).symm.trans gfExp_255)
  · rw [gfExp_eq_iterate, Function.iterate_minimalPeriod]

theorem gfExp_inj {i j : Nat} (hi : i < 255) (hj : j < 255) : gfExp i = gfExp j ↔ i = j := by
  rw [gfExp_eq_iterate, gfExp_eq_iterate]
  exact Function.iterate_eq_iterate_iff_of_lt_minimalPeriod (by rwa [minimalPeriod_gfDouble]) (by rwa [minimalPeriod_gfDouble])

/-- R94: the 255 powers of α are distinct and nonzero, and there are 255 nonzero bytes. -/
theorem exists_gfExp_eq {e : Byte} (he : e ≠ 0) : ∃ i < 255, gfExp i = e := by
  have himage : (Finset.range 255).image gfExp = Finset.univ.erase 0 := by
    refine Finset.eq_of_subset_of_card_le ?_ ?_
    · intro x hx
      obtain ⟨i, -, rfl⟩ := Finset.mem_image.1 hx
      exact Finset.mem_erase.2 ⟨gfExp_ne_zero i, Finset.mem_univ _⟩
    · rw [Finset.card_image_of_injOn, Finset.card_range, Finset.card_erase_of_mem (Finset.mem_univ _), Finset.card_univ,
        ← FinEnum.card_eq_fintypeCard, FinEnum.card_bitVec]
      · decide
      · intro i hi j hj hij
        exact (gfExp_inj (Finset.mem_range.1 hi) (Finset.mem_range.1 hj)).1 hij
  have he' : e ∈ (Finset.range 255).image gfExp := himage ▸ Finset.mem_erase.2 ⟨he, Finset.mem_univ e⟩
  simpa using he'

/-! ## The laws of the product, R98 -/

theorem gfMul_comm (a b : Byte) : gfMul a b = gfMul b a := by
  by_cases ha : a = 0
  · rw [ha, gfMul_zero_left, gfMul_zero_right]
  by_cases hb : b = 0
  · rw [hb, gfMul_zero_left, gfMul_zero_right]
  obtain ⟨i, -, rfl⟩ := exists_gfExp_eq ha
  obtain ⟨j, -, rfl⟩ := exists_gfExp_eq hb
  rw [gfMul_gfExp_gfExp, gfMul_gfExp_gfExp, Nat.add_comm]

theorem gfMul_assoc (a b c : Byte) : gfMul (gfMul a b) c = gfMul a (gfMul b c) := by
  by_cases ha : a = 0
  · simp only [ha, gfMul_zero_left]
  obtain ⟨i, -, rfl⟩ := exists_gfExp_eq ha
  induction i with
  | zero => rw [gfExp, gfMul_one_left, gfMul_one_left]
  | succ i ih => simp only [gfExp, gfMul_gfDouble_left, ih (gfExp_ne_zero i)]

theorem gfMul_xor_right (a b c : Byte) : gfMul a (b ^^^ c) = gfMul a b ^^^ gfMul a c := by
  rw [gfMul_comm, gfMul_xor_left, gfMul_comm b, gfMul_comm c]

@[simp] theorem gfMul_one_right (a : Byte) : gfMul a 0x01 = a := by rw [gfMul_comm, gfMul_one_left]

theorem gfMul_ne_zero {a b : Byte} (ha : a ≠ 0) (hb : b ≠ 0) : gfMul a b ≠ 0 := by
  obtain ⟨i, -, rfl⟩ := exists_gfExp_eq ha
  obtain ⟨j, -, rfl⟩ := exists_gfExp_eq hb
  exact gfMul_gfExp_gfExp i j ▸ gfExp_ne_zero (i + j)

/-- In characteristic 2 a square is additive, and only 0 has the square 0. -/
theorem gfSquare_injective : Function.Injective fun x : Byte => gfMul x x := by
  intro a b (h : gfMul a a = gfMul b b)
  have hsquare : gfMul (a ^^^ b) (a ^^^ b) = 0 := by
    rw [gfMul_xor_left, gfMul_xor_right, gfMul_xor_right, gfMul_comm b a, h, BitVec.xor_comm _ (gfMul b b), byte_xor_self]
  by_contra hab
  exact gfMul_ne_zero (mt BitVec.xor_eq_zero_iff.1 hab) (mt BitVec.xor_eq_zero_iff.1 hab) hsquare

/-! ## The logarithm and the inverse, R95, R97 -/

theorem gfLogFrom_gfExp {fuel i k : Nat} (hk : k < fuel) (hi : i + fuel ≤ 255) :
    gfLogFrom (gfExp (i + k)) fuel i (gfExp i) = some (i + k) := by
  induction fuel generalizing i k with
  | zero => omega
  | succ fuel ih =>
    cases k with
    | zero => exact if_pos rfl
    | succ k =>
      rw [gfLogFrom, if_neg (mt (gfExp_inj (by omega) (by omega)).1 (by omega)), ← Nat.succ_add_eq_add_succ]
      exact ih (by omega) (by omega)

theorem gfLog_gfExp {i : Nat} (hi : i < 255) : gfLog (gfExp i) = i := by
  have h := gfLogFrom_gfExp hi (Nat.zero_add 255).le
  rw [Nat.zero_add] at h
  exact congrArg (·.getD Config.logOfZero) h

theorem gfLog_spec {e : Byte} (he : e ≠ 0) : gfLog e < 255 ∧ gfExp (gfLog e) = e := by
  obtain ⟨i, hi, rfl⟩ := exists_gfExp_eq he
  rw [gfLog_gfExp hi]
  exact ⟨hi, rfl⟩

/-- R96: the table form of the product. -/
theorem gfMul_eq_gfExp {a b : Byte} (ha : a ≠ 0) (hb : b ≠ 0) : gfMul a b = gfExp ((gfLog a + gfLog b) % 255) := by
  rw [gfExp_mod, ← gfMul_gfExp_gfExp, (gfLog_spec ha).2, (gfLog_spec hb).2]

theorem gfMul_gfInv {a : Byte} (ha : a ≠ 0) : gfMul a (gfInv a) = 0x01 := by
  obtain ⟨hlt, hexp⟩ := gfLog_spec ha
  calc gfMul a (gfInv a)
    _ = gfMul (gfExp (gfLog a)) (gfExp (255 - gfLog a)) := by rw [hexp, gfInv, if_neg ha, gfExp_mod]
    _ = gfExp 255 := by rw [gfMul_gfExp_gfExp, Nat.add_sub_cancel' hlt.le]
    _ = 0x01 := gfExp_255

theorem gfMul_gfInv_cancel (a : Byte) {b : Byte} (hb : b ≠ 0) : gfMul (gfMul a (gfInv b)) b = a := by
  rw [gfMul_assoc, gfMul_comm (gfInv b), gfMul_gfInv hb, gfMul_one_right]

/-- Settles O25: the inverse is `gfInv`, and an injection of the finite set of bytes is a bijection. -/
theorem fieldLaws : Obligations.FieldLaws :=
  ⟨gfMul_assoc, gfMul_comm, gfMul_xor_right, BitVec.xor_assoc, BitVec.xor_comm, byte_xor_zero, gfMul_one_right, by decide,
    byte_xor_self, fun a ha => ⟨gfInv a, gfMul_gfInv ha⟩, fun i j => by rw [gfExp_mod, gfMul_gfExp_gfExp],
    Finite.injective_iff_bijective.1 gfSquare_injective⟩

/-- Settles O26; 0x02 is α to the power 1. -/
theorem exponentsAndLogarithms : Obligations.ExponentsAndLogarithms :=
  ⟨rfl, fun i => (gfMul_gfExp_gfExp i 1).symm, gfExp_255, fun _ => gfLog_spec, fun i hi => ⟨gfExp_ne_zero i, gfLog_gfExp hi⟩,
    fun _ _ => gfMul_eq_gfExp, fun _ => gfMul_gfInv⟩

end Sys2Proof.Machine
end

section
/-! SUPPORT. Polynomials over GF(256) (R99 to R101): the coefficients of each operation, and division with remainder. -/

namespace Sys2Proof.Machine

/-! ## Coefficients, R99 -/

@[simp] theorem Poly.coeff_nil (i : Nat) : Poly.coeff [] i = 0 := rfl
@[simp] theorem Poly.coeff_cons_zero (a : Byte) (p : Poly) : Poly.coeff (a :: p) 0 = a := rfl
@[simp] theorem Poly.coeff_cons_succ (a : Byte) (p : Poly) (i : Nat) : Poly.coeff (a :: p) (i + 1) = p.coeff i := rfl

theorem Poly.add_nil (p : Poly) : Poly.add p [] = p := by cases p <;> rfl

@[simp] theorem Poly.coeff_add (p q : Poly) (i : Nat) : (Poly.add p q).coeff i = p.coeff i ^^^ q.coeff i := by
  induction p, q using Poly.add.induct generalizing i with
  | case1 q => rw [Poly.add, coeff_nil, byte_zero_xor]
  | case2 p _ => rw [Poly.add_nil, coeff_nil, byte_xor_zero]
  | case3 a p b q ih =>
    cases i with
    | zero => rfl
    | succ i => exact ih i

@[simp] theorem Poly.coeff_scale (c : Byte) (p : Poly) (i : Nat) : (Poly.scale c p).coeff i = gfMul c (p.coeff i) := by
  induction p generalizing i with
  | nil => rw [Poly.scale, List.map_nil, coeff_nil, gfMul_zero_right]
  | cons a p ih =>
    cases i with
    | zero => rfl
    | succ i => exact ih i

theorem Poly.coeff_mul_cons (a : Byte) (p q : Poly) (i : Nat) :
    (Poly.mul (a :: p) q).coeff i = gfMul a (q.coeff i) ^^^ Poly.coeff (0 :: Poly.mul p q) i := by
  rw [Poly.mul, coeff_add, coeff_scale]

/-- R100: the product distributes over the sum. -/
theorem Poly.coeff_add_mul (p p' q : Poly) (i : Nat) :
    (Poly.mul (Poly.add p p') q).coeff i = (Poly.mul p q).coeff i ^^^ (Poly.mul p' q).coeff i := by
  induction p, p' using Poly.add.induct generalizing i with
  | case1 p' => rw [Poly.add, Poly.mul, coeff_nil, byte_zero_xor]
  | case2 p _ => rw [Poly.add_nil, Poly.mul, coeff_nil, byte_xor_zero]
  | case3 a p a' p' ih =>
    rw [Poly.add, coeff_mul_cons, coeff_mul_cons, coeff_mul_cons, gfMul_xor_left]
    cases i with
    | zero =>
      simp only [coeff_cons_zero]
      ac_rfl
    | succ i =>
      simp only [coeff_cons_succ, ih]
      ac_rfl

/-- R100: the product with `c·x^d`. -/
theorem Poly.coeff_mono_mul (d : Nat) (c : Byte) (q : Poly) (i : Nat) :
    (Poly.mul (Poly.mono d c) q).coeff i = if i < d then 0 else gfMul c (q.coeff (i - d)) := by
  induction d generalizing i with
  | zero =>
    have hzero : Poly.coeff (0 :: Poly.mul [] q) i = 0 := by cases i <;> rfl
    exact (coeff_mul_cons c [] q i).trans (by rw [hzero, byte_xor_zero]; rfl)
  | succ d ih =>
    refine (coeff_mul_cons 0 (Poly.mono d c) q i).trans ?_
    rw [gfMul_zero_left, byte_zero_xor]
    cases i with
    | zero => rfl
    | succ i => simp only [coeff_cons_succ, ih, Nat.succ_lt_succ_iff, Nat.succ_sub_succ]

/-! ## Degrees, R99 -/

theorem Poly.isZero_iff (p : Poly) : p.isZero = true ↔ ∀ i, p.coeff i = 0 := by
  induction p with
  | nil => exact iff_of_true rfl coeff_nil
  | cons a p ih =>
    rw [Poly.isZero, List.all_cons, Bool.and_eq_true, beq_iff_eq, ← Poly.isZero, ih]
    constructor
    · rintro ⟨ha, hp⟩ (_ | i)
      · exact ha
      · exact hp i
    · exact fun h => ⟨h 0, fun i => h (i + 1)⟩

theorem Poly.coeff_of_deg_lt {p : Poly} {i : Nat} (h : p.deg < i) : p.coeff i = 0 := by
  induction p generalizing i with
  | nil => rfl
  | cons a p ih =>
    obtain ⟨i, rfl⟩ := Nat.exists_eq_succ_of_ne_zero (Nat.ne_of_gt (Nat.zero_lt_of_lt h))
    rw [Poly.deg] at h
    split at h
    case isTrue hzero => exact (Poly.isZero_iff p).1 hzero i
    case isFalse => exact ih (by omega)

theorem Poly.lead_ne_zero {p : Poly} (h : p.isZero = false) : p.lead ≠ 0 := by
  induction p with
  | nil => cases h
  | cons a p ih =>
    rw [Poly.lead, Poly.deg]
    split
    case isTrue hzero =>
      intro (ha : a = 0)
      rw [Poly.isZero, List.all_cons, ← Poly.isZero, hzero, ha] at h
      cases h
    case isFalse hzero => exact ih (by simpa using hzero)

/-- Every coefficient of `p` from `x^n` on is 0. -/
def Poly.Below (p : Poly) (n : Nat) : Prop := ∀ i, n ≤ i → p.coeff i = 0

theorem Poly.below_deg_succ (p : Poly) : p.Below (p.deg + 1) := fun _ h => coeff_of_deg_lt h

theorem Poly.Below.mono {p : Poly} {m n : Nat} (h : p.Below m) (hmn : m ≤ n) : p.Below n := fun i hi => h i (hmn.trans hi)

theorem Poly.below_zero_iff (p : Poly) : p.Below 0 ↔ p.isZero = true := by
  rw [Poly.isZero_iff]
  exact forall_congr' fun i => forall_prop_of_true i.zero_le

theorem Poly.Below.deg_lt {p : Poly} {n : Nat} (h : p.Below n) (hp : p.isZero = false) : p.deg < n := by
  by_contra hdeg
  exact lead_ne_zero hp (h _ (not_lt.1 hdeg))

/-! ## Division, R101 -/

/-- R101: the polynomial a pass of the division adds to the remainder. -/
def Poly.divTerm (b : Poly) (li : Byte) (r : Poly) : Poly := Poly.mono (r.deg - b.deg) (gfMul r.lead li)

theorem Poly.divLoop_succ (b : Poly) (li : Byte) (fuel : Nat) (q r : Poly) :
    Poly.divLoop b li (fuel + 1) q r = if r.isZero = false ∧ b.deg ≤ r.deg then
      Poly.divLoop b li fuel (Poly.add q (divTerm b li r)) (Poly.add r (Poly.mul (divTerm b li r) b)) else (q, r) := by
  simp [Poly.divLoop, divTerm]

/-- R101: every pass keeps `q·b + r`, because the same multiple of `b` enters both summands. -/
theorem Poly.coeff_divLoop (b : Poly) (li : Byte) (fuel : Nat) (q r : Poly) (i : Nat) :
    (Poly.mul (Poly.divLoop b li fuel q r).1 b).coeff i ^^^ (Poly.divLoop b li fuel q r).2.coeff i =
      (Poly.mul q b).coeff i ^^^ r.coeff i := by
  induction fuel generalizing q r with
  | zero => rfl
  | succ fuel ih =>
    rw [divLoop_succ]
    split
    case isFalse => rfl
    case isTrue =>
      rw [ih, coeff_add_mul, coeff_add, byte_xor_cancel]

/-- R101: a pass clears the leading coefficient of the remainder. -/
theorem Poly.below_deg_of_pass {b r : Poly} (hb : b.isZero = false) (hdeg : b.deg ≤ r.deg) :
    (Poly.add r (Poly.mul (divTerm b (gfInv b.lead) r) b)).Below r.deg := by
  intro i hi
  rw [coeff_add, divTerm, coeff_mono_mul, if_neg (by omega)]
  rcases hi.eq_or_lt with rfl | hlt
  · rw [Nat.sub_sub_self hdeg, ← lead, ← lead, gfMul_gfInv_cancel _ (lead_ne_zero hb), byte_xor_self]
  · rw [coeff_of_deg_lt hlt, coeff_of_deg_lt (p := b) (by omega), gfMul_zero_right, byte_xor_zero]

theorem Poly.divLoop_remainder {b : Poly} (hb : b.isZero = false) {fuel : Nat} (q : Poly) {r : Poly} (h : r.Below fuel) :
    (Poly.divLoop b (gfInv b.lead) fuel q r).2.isZero = true ∨ (Poly.divLoop b (gfInv b.lead) fuel q r).2.deg < b.deg := by
  induction fuel generalizing q r with
  | zero => exact .inl ((below_zero_iff r).1 h)
  | succ fuel ih =>
    rw [divLoop_succ]
    split
    case isTrue hpass =>
      obtain ⟨hr, hdeg⟩ := hpass
      exact ih _ ((below_deg_of_pass hb hdeg).mono (Nat.le_of_lt_succ (h.deg_lt hr)))
    case isFalse hstop =>
      by_cases hr : r.isZero = true
      · exact .inl hr
      · exact .inr (not_le.1 fun hdeg => hstop ⟨Bool.eq_false_iff.2 hr, hdeg⟩)

/-- Settles O27, with `q = 0` and `r = a` before the first pass. -/
theorem divisionWithRemainder : Obligations.DivisionWithRemainder := by
  intro a b hb
  refine ⟨fun i => ?_, Poly.divLoop_remainder hb [] a.below_deg_succ⟩
  rw [Poly.coeff_add, Poly.divmod, Poly.coeff_divLoop, Poly.mul, Poly.coeff_nil, byte_zero_xor]

end Sys2Proof.Machine
end

section
/-! SUPPORT. The answer of each command (R157): past its checks its rule answers, so with an admissible VERSION_TABLE every
instruction answers a next state. -/

namespace Sys2Proof.Machine

variable {s : State} {ver : BitVec 6} {ecl : BitVec 2}

/-! ## The checks of a command, R157 -/

theorem whenReady_next {k : Result} (hk : ∃ t, k = .next t) : ∃ t, s.whenReady k = .next t := by
  cases hr : s.ready with
  | true => rwa [State.whenReady_ready k hr]
  | false => exact ⟨_, State.whenReady_notReady k hr⟩

theorem whenParam_next {c : Bool} {k : Result} (hk : c = true → ∃ t, k = .next t) : ∃ t, s.whenParam c k = .next t := by
  cases c with
  | true => exact hk rfl
  | false => exact ⟨_, rfl⟩

/-- R66: an admitted entry stands in a record of the table. -/
theorem withEntry_next {k : EcEntry → Result} (ha : s.params.Admissible) (hv : verOk ver = true)
    (hk : ∀ e, ∃ t, k e = .next t) : ∃ t, s.withEntry ver ecl k = .next t := by
  obtain ⟨e, he⟩ := Option.isSome_iff_exists.1 (ha ver ecl hv)
  rw [State.withEntry_some k he]
  exact hk e

theorem withRecord_next {k : VersionRecord → Result} (ha : s.params.Admissible) (hv : verOk ver = true)
    (hk : ∀ r, ∃ t, k r = .next t) : ∃ t, s.withRecord ver k = .next t := by
  obtain ⟨e, he⟩ := Option.isSome_iff_exists.1 (ha ver 0 hv)
  obtain ⟨r, hr, -⟩ := entry?_some he
  rw [State.withRecord_some k hr]
  exact hk r

/-! ## The commands -/

theorem execRsDecode_next (n nec : BitVec 8) (s : State) : ∃ t, execRsDecode n nec s = .next t := by
  refine whenReady_next (whenParam_next fun _ => ?_)
  split <;> exact ⟨_, rfl⟩

theorem execRsFill_next (n nec : BitVec 8) (s : State) : ∃ t, execRsFill n nec s = .next t := by
  refine whenReady_next (whenParam_next fun _ => ?_)
  dsimp only
  split
  · exact ⟨_, rfl⟩
  · split <;> exact ⟨_, rfl⟩

theorem execDecode_next (ha : s.params.Admissible) (mask : BitVec 3) : ∃ t, execDecode ver ecl mask s = .next t := by
  refine whenReady_next (whenParam_next fun hv => withRecord_next ha hv fun r => withEntry_next ha hv fun e => ?_)
  dsimp only
  split
  · exact ⟨_, rfl⟩
  · split <;> exact ⟨_, rfl⟩

theorem execTerm_next (s : State) : ∃ t, execTerm s = .next t := by
  unfold execTerm
  split <;> exact ⟨_, rfl⟩

/-- Settles O13: the commands that use VERSION_TABLE find their record and entry; no other instruction can stop. -/
theorem execNeverStops : Obligations.ExecNeverStops := by
  intro i s ha
  cases i with
  | extract ver mask =>
    exact whenReady_next (whenParam_next fun hv => withRecord_next ha hv fun r => ⟨_, rfl⟩)
  | deinterleave ver ecl =>
    exact whenReady_next (whenParam_next fun hc => withEntry_next ha (Bool.and_eq_true_iff.1 hc).1 fun e => ⟨_, rfl⟩)
  | rsDecodeAll ver ecl => exact whenReady_next (whenParam_next fun hv => withEntry_next ha hv fun e => ⟨_, rfl⟩)
  | decode ver ecl mask => exact execDecode_next ha mask
  | rsDecode n nec => exact execRsDecode_next n nec s
  | rsEncode n nec => exact whenReady_next (whenParam_next fun _ => ⟨_, rfl⟩)
  | rsFill n nec => exact execRsFill_next n nec s
  | parse ver => exact whenReady_next (whenParam_next fun _ => ⟨_, rfl⟩)
  | term => exact execTerm_next s
  | _ => exact ⟨_, rfl⟩

end Sys2Proof.Machine
end

section
/-! SUPPORT. The scan (R114, R115) as a list over the column pairs and the rows: the order it visits in, and what it visits. -/

namespace Sys2Proof.Machine

/-! ## The column pairs, R114 -/

/-- R114: the right column of pair `k` of a grid `dim` modules wide; the pairs left of column 6 are shifted by one. -/
def pairColumn (dim k : Nat) : Nat := if dim - 1 - 2 * k > 6 then dim - 1 - 2 * k else dim - 2 - 2 * k

/-- R114: the columns from pair `k` on, where column 6 stands for column 5. -/
theorem scanColumns_eq {dim fuel k col : Nat} (hodd : dim % 2 = 1) (hfuel : dim ≤ 2 * k + 2 * fuel)
    (hcol : (if col = 6 then 5 else col) = pairColumn dim k) :
    scanColumns fuel col = (List.range' k ((dim - 1) / 2 - k)).map (pairColumn dim) := by
  induction fuel generalizing k col with
  | zero =>
    have hnone : (dim - 1) / 2 - k = 0 := by omega
    rw [hnone]; rfl
  | succ fuel ih =>
    by_cases hk : k < (dim - 1) / 2
    · have hpos : 0 < col := by unfold pairColumn at hcol; split_ifs at hcol <;> omega
      have hsucc : (dim - 1) / 2 - k = (dim - 1) / 2 - (k + 1) + 1 := by omega
      have hnext : (if pairColumn dim k - 2 = 6 then 5 else pairColumn dim k - 2) = pairColumn dim (k + 1) := by
        unfold pairColumn; split_ifs <;> omega
      simp only [scanColumns, hpos, if_true, hcol]
      rw [hsucc, List.range'_succ, List.map_cons, ih (by omega) hnext]
    · have hzero : col = 0 := by unfold pairColumn at hcol; split_ifs at hcol <;> omega
      have hnone : (dim - 1) / 2 - k = 0 := by omega
      rw [hnone, hzero]; rfl

theorem scanPairs_range' (dim k n : Nat) (f : Nat → Nat) :
    scanPairs dim (decide (k % 2 = 0)) ((List.range' k n).map f)
      = (List.range' k n).flatMap fun j => scanPair dim (decide (j % 2 = 0)) (f j) := by
  induction n generalizing k with
  | zero => rfl
  | succ n ih =>
    have hflip : (!decide (k % 2 = 0)) = decide ((k + 1) % 2 = 0) := by
      rw [← decide_not]; exact decide_eq_decide.2 (by omega)
    rw [List.range'_succ, List.map_cons, List.flatMap_cons, ← ih (k + 1), ← hflip]
    rfl

theorem dimOf_odd (ver : BitVec 6) : dimOf ver % 2 = 1 := by unfold dimOf; omega

theorem dimOf_ge (ver : BitVec 6) : 17 ≤ dimOf ver := by unfold dimOf; omega

/-- R114: every module of the column pairs, data or not, in the order of the zig-zag. -/
def zigzag (dim : Nat) : List (Nat × Nat) :=
  (List.range ((dim - 1) / 2)).flatMap fun k => scanPair dim (decide (k % 2 = 0)) (pairColumn dim k)

/-- R114, R115: the scan is the zig-zag without the function modules. -/
theorem scan_eq (ver : BitVec 6) (centres : List Nat) :
    scan ver centres = (zigzag (dimOf ver)).filter fun p => !functionModule (functionRects ver centres) p.1 p.2 := by
  have hdim := dimOf_ge ver
  have hfirst : (if dimOf ver - 1 = 6 then 5 else dimOf ver - 1) = pairColumn (dimOf ver) 0 := by
    unfold pairColumn; split_ifs <;> omega
  have hcols := scanColumns_eq (fuel := dimOf ver) (dimOf_odd ver) (by omega) hfirst
  have hpairs := scanPairs_range' (dimOf ver) 0 ((dimOf ver - 1) / 2) (pairColumn (dimOf ver))
  rw [Nat.sub_zero] at hcols
  rw [← List.range_eq_range'] at hcols hpairs
  unfold scan zigzag
  dsimp only
  rw [hcols, ← hpairs]
  rfl

/-! ## The order, R114 -/

variable {dim k : Nat}

theorem pairOf_pairColumn (hodd : dim % 2 = 1) (hk : k < (dim - 1) / 2) :
    pairOf dim (pairColumn dim k) = k ∧ pairOf dim (pairColumn dim k - 1) = k := by
  unfold pairOf pairColumn
  constructor <;> split_ifs <;> omega

/-- R114: row `i` in the direction of pair `k`. -/
def pairRow (dim k i : Nat) : Nat := if k % 2 = 0 then dim - 1 - i else i

theorem scanPair_eq (dim k col : Nat) : scanPair dim (decide (k % 2 = 0)) col =
    (List.range dim).flatMap fun i => [(col, pairRow dim k i), (col - 1, pairRow dim k i)] := by
  simp only [scanPair, pairRow, decide_eq_true_eq]

theorem mem_scanPair {p : Nat × Nat} {col : Nat} : p ∈ scanPair dim (decide (k % 2 = 0)) col ↔
    ∃ i < dim, p = (col, pairRow dim k i) ∨ p = (col - 1, pairRow dim k i) := by
  simp only [scanPair_eq, List.mem_flatMap, List.mem_range, List.mem_cons, List.not_mem_nil, or_false]

/-- R114: where the two modules of row `i` of pair `k` come. -/
theorem zigzagRank_pair (hodd : dim % 2 = 1) (hk : k < (dim - 1) / 2) {i : Nat} (hi : i < dim) :
    zigzagRank dim (pairColumn dim k) (pairRow dim k i) = 2 * (dim * k + i) ∧
    zigzagRank dim (pairColumn dim k - 1) (pairRow dim k i) = 2 * (dim * k + i) + 1 := by
  obtain ⟨hright, hleft⟩ := pairOf_pairColumn hodd hk
  have hrow : (if k % 2 = 0 then dim - 1 - pairRow dim k i else pairRow dim k i) = i := by
    unfold pairRow; split_ifs <;> omega
  unfold zigzagRank
  simp only [hright, hleft, hrow]
  unfold pairColumn
  constructor <;> split_ifs <;> omega

theorem zigzagRank_of_mem_row (hodd : dim % 2 = 1) (hk : k < (dim - 1) / 2) {i : Nat} (hi : i < dim) {p : Nat × Nat}
    (hp : p = (pairColumn dim k, pairRow dim k i) ∨ p = (pairColumn dim k - 1, pairRow dim k i)) :
    2 * (dim * k + i) ≤ zigzagRank dim p.1 p.2 ∧ zigzagRank dim p.1 p.2 ≤ 2 * (dim * k + i) + 1 := by
  obtain ⟨hright, hleft⟩ := zigzagRank_pair hodd hk hi
  obtain rfl | rfl := hp
  · rw [hright]; omega
  · rw [hleft]; omega

/-- R114: the ranks of pair `k` lie between those of its neighbours. -/
theorem zigzagRank_of_mem (hodd : dim % 2 = 1) (hk : k < (dim - 1) / 2) {p : Nat × Nat}
    (hp : p ∈ scanPair dim (decide (k % 2 = 0)) (pairColumn dim k)) :
    2 * (dim * k) ≤ zigzagRank dim p.1 p.2 ∧ zigzagRank dim p.1 p.2 < 2 * (dim * (k + 1)) := by
  obtain ⟨i, hi, hp⟩ := mem_scanPair.1 hp
  obtain ⟨hlo, hhi⟩ := zigzagRank_of_mem_row hodd hk hi hp
  rw [Nat.mul_succ]
  omega

theorem scanPair_pairwise (hodd : dim % 2 = 1) (hk : k < (dim - 1) / 2) :
    (scanPair dim (decide (k % 2 = 0)) (pairColumn dim k)).Pairwise
      fun p q => zigzagRank dim p.1 p.2 < zigzagRank dim q.1 q.2 := by
  rw [scanPair_eq, List.pairwise_flatMap]
  refine ⟨fun i hi => ?_, List.pairwise_lt_range.imp_of_mem fun {i j} hi hj hij p hp q hq => ?_⟩
  · obtain ⟨hright, hleft⟩ := zigzagRank_pair hodd hk (List.mem_range.1 hi)
    rw [List.pairwise_pair, hright, hleft]
    exact Nat.lt_succ_self _
  · have hfirst := (zigzagRank_of_mem_row hodd hk (List.mem_range.1 hi) (List.mem_pair.1 hp)).2
    have hsecond := (zigzagRank_of_mem_row hodd hk (List.mem_range.1 hj) (List.mem_pair.1 hq)).1
    omega

theorem zigzag_pairwise (hodd : dim % 2 = 1) :
    (zigzag dim).Pairwise fun p q => zigzagRank dim p.1 p.2 < zigzagRank dim q.1 q.2 := by
  unfold zigzag
  rw [List.pairwise_flatMap]
  refine ⟨fun k hk => scanPair_pairwise hodd (List.mem_range.1 hk),
    List.pairwise_lt_range.imp_of_mem fun {j k} hj hk hjk p hp q hq => ?_⟩
  calc zigzagRank dim p.1 p.2
    _ < 2 * (dim * (j + 1)) := (zigzagRank_of_mem hodd (List.mem_range.1 hj) hp).2
    _ ≤ 2 * (dim * k) := Nat.mul_le_mul_left 2 (Nat.mul_le_mul_left dim hjk)
    _ ≤ zigzagRank dim q.1 q.2 := (zigzagRank_of_mem hodd (List.mem_range.1 hk) hq).1

/-! ## What is visited, R114, R115 -/

/-- R114: the column pairs hold every module but those of column 6. -/
theorem mem_zigzag (hodd : dim % 2 = 1) (hdim : 9 ≤ dim) (x y : Nat) :
    (x, y) ∈ zigzag dim ↔ x < dim ∧ y < dim ∧ x ≠ 6 := by
  simp only [zigzag, List.mem_flatMap, List.mem_range, mem_scanPair, Prod.mk.injEq, pairRow, pairColumn]
  constructor
  · rintro ⟨k, hk, i, hi, ⟨rfl, rfl⟩ | ⟨rfl, rfl⟩⟩
    · refine ⟨?_, ?_, ?_⟩ <;> split_ifs <;> omega
    · refine ⟨?_, ?_, ?_⟩ <;> split_ifs <;> omega
  · rintro ⟨hx, hy, h6⟩
    refine ⟨pairOf dim x, ?_, if pairOf dim x % 2 = 0 then dim - 1 - y else y, ?_, ?_⟩
    · unfold pairOf; split_ifs <;> omega
    · split_ifs <;> omega
    · unfold pairOf; split_ifs <;> omega

theorem Rect.covers_iff (r : Rect) (x y : Nat) : r.covers x y = true ↔
    r.left ≤ x ∧ (x : Int) < r.left + r.width ∧ r.top ≤ y ∧ (y : Int) < r.top + r.height := by
  simp only [Rect.covers, Bool.and_eq_true, decide_eq_true_eq, and_assoc]

/-- R112: column 6 is covered from top to bottom, by two finder patterns and the vertical timing pattern between them. -/
theorem functionModule_column6 (ver : BitVec 6) (centres : List Nat) {y : Nat} (hy : y < dimOf ver) :
    functionModule (functionRects ver centres) 6 y = true := by
  have hdim := dimOf_ge ver
  simp only [functionModule, List.any_eq_true, functionRects, List.mem_append, List.mem_cons]
  by_cases htop : y < 9
  · exact ⟨⟨0, 0, 9, 9⟩, by simp, by rw [Rect.covers_iff]; dsimp only; omega⟩
  · by_cases hbottom : dimOf ver - 8 ≤ y
    · exact ⟨⟨0, dimOf ver - 8, 9, 8⟩, by simp, by rw [Rect.covers_iff]; dsimp only; omega⟩
    · exact ⟨⟨6, 9, 1, dimOf ver - 17⟩, by simp, by rw [Rect.covers_iff]; dsimp only; omega⟩

theorem mem_scan (ver : BitVec 6) (centres : List Nat) (x y : Nat) : (x, y) ∈ scan ver centres ↔
    x < dimOf ver ∧ y < dimOf ver ∧ functionModule (functionRects ver centres) x y = false := by
  have hdim := dimOf_ge ver
  rw [scan_eq, List.mem_filter, mem_zigzag (dimOf_odd ver) (by omega), Bool.not_eq_true']
  constructor
  · exact fun ⟨⟨hx, hy, _⟩, hf⟩ => ⟨hx, hy, hf⟩
  · rintro ⟨hx, hy, hf⟩
    refine ⟨⟨hx, hy, ?_⟩, hf⟩
    rintro rfl
    rw [functionModule_column6 ver centres hy] at hf
    cases hf

theorem scan_pairwise (ver : BitVec 6) (centres : List Nat) : (scan ver centres).Pairwise
    fun p q => zigzagRank (dimOf ver) p.1 p.2 < zigzagRank (dimOf ver) q.1 q.2 := by
  rw [scan_eq]
  exact (zigzag_pairwise (dimOf_odd ver)).filter _

/-- A module comes once, for its rank is less than that of every module after it. -/
theorem scan_nodup (ver : BitVec 6) (centres : List Nat) : (scan ver centres).Nodup :=
  (scan_pairwise ver centres).imp fun h he => by rw [he] at h; exact lt_irrefl _ h

/-- Settles O19. -/
theorem scanVisitsEachDataModuleOnce : Obligations.ScanVisitsEachDataModuleOnce := fun ver centres =>
  ⟨scan_nodup ver centres, scan_pairwise ver centres, mem_scan ver centres⟩

end Sys2Proof.Machine
end

section
/-! SUPPORT. The number of modules under a list of rectangles (R112), by inclusion and exclusion, and with it D(VER) (R115)
and the totals of the default VERSION_TABLE (R111, R125). -/

namespace Sys2Proof.Machine

/-! ## Rectangles, R112 -/

/-- Where two rectangles overlap. -/
def Rect.inter (r q : Rect) : Rect where
  left := max r.left q.left
  top := max r.top q.top
  width := (min (r.left + r.width) (q.left + q.width) - max r.left q.left).toNat
  height := (min (r.top + r.height) (q.top + q.height) - max r.top q.top).toNat

theorem Rect.covers_inter (r q : Rect) (x y : Nat) : (r.inter q).covers x y = (r.covers x y && q.covers x y) := by
  rw [Bool.eq_iff_iff, Bool.and_eq_true, covers_iff, covers_iff, covers_iff]
  simp only [inter]
  omega

/-- The rectangles overlap. -/
def Rect.meets (r q : Rect) : Bool :=
  q.left < r.left + r.width && r.left < q.left + q.width && q.top < r.top + r.height && r.top < q.top + q.height

theorem Rect.meets_of_covers {r q : Rect} {x y : Nat} (hr : r.covers x y = true) (hq : q.covers x y = true) :
    r.meets q = true := by
  rw [covers_iff] at hr hq
  simp only [meets, Bool.and_eq_true, decide_eq_true_eq]
  omega

def Rect.area (r : Rect) : Nat := r.width * r.height

/-- The rectangle lies in a grid `dim` modules wide. -/
def Rect.inGrid (dim : Nat) (r : Rect) : Bool :=
  0 ≤ r.left && r.left + r.width ≤ dim && 0 ≤ r.top && r.top + r.height ≤ dim

theorem Rect.inGrid_iff {dim : Nat} {r : Rect} : r.inGrid dim = true ↔
    0 ≤ r.left ∧ r.left + r.width ≤ dim ∧ 0 ≤ r.top ∧ r.top + r.height ≤ dim := by
  simp only [inGrid, Bool.and_eq_true, decide_eq_true_eq, and_assoc]

/-! ## The modules a list of rectangles covers -/

/-- The modules of the grid that one of the rectangles covers. -/
def coveredModules (dim : Nat) (rects : List Rect) : Finset (Nat × Nat) :=
  (Finset.range dim ×ˢ Finset.range dim).filter fun p => functionModule rects p.1 p.2 = true

theorem mem_coveredModules {dim : Nat} {rects : List Rect} {p : Nat × Nat} :
    p ∈ coveredModules dim rects ↔ (p.1 < dim ∧ p.2 < dim) ∧ ∃ r ∈ rects, r.covers p.1 p.2 = true := by
  simp only [coveredModules, functionModule, Finset.mem_filter, Finset.mem_product, Finset.mem_range, List.any_eq_true]

theorem coveredModules_nil (dim : Nat) : coveredModules dim [] = ∅ :=
  Finset.eq_empty_of_forall_notMem fun p hp => by
    obtain ⟨-, r, hr, -⟩ := mem_coveredModules.1 hp
    cases hr

theorem coveredModules_cons (dim : Nat) (r : Rect) (rects : List Rect) :
    coveredModules dim (r :: rects) = coveredModules dim [r] ∪ coveredModules dim rects := by
  ext p
  simp only [Finset.mem_union, mem_coveredModules, List.mem_cons, List.not_mem_nil, or_false, or_and_right, exists_or,
    exists_eq_left, and_or_left]

/-- A rectangle in the grid covers `width · height` modules. -/
theorem card_coveredModules_singleton {dim : Nat} {r : Rect} (h : r.inGrid dim = true) :
    (coveredModules dim [r]).card = r.area := by
  rw [Rect.inGrid_iff] at h
  have hbox : coveredModules dim [r] = Finset.Ico r.left.toNat (r.left.toNat + r.width)
      ×ˢ Finset.Ico r.top.toNat (r.top.toNat + r.height) := by
    ext p
    simp only [mem_coveredModules, List.mem_singleton, exists_eq_left, Rect.covers_iff, Finset.mem_product, Finset.mem_Ico]
    omega
  rw [hbox, Finset.card_product, Nat.card_Ico, Nat.card_Ico, Nat.add_sub_cancel_left, Nat.add_sub_cancel_left, Rect.area]

/-! ## Counting them -/

/-- The overlaps of `r` with the rectangles it meets. -/
def overlaps (r : Rect) (rects : List Rect) : List Rect := (rects.filter r.meets).map r.inter

/-- How many modules `n` rectangles or fewer cover: those of the first and those of the rest, less those of both. -/
def coveredCount : Nat → List Rect → Nat
  | 0, _ => 0
  | _ + 1, [] => 0
  | n + 1, r :: rects => r.area + coveredCount n rects - coveredCount n (overlaps r rects)

theorem coveredModules_overlaps (dim : Nat) (r : Rect) (rects : List Rect) :
    coveredModules dim (overlaps r rects) = coveredModules dim [r] ∩ coveredModules dim rects := by
  ext p
  simp only [Finset.mem_inter, mem_coveredModules, overlaps, List.mem_map, List.mem_filter, List.mem_singleton, exists_eq_left]
  constructor
  · rintro ⟨hp, _, ⟨q, ⟨hq, -⟩, rfl⟩, hcov⟩
    obtain ⟨hr, hq'⟩ := Bool.and_eq_true_iff.1 ((r.covers_inter q p.1 p.2).symm.trans hcov)
    exact ⟨⟨hp, hr⟩, hp, q, hq, hq'⟩
  · rintro ⟨⟨hp, hr⟩, -, q, hq, hq'⟩
    exact ⟨hp, _, ⟨q, ⟨hq, Rect.meets_of_covers hr hq'⟩, rfl⟩, by rw [Rect.covers_inter, hr, hq']; rfl⟩

theorem Rect.inGrid_inter {dim : Nat} {r q : Rect} (hr : r.inGrid dim = true) (hq : q.inGrid dim = true) :
    (r.inter q).inGrid dim = true := by
  rw [inGrid_iff] at hr hq ⊢
  simp only [inter]
  omega

/-- Inclusion and exclusion. -/
theorem card_coveredModules {dim n : Nat} {rects : List Rect} (hn : rects.length ≤ n)
    (hgrid : ∀ r ∈ rects, r.inGrid dim = true) : (coveredModules dim rects).card = coveredCount n rects := by
  induction n generalizing rects with
  | zero => rw [List.eq_nil_of_length_eq_zero (Nat.le_zero.1 hn), coveredModules_nil]; rfl
  | succ n ih =>
    cases rects with
    | nil => rw [coveredModules_nil]; rfl
    | cons r rects =>
      have hlen : rects.length ≤ n := Nat.le_of_succ_le_succ hn
      have hr := hgrid r (List.mem_cons_self ..)
      have hrest := ih hlen fun q hq => hgrid q (List.mem_cons_of_mem _ hq)
      have hboth : (coveredModules dim (overlaps r rects)).card = coveredCount n (overlaps r rects) := by
        refine ih ((List.length_map ..).trans_le ((List.length_filter_le ..).trans hlen)) fun _ hq => ?_
        obtain ⟨q, hmem, rfl⟩ := List.mem_map.1 hq
        exact Rect.inGrid_inter hr (hgrid q (List.mem_cons_of_mem _ (List.mem_filter.1 hmem).1))
      rw [coveredCount, ← hrest, ← hboth, ← card_coveredModules_singleton hr, coveredModules_cons, Finset.card_union,
        coveredModules_overlaps]

/-! ## The data modules, R115 -/

/-- R115: D(VER), all modules less those the function-pattern mask covers. -/
def dataModuleCount (ver : BitVec 6) (centres : List Nat) : Nat :=
  dimOf ver * dimOf ver - coveredCount (functionRects ver centres).length (functionRects ver centres)

theorem scan_length (ver : BitVec 6) (centres : List Nat)
    (hgrid : ∀ r ∈ functionRects ver centres, r.inGrid (dimOf ver) = true) :
    (scan ver centres).length = dataModuleCount ver centres := by
  have hset : (scan ver centres).toFinset = (Finset.range (dimOf ver) ×ˢ Finset.range (dimOf ver)) \
      coveredModules (dimOf ver) (functionRects ver centres) := by
    ext ⟨x, y⟩
    simp only [List.mem_toFinset, mem_scan, Finset.mem_sdiff, coveredModules, Finset.mem_filter, Finset.mem_product,
      Finset.mem_range, not_and, Bool.not_eq_true]
    tauto
  have hsub : coveredModules (dimOf ver) (functionRects ver centres) ⊆
      Finset.range (dimOf ver) ×ˢ Finset.range (dimOf ver) := Finset.filter_subset ..
  rw [← List.toFinset_card_of_nodup (scan_nodup ver centres), hset, Finset.card_sdiff_of_subset hsub,
    Finset.card_product, Finset.card_range, card_coveredModules le_rfl hgrid, dataModuleCount]

/-! ## The default table, R111 (b) -/

/-- R111 (b): the rectangles of the version lie in its grid, and each of its totals is the number of whole codewords. -/
def totalsMatch (ver : BitVec 6) (r : VersionRecord) : Bool :=
  (functionRects ver r.alignment).all (Rect.inGrid (dimOf ver)) &&
    [r.code0, r.code1, r.code2, r.code3].all fun e => dataModuleCount ver r.alignment / 8 == e.total

theorem level_mem (r : VersionRecord) (ecl : BitVec 2) : r.level ecl ∈ [r.code0, r.code1, r.code2, r.code3] := by
  unfold VersionRecord.level
  split <;> simp

theorem scan_length_of_totalsMatch {ver : BitVec 6} {r : VersionRecord} (h : totalsMatch ver r = true) (ecl : BitVec 2) :
    (scan ver r.alignment).length / 8 = (r.level ecl).total := by
  simp only [totalsMatch, Bool.and_eq_true, List.all_eq_true, beq_iff_eq] at h
  obtain ⟨hgrid, htotals⟩ := h
  rw [scan_length ver r.alignment hgrid]
  exact htotals _ (level_mem r ecl)

/-- The records of a table, the first of them that of version `ver`, each meet R111 (b). -/
def tableMatches (ver : Nat) (table : List VersionRecord) : Bool :=
  (table.zipIdx ver).all fun p => totalsMatch (BitVec.ofNat 6 p.2) p.1

theorem versionTable1_matches : tableMatches 1 versionTable1 = true := by decide +kernel
theorem versionTable11_matches : tableMatches 11 versionTable11 = true := by decide +kernel
theorem versionTable21_matches : tableMatches 21 versionTable21 = true := by decide +kernel
theorem versionTable31_matches : tableMatches 31 versionTable31 = true := by decide +kernel

theorem tableMatches_append (ver : Nat) (t u : List VersionRecord) :
    tableMatches ver (t ++ u) = (tableMatches ver t && tableMatches (ver + t.length) u) := by
  rw [tableMatches, List.zipIdx_append, List.all_append]; rfl

theorem defaultVersionTable_matches : tableMatches 1 defaultVersionTable = true := by
  rw [defaultVersionTable, tableMatches_append, tableMatches_append, tableMatches_append, versionTable1_matches,
    Bool.true_and, Bool.and_eq_true, Bool.and_eq_true]
  exact ⟨⟨versionTable11_matches, versionTable21_matches⟩, versionTable31_matches⟩

/-- Settles O60: the scan's length by counting what the rectangles cover, version by version. -/
theorem defaultTableTotals : Obligations.DefaultTableTotals := by
  intro ver ecl r hr
  unfold Params.record? at hr
  split at hr
  · cases hr
  · have hmem : (r, 1 + (ver.toNat - 1)) ∈ defaultVersionTable.zipIdx 1 :=
      List.mk_add_mem_zipIdx_iff_getElem?.2 hr
    have hmatch := List.all_eq_true.1 defaultVersionTable_matches _ hmem
    have hver : BitVec.ofNat 6 (1 + (ver.toNat - 1)) = ver := by
      rw [show 1 + (ver.toNat - 1) = ver.toNat by omega, BitVec.ofNat_toNat, BitVec.setWidth_eq]
    dsimp only at hmatch
    rw [hver] at hmatch
    exact scan_length_of_totalsMatch hmatch ecl

/-- Settles O20: the 160 entries evaluated; the totals are those of `defaultTableTotals`. -/
theorem defaultTableAdmissible : Obligations.DefaultTableAdmissible := by
  refine ⟨?_, fun ver ecl r _ hr => defaultTableTotals ver ecl r hr⟩
  unfold Params.Admissible
  decide +kernel

end Sys2Proof.Machine
end

section
/-! SUPPORT. EXTRACT (R113, R115, R116): the bits of what is packed, and the data masks. -/

namespace Sys2Proof.Machine

/-! ## Bit packing, R115 -/

theorem packBits_length (acc : Byte) (bits : List Bool) {k : Nat} (hk : k < 8) :
    (packBits acc k bits).1.length = (k + bits.length) / 8 ∧ (packBits acc k bits).2 = (k + bits.length) % 8 := by
  induction bits generalizing acc k with
  | nil => simp only [packBits, List.length_nil]; omega
  | cons b bits ih =>
    simp only [packBits, List.length_cons]
    split_ifs with h8
    · obtain ⟨hlen, hrem⟩ := ih 0 (k := 0) (by omega)
      simp only [List.length_cons, hlen, hrem]; omega
    · obtain ⟨hlen, hrem⟩ := ih ((acc <<< 1) ||| (BitVec.ofBool b).setWidth 8) (k := k + 1) (by omega)
      simp only [hlen, hrem]; omega

/-- The bit taken in last is the lowest; the others move up. -/
theorem getLsbD_shiftIn (acc : Byte) (b : Bool) {n : Nat} (hn : n < 8) :
    ((acc <<< 1) ||| (BitVec.ofBool b).setWidth 8).getLsbD n = if n = 0 then b else acc.getLsbD (n - 1) := by
  rcases n with _ | n
  · simp
  · simp [hn, BitVec.getLsbD_eq_getElem (show n < 8 by omega)]

/-- R115: bit `8 * i + j` of the stream, the `k` bits in `acc` being its first, is bit `7 - j` of codeword `i`. -/
theorem getLsbD_packBits (acc : Byte) (bits : List Bool) {k i j : Nat} (hk : k < 8) (hj : j < 8)
    (hi : i < (k + bits.length) / 8) : ((packBits acc k bits).1.getD i 0).getLsbD (7 - j) =
      if 8 * i + j < k then acc.getLsbD (k - 1 - (8 * i + j)) else bits.getD (8 * i + j - k) false := by
  induction bits generalizing acc k i with
  | nil => simp only [List.length_nil] at hi; omega
  | cons b bits ih =>
    simp only [packBits]
    simp only [List.length_cons] at hi
    by_cases h8 : k + 1 = 8
    · obtain rfl : k = 7 := by omega
      rw [if_pos h8]
      cases i with
      | zero =>
        rw [List.getD_cons_zero, getLsbD_shiftIn acc b (by omega)]
        by_cases hlast : j = 7
        · subst hlast; rfl
        · rw [if_neg (by omega), if_pos (by omega)]
          congr 1; omega
      | succ i =>
        have hnext : 8 * (i + 1) + j - 7 = 8 * i + j + 1 := by omega
        rw [List.getD_cons_succ, ih 0 (by omega) (by omega), if_neg (by omega), if_neg (by omega), hnext, List.getD_cons_succ]
        rfl
    · rw [if_neg h8, ih _ (by omega) (by omega)]
      by_cases hlow : 8 * i + j < k
      · rw [if_pos (by omega), if_pos hlow, getLsbD_shiftIn acc b (by omega), if_neg (by omega)]
        congr 1; omega
      · rw [if_neg hlow]
        by_cases hbit : 8 * i + j = k
        · rw [if_pos (by omega), hbit, getLsbD_shiftIn acc b (by omega), if_pos (by omega), Nat.sub_self, List.getD_cons_zero]
        · have hnext : 8 * i + j - k = 8 * i + j - (k + 1) + 1 := by omega
          rw [if_neg (by omega), hnext, List.getD_cons_succ]

/-- R115: the `n`-th bit of the stream, of which no part stands before it. -/
theorem getLsbD_packBits_zero (bits : List Bool) {i j : Nat} (hj : j < 8) (hi : i < bits.length / 8) :
    ((packBits 0 0 bits).1.getD i 0).getLsbD (7 - j) = bits.getD (8 * i + j) false := by
  rw [getLsbD_packBits 0 bits (by omega) hj (by omega), if_neg (by omega), Nat.sub_zero]

/-! ## Data masks, R113 -/

theorem dataMask_eq (m : BitVec 3) (x y : Nat) : dataMask m x y = decide (maskValue m x y = 0) := by
  unfold dataMask maskValue
  have := m.isLt
  interval_cases m.toNat <;> rfl

/-! ## EXTRACT, R116 -/

variable {s : State} {ver : BitVec 6} {mask : BitVec 3} {r : VersionRecord}

/-- R157: EXTRACT past its checks. -/
theorem exec_extract (hr : s.ready = true) (hv : verOk ver = true) (hrec : s.params.record? ver = some r) :
    exec (.extract ver mask) s = .next ((s.extractStage ver mask r.alignment).complete .ok) := by
  simp only [exec, execExtract, State.whenReady_ready _ hr, hv, State.whenParam_true, State.withRecord_some _ hrec]

theorem completed_complete (s : State) (code : ErrorCode) : Completed (s.complete code) code :=
  ⟨rfl, by simp, rfl, rfl, rfl⟩

theorem dataBits_length (s : State) (ver : BitVec 6) (mask : BitVec 3) (centres : List Nat) :
    (s.dataBits ver mask centres).length = (scan ver centres).length := List.length_map ..

theorem dataBits_getD {centres : List Nat} {n x y : Nat} (h : (scan ver centres)[n]? = some (x, y)) :
    (s.dataBits ver mask centres).getD n false = (s.module (dimOf ver) x y ^^ dataMask mask x y) := by
  simp only [State.dataBits, List.getD_eq_getElem?_getD, List.getElem?_map, h, Option.map_some, Option.getD_some]

/-- R115: how many codewords and remainder bits the scan gives. -/
theorem extract_packed_length (s : State) (ver : BitVec 6) (mask : BitVec 3) (centres : List Nat) :
    (packBits 0 0 (s.dataBits ver mask centres)).1.length = (scan ver centres).length / 8 ∧
    (packBits 0 0 (s.dataBits ver mask centres)).2 = (scan ver centres).length % 8 := by
  obtain ⟨hlen, hrem⟩ := packBits_length 0 (s.dataBits ver mask centres) (k := 0) (by omega)
  rw [Nat.zero_add, dataBits_length] at hlen hrem
  exact ⟨hlen, hrem⟩

/-- R116: CWCOUNT. -/
theorem extractStage_cwCount_toNat (s : State) (mask : BitVec 3) (centres : List Nat) (hv : verOk ver = true) :
    (s.extractStage ver mask centres).cwCount.toNat = (scan ver centres).length / 8 := by
  have hle := extract_length_le s mask centres hv
  rw [(extract_packed_length s ver mask centres).1] at hle
  rw [State.extractStage_cwCount, (extract_packed_length s ver mask centres).1, BitVec.toNat_ofNat]
  omega

/-- R116: REMBITS. -/
theorem extractStage_remBits_toNat (s : State) (ver : BitVec 6) (mask : BitVec 3) (centres : List Nat) :
    (s.extractStage ver mask centres).remBits.toNat = (scan ver centres).length % 8 := by
  rw [State.extractStage_remBits, (extract_packed_length s ver mask centres).2, BitVec.toNat_ofNat]
  omega

/-- R115, R116: the bits of the codewords in CW_RAM. -/
theorem extractStage_codeword_bit {centres : List Nat} {i j x y : Nat} (hi : i < (scan ver centres).length / 8) (hj : j < 8)
    (h : (scan ver centres)[8 * i + j]? = some (x, y)) :
    ((s.extractStage ver mask centres).mem.read (cwRam + i)).getLsbD (7 - j)
      = (s.module (dimOf ver) x y ^^ dataMask mask x y) := by
  have hlen := (extract_packed_length s ver mask centres).1
  rw [State.extractStage_mem, Memory.read_writeBytes, if_pos (by omega), Nat.add_sub_cancel_left,
    getLsbD_packBits_zero _ hj (by rwa [dataBits_length]), dataBits_getD h]

theorem extractStage_frame (s : State) (ver : BitVec 6) (mask : BitVec 3) (centres : List Nat) :
    SameBytesBut s (s.extractStage ver mask centres) (Within cwRam ((scan ver centres).length / 8)) :=
  (extract_packed_length s ver mask centres).1 ▸ SameBytesBut.of_writeBytes rfl

/-- Settles O17: the stage's effects, and the check of VER. -/
theorem extractEffects : Obligations.ExtractEffects := by
  intro s ver mask hr
  refine ⟨?_, fun hv => completes_param rfl hr hv⟩
  rintro r order hv hrec rfl
  refine ⟨_, exec_extract hr hv hrec, completed_complete .., extractStage_cwCount_toNat s mask r.alignment hv,
    extractStage_remBits_toNat s ver mask r.alignment, fun i hi j hj x y h => ?_,
    extractStage_frame s ver mask r.alignment, rfl⟩
  rw [← dataMask_eq]
  exact extractStage_codeword_bit hi hj h

/-- R117: the stream of a grid that holds the codewords `cw` packs to them. -/
theorem packBits_of_placed {bits : List Bool} {cw : List Byte} (hlen : cw.length = bits.length / 8)
    (h : ∀ i < cw.length, ∀ j < 8, bits.getD (8 * i + j) false = (cw.getD i 0).getLsbD (7 - j)) :
    (packBits 0 0 bits).1 = cw := by
  have hpacked := (packBits_length 0 bits (k := 0) (by omega)).1
  rw [Nat.zero_add, ← hlen] at hpacked
  refine List.ext_getElem hpacked fun i hi hi' => BitVec.eq_of_getLsbD_eq fun n hn => ?_
  have hbit := getLsbD_packBits_zero bits (i := i) (j := 7 - n) (by omega) (by omega)
  rw [h i hi' (7 - n) (by omega), show 7 - (7 - n) = n by omega, List.getD_eq_getElem _ _ hi,
    List.getD_eq_getElem _ _ hi'] at hbit
  exact hbit

/-- Settles O18: unmasking a placed module gives the codeword's bit. -/
theorem extractOfPlacement : Obligations.ExtractOfPlacement := by
  rintro s ver mask r order cw hr hv hrec rfl hlen hplaced
  have hpacked : (packBits 0 0 (s.dataBits ver mask r.alignment)).1 = cw := by
    refine packBits_of_placed (by rw [dataBits_length, hlen]) fun i hi j hj => ?_
    obtain ⟨⟨x, y⟩, hxy⟩ : ∃ p, (scan ver r.alignment)[8 * i + j]? = some p :=
      ⟨_, List.getElem?_eq_getElem (by omega)⟩
    rw [dataBits_getD hxy, hplaced (8 * i + j) (by omega) x y hxy, show (8 * i + j) / 8 = i by omega,
      show (8 * i + j) % 8 = j by omega, Bool.xor_assoc, Bool.xor_self, Bool.xor_false]
  refine ⟨_, exec_extract hr hv hrec, completed_complete .., ?_, ?_⟩
  · rw [State.complete_mem, State.extractStage_mem, hpacked, Memory.readBytes_writeBytes]
  · rw [hlen]; exact extractStage_cwCount_toNat s mask r.alignment hv

end Sys2Proof.Machine
end

section
/-! SUPPORT. The block descriptors (R45, R118, R119, R121): the blocks by number, the entries of BLKDESC, and that the commands
leave them as written. -/

namespace Sys2Proof.Machine

/-! ## The blocks by number, R118, R119 -/

theorem blocksFrom_getElem? (ec start : Nat) (nds : List Nat) (b : Nat) :
    (blocksFrom ec start nds)[b]? = nds[b]?.map fun nd => ⟨start + ((nds.take b).map (· + ec)).sum, nd, nd + ec⟩ := by
  induction nds generalizing start b with
  | nil => rfl
  | cons nd nds ih =>
    cases b with
    | zero => rfl
    | succ b =>
      rw [blocksFrom, List.getElem?_cons_succ, ih, List.getElem?_cons_succ, List.take_succ_cons, List.map_cons, List.sum_cons,
        Nat.add_assoc]

/-- R118, R119: block `b`. -/
theorem blockList_getElem? {e : EcEntry} {b : Nat} (hb : b < e.blocks.length) :
    (blockList e)[b]? = some ⟨startOf e b, ndataOf e b, ndataOf e b + e.ecPerBlock⟩ := by
  have hnd : e.blocks[b]? = some (ndataOf e b) := by
    rw [ndataOf, List.getD_eq_getElem _ _ hb, List.getElem?_eq_getElem hb]
  rw [blockList, blocksFrom_getElem?, hnd, Nat.zero_add]
  rfl

theorem mem_blockList {e : EcEntry} {b : Nat} (hb : b < e.blocks.length) :
    (⟨startOf e b, ndataOf e b, ndataOf e b + e.ecPerBlock⟩ : Block) ∈ blockList e :=
  List.mem_of_getElem? (blockList_getElem? hb)

/-- R119: block `b` ends by the end of all blocks. -/
theorem startOf_add_le {e : EcEntry} {b : Nat} (hb : b < e.blocks.length) :
    startOf e b + (ndataOf e b + e.ecPerBlock) ≤ e.total := (blockList_bound (mem_blockList hb)).2

theorem ndataOf_mem {e : EcEntry} {b : Nat} (hb : b < e.blocks.length) : ndataOf e b ∈ e.blocks := by
  rw [ndataOf, List.getD_eq_getElem _ _ hb]
  exact List.getElem_mem hb

/-! ## BLKDESC, R45, R121 -/

/-- R45: the fields of a descriptor as a number. -/
theorem Block.descriptor_toNat {b : Block} (hs : b.start < 2 ^ 12) (hd : b.ndata < 2 ^ 8) (ht : b.ntotal < 2 ^ 8) :
    b.descriptor.toNat = b.start + 2 ^ 12 * b.ndata + 2 ^ 20 * b.ntotal := by
  have h0 : ∀ k, (0 : BitVec k).toNat = 0 := fun k => BitVec.toNat_ofNat ..
  simp only [Block.descriptor, BitVec.toNat_append, BitVec.toNat_ofNat, h0, Nat.mod_eq_of_lt hs, Nat.mod_eq_of_lt hd,
    Nat.mod_eq_of_lt ht, Nat.zero_shiftLeft, Nat.zero_or]
  rw [← Nat.shiftLeft_add_eq_or_of_lt hd, ← Nat.shiftLeft_add_eq_or_of_lt hs]
  simp only [Nat.shiftLeft_eq]
  omega

/-- R50: word `b` of a run of words reads back as it was written. -/
theorem Memory.word_writeBytes_flatMap (m : Memory) (a : Nat) {ws : List Word} {b : Nat} {w : Word} (h : ws[b]? = some w) :
    (m.writeBytes a (ws.flatMap bytesOfWord)).word (a + 4 * b) = w.toNat := by
  obtain ⟨hb, rfl⟩ := List.getElem?_eq_some_iff.1 h
  have hsplit : ws.flatMap bytesOfWord
      = (ws.take b).flatMap bytesOfWord ++ bytesOfWord ws[b] ++ (ws.drop (b + 1)).flatMap bytesOfWord := by
    conv_lhs => rw [← List.take_append_drop b ws, List.drop_eq_getElem_cons hb]
    simp only [List.flatMap_append, List.flatMap_cons, List.append_assoc]
  have hpre : ((ws.take b).flatMap bytesOfWord).length = 4 * b := by
    rw [flatMap_bytesOfWord_length, List.length_take, Nat.min_eq_left hb.le]
  rw [hsplit, ← hpre]
  exact Memory.word_writeBytes ..

theorem descriptorWords_getElem?_used {e : EcEntry} {b : Nat} (hb : b < e.blocks.length) :
    (descriptorWords (blockList e))[b]?
      = some (Block.descriptor ⟨startOf e b, ndataOf e b, ndataOf e b + e.ecPerBlock⟩) := by
  rw [descriptorWords, List.getElem?_append_left (by rwa [List.length_map, blockList_length]), List.getElem?_map,
    blockList_getElem? hb, Option.map_some]

theorem descriptorWords_getElem?_unused {e : EcEntry} {b : Nat} (hb : e.blocks.length ≤ b) (h81 : b < 81) :
    (descriptorWords (blockList e))[b]? = some 0 := by
  rw [descriptorWords, List.getElem?_append_right (by rwa [List.length_map, blockList_length]), List.length_map,
    blockList_length, List.getElem?_replicate_of_lt (by omega)]

variable {s t : State} {e : EcEntry}

/-- R121: what `writeDescriptors` leaves. -/
theorem State.writeDescriptors_descriptorsOf (s : State) (he : e.ok = true) : DescriptorsOf (s.writeDescriptors e) e where
  total := by
    have := (EcEntry.ok_bounds he).2.1
    rw [State.writeDescriptors_totalCw, BitVec.toNat_ofNat]; omega
  blocks := by
    have := (EcEntry.ok_bounds he).1
    rw [State.writeDescriptors_nBlocks, BitVec.toNat_ofNat]; omega
  ec := by
    have := EcEntry.ok_block he _ (ndataOf_mem (EcEntry.ok_pos he))
    rw [State.writeDescriptors_ecCount, BitVec.toNat_ofNat]; omega
  used b hb := by
    have hblock := EcEntry.ok_block he _ (ndataOf_mem hb)
    have hend := startOf_add_le hb
    have htotal := (EcEntry.ok_bounds he).2.1
    rw [State.writeDescriptors_mem, Memory.word_writeBytes_flatMap _ _ (descriptorWords_getElem?_used hb),
      Block.descriptor_toNat (by dsimp only; omega) (by dsimp only; omega) (by dsimp only; omega)]
  unused b hb h81 := by
    rw [State.writeDescriptors_mem, Memory.word_writeBytes_flatMap _ _ (descriptorWords_getElem?_unused hb h81)]
    rfl

/-- The descriptors stand while TOTALCW, NBLOCKS, ECCOUNT and BLKDESC are kept. -/
theorem DescriptorsOf.of_kept (h : DescriptorsOf s e) (hblocks : e.blocks.length ≤ 81) (htotal : t.totalCw = s.totalCw)
    (hcount : t.nBlocks = s.nBlocks) (hec : t.ecCount = s.ecCount)
    (hmem : ∀ a, Within blkDesc 324 a → t.mem.read a = s.mem.read a) : DescriptorsOf t e := by
  have hword : ∀ b < 81, t.mem.word (blkDesc + 4 * b) = s.mem.word (blkDesc + 4 * b) := fun b hb => by
    have hread : ∀ k < 4, t.mem.read (blkDesc + 4 * b + k) = s.mem.read (blkDesc + 4 * b + k) := fun k hk =>
      hmem _ ⟨by omega, by omega⟩
    have h0 := hread 0 (by omega)
    rw [Nat.add_zero] at h0
    rw [Memory.word, Memory.word, h0, hread 1 (by omega), hread 2 (by omega), hread 3 (by omega)]
  exact ⟨htotal ▸ h.total, hcount ▸ h.blocks, hec ▸ h.ec, fun b hb => (hword b (by omega)).trans (h.used b hb),
    fun b hb h81 => (hword b h81).trans (h.unused b hb h81)⟩

/-! ## The stages, R122, R136 -/

/-- R122: the deal leaves BLKDESC. -/
theorem State.deinterleaveStage_descriptorsOf (s : State) (he : e.ok = true) :
    DescriptorsOf (s.deinterleaveStage e).1 e := by
  have hw := s.writeDescriptors_descriptorsOf he
  obtain ⟨hblocks, htotal, -⟩ := EcEntry.ok_bounds he
  obtain ⟨-, hd⟩ | ⟨-, hd⟩ := s.deinterleaveStage_cases e
  · rw [hd]; exact hw
  · rw [hd]
    refine hw.of_kept hblocks rfl rfl rfl fun a ha => Memory.read_scatter_other _ _ _ _ fun p hp => ?_
    have hlt := dealOrder_lt (List.of_mem_zip hp).1
    unfold Within blkDesc at ha
    unfold blkRam
    omega

/-- R136: decoding the blocks leaves BLKDESC. -/
theorem decodeBlocks_read_blkDesc (m : Memory) (he : e.ok = true) {a : Nat} (ha : Within blkDesc 324 a) :
    (decodeBlocks e.ecPerBlock m 0 0 (blockList e)).mem.read a = m.read a := by
  refine decodeBlocks_read_other fun blk hb hin => ?_
  have hend := (blockList_bound hb).2
  have htotal := (EcEntry.ok_bounds he).2.1
  unfold Within blkDesc at ha
  unfold Within blkRam at hin
  omega

theorem State.rsDecodeAllStage_descriptorsOf (s : State) (he : e.ok = true) :
    DescriptorsOf (s.rsDecodeAllStage e).1 e := by
  have hw := s.writeDescriptors_descriptorsOf he
  obtain ⟨hblocks, -, hdata⟩ := EcEntry.ok_bounds he
  obtain ⟨b, code, -, hd⟩ | ⟨-, hd⟩ := s.rsDecodeAllStage_cases e rfl
  · rw [hd]
    exact hw.of_kept hblocks rfl rfl rfl fun a ha => decodeBlocks_read_blkDesc _ he ha
  · rw [hd]
    refine hw.of_kept hblocks rfl rfl rfl fun a ha =>
      (Memory.read_writeBytes_other _ (.inr ?_)).trans (decodeBlocks_read_blkDesc _ he ha)
    rw [gatherData_length]
    unfold Within blkDesc at ha
    unfold dataRam
    omega

theorem DescriptorsOf.complete (h : DescriptorsOf s e) (code : ErrorCode) : DescriptorsOf (s.complete code) e :=
  ⟨h.total, h.blocks, h.ec, h.used, h.unused⟩

theorem DescriptorsOf.beginParse (h : DescriptorsOf s e) (ver : BitVec 6) : DescriptorsOf (s.beginParse ver) e :=
  ⟨h.total, h.blocks, h.ec, h.used, h.unused⟩

/-! ## The commands, R122, R136, R162 -/

section
variable {ver : BitVec 6} {ecl : BitVec 2} {mask : BitVec 3} (hr : s.ready = true) (hv : verOk ver = true)
  (hentry : s.params.entry? ver ecl = some e)
include hr hv hentry

/-- R157: DEINTERLEAVE past its checks. -/
theorem exec_deinterleave (hcount : s.cwCount.toNat ≤ 4096) : exec (.deinterleave ver ecl) s
    = .next ((s.deinterleaveStage e).1.complete (s.deinterleaveStage e).2) := by
  simp only [exec, execDeinterleave, State.whenReady_ready _ hr, hv, hcount, decide_true, Bool.and_self, State.whenParam_true,
    State.withEntry_some _ hentry]

/-- R157: RS_DECODE_ALL past its checks. -/
theorem exec_rsDecodeAll : exec (.rsDecodeAll ver ecl) s
    = .next ((s.rsDecodeAllStage e).1.complete (s.rsDecodeAllStage e).2) := by
  simp only [exec, execRsDecodeAll, State.whenReady_ready _ hr, hv, State.whenParam_true, State.withEntry_some _ hentry]

/-- R162: DECODE ends after its second stage or its third, or enters the parse loop. -/
theorem exec_decode_descriptorsOf : ∃ t, exec (.decode ver ecl mask) s = .next t ∧ DescriptorsOf t e := by
  obtain ⟨r, hrec, -, he⟩ := entry?_some hentry
  simp only [exec, execDecode, State.whenReady_ready _ hr, hv, State.whenParam_true, State.withRecord_some _ hrec,
    State.withEntry_some _ hentry]
  split
  · exact ⟨_, rfl, (State.deinterleaveStage_descriptorsOf _ he).complete _⟩
  · split
    · exact ⟨_, rfl, (State.rsDecodeAllStage_descriptorsOf _ he).complete _⟩
    · exact ⟨_, rfl, (State.rsDecodeAllStage_descriptorsOf _ he).beginParse ver⟩

end

/-- Settles O21: each stage leaves the descriptors it writes. -/
theorem descriptorsWritten : Obligations.DescriptorsWritten := by
  intro s ver ecl mask e hr hv hentry
  obtain ⟨r, -, -, he⟩ := entry?_some hentry
  exact ⟨fun hcount => ⟨_, exec_deinterleave hr hv hentry hcount, (s.deinterleaveStage_descriptorsOf he).complete _⟩,
    ⟨_, exec_rsDecodeAll hr hv hentry, (s.rsDecodeAllStage_descriptorsOf he).complete _⟩,
    exec_decode_descriptorsOf hr hv hentry⟩

/-- Settles O22: what the short stage writes is the descriptors. -/
theorem deinterleaveShort : Obligations.DeinterleaveShort := by
  intro s ver ecl e hr hv hentry hshort
  obtain ⟨r, -, -, he⟩ := entry?_some hentry
  have htotal := (EcEntry.ok_bounds he).2.1
  have hexec := exec_deinterleave hr hv hentry (by omega)
  obtain ⟨-, hd⟩ | ⟨hle, -⟩ := s.deinterleaveStage_cases e
  · rw [hd] at hexec
    exact ⟨_, hexec, completed_complete .., (s.writeDescriptors_descriptorsOf he).complete _,
      s.writeDescriptors_stores he, rfl⟩
  · omega

end Sys2Proof.Machine
end

section
/-! SUPPORT. The deal (R120): where in the order of the deal each offset stands, and that each offset comes once. -/

namespace Sys2Proof.Machine

/-! ## Positions in concatenated and filtered lists -/

/-- Element `j` of row `r` stands behind all rows before it. -/
theorem getElem?_flatMap_range {α : Type} (f : Nat → List α) {n r j : Nat} {x : α} (hr : r < n) (hx : (f r)[j]? = some x) :
    ((List.range n).flatMap f)[((List.range r).map fun k => (f k).length).sum + j]? = some x := by
  induction n with
  | zero => omega
  | succ n ih =>
    rw [List.range_succ, List.flatMap_append, List.flatMap_singleton]
    rcases Nat.lt_succ_iff_lt_or_eq.1 hr with hlt | rfl
    · rw [List.getElem?_append_left (List.getElem?_eq_some_iff.1 (ih hlt)).1, ih hlt]
    · rw [← List.length_flatMap, List.getElem?_append_right (Nat.le_add_right ..), Nat.add_sub_cancel_left, hx]

/-- An element that the filter keeps stands behind those kept before it. -/
theorem getElem?_filter_countP {α : Type} (p : α → Bool) {l : List α} {i : Nat} {x : α} (hx : l[i]? = some x)
    (hp : p x = true) : (l.filter p)[(l.take i).countP p]? = some x := by
  obtain ⟨hi, rfl⟩ := List.getElem?_eq_some_iff.1 hx
  have hsplit : l.filter p = (l.take i).filter p ++ l[i] :: (l.drop (i + 1)).filter p := by
    conv_lhs => rw [← List.take_append_drop i l, List.drop_eq_getElem_cons hi, List.filter_append, List.filter_cons_of_pos hp]
  rw [hsplit, List.countP_eq_length_filter, List.getElem?_append_right le_rfl, Nat.sub_self, List.getElem?_cons_zero]

/-- A count of `x` takes part in the first `x` rows. -/
theorem sum_ite_lt (n x : Nat) : ((List.range n).map fun r => if r < x then 1 else 0).sum = min n x := by
  induction n with
  | zero => simp
  | succ n ih =>
    rw [List.range_succ, List.map_append, List.sum_append, ih, List.map_singleton, List.sum_singleton]
    split_ifs <;> omega

/-- Counting row by row what takes part in each row, up to a bound of the counts. -/
theorem sum_countP_lt {l : List Nat} {n : Nat} (h : ∀ x ∈ l, x ≤ n) :
    ((List.range n).map fun r => l.countP (r < ·)).sum = l.sum := by
  induction l with
  | nil => simp
  | cons x l ih =>
    simp only [List.countP_cons, decide_eq_true_eq, List.sum_map_add, List.sum_cons, sum_ite_lt,
      ih fun y hy => h y (List.mem_cons_of_mem _ hy), Nat.min_eq_right (h x (List.mem_cons_self ..))]
    exact Nat.add_comm ..

/-! ## The rows, R120 -/

theorem le_foldl_max (xs : List Nat) (m : Nat) : m ≤ xs.foldl max m ∧ ∀ x ∈ xs, x ≤ xs.foldl max m := by
  induction xs generalizing m with
  | nil => simp
  | cons y ys ih =>
    obtain ⟨hm, hys⟩ := ih (max m y)
    refine ⟨(le_max_left ..).trans hm, fun x hx => ?_⟩
    rcases List.mem_cons.1 hx with rfl | hx
    · exact (le_max_right ..).trans hm
    · exact hys x hx

/-- R119: `dmax` is at least each block's data count. -/
theorem le_maxData {bs : List Block} {b : Block} (h : b ∈ bs) : b.ndata ≤ maxData bs :=
  (le_foldl_max _ 0).2 _ (List.mem_map_of_mem h)

theorem minData_le_maxData (bs : List Block) : minData bs ≤ maxData bs := by
  cases bs with
  | nil => exact le_rfl
  | cons b bs => exact (minData_le (List.mem_cons_self ..)).trans (le_maxData (List.mem_cons_self ..))

/-- R120: the offsets of data row `r`: those of the blocks with more data codewords. -/
def dataRow (bs : List Block) (r : Nat) : List Nat := dealRow (bs.filter fun b => r < b.ndata) r

/-- R120: the offsets of EC row `r`. -/
def ecRow (bs : List Block) (r : Nat) : List Nat := bs.map fun b => b.start + b.ndata + r

/-- R120: the rows up to the shortest block's length are rows in which every block takes part. -/
theorem dealOrder_eq (ec : Nat) (bs : List Block) : dealOrder ec bs
    = (List.range (maxData bs)).flatMap (dataRow bs) ++ (List.range ec).flatMap (ecRow bs) := by
  have hfull : (List.range (minData bs)).flatMap (dealRow bs) = (List.range (minData bs)).flatMap (dataRow bs) := by
    refine List.flatMap_congr fun r hr => ?_
    rw [dataRow, List.filter_eq_self.2 fun b hb => decide_eq_true ((List.mem_range.1 hr).trans_le (minData_le hb))]
  have hmax : maxData bs = minData bs + (maxData bs - minData bs) := (Nat.add_sub_of_le (minData_le_maxData bs)).symm
  rw [dealOrder, hfull]
  conv_rhs => rw [hmax, List.range_add, List.flatMap_append, List.flatMap_map]
  rfl

variable {e : EcEntry}

theorem dataRow_length (e : EcEntry) (r : Nat) : (dataRow (blockList e) r).length = e.blocks.countP (r < ·) := by
  rw [dataRow, dealRow, List.length_map, ← List.countP_eq_length_filter, ← blockList_map_ndata e, List.countP_map]
  rfl

theorem ecRow_length (e : EcEntry) (r : Nat) : (ecRow (blockList e) r).length = e.blocks.length := by
  rw [ecRow, List.length_map, blockList_length]

theorem sum_map_dataRow_length (e : EcEntry) :
    ((List.range (maxData (blockList e))).map fun r => (dataRow (blockList e) r).length).sum = e.blocks.sum := by
  simp only [dataRow_length]
  refine sum_countP_lt fun x hx => ?_
  rw [← blockList_map_ndata e] at hx
  obtain ⟨b, hb, rfl⟩ := List.mem_map.1 hx
  exact le_maxData hb

theorem sum_map_ecRow_length (e : EcEntry) (n : Nat) :
    ((List.range n).map fun r => (ecRow (blockList e) r).length).sum = n * e.blocks.length := by
  simp only [ecRow_length, List.map_const', List.sum_replicate, List.length_range, smul_eq_mul]

/-! ## The place of each codeword, R120 -/

/-- R120: row `r` of block `b`'s data is dealt after the codewords that `dataIndex` counts. -/
theorem dealOrder_dataIndex {b r : Nat} (hb : b < e.blocks.length) (hr : r < ndataOf e b) :
    (dealOrder e.ecPerBlock (blockList e))[dataIndex e b r]? = some (startOf e b + r) := by
  have htake : (e.blocks.take b).countP (r < ·) = ((blockList e).take b).countP fun blk => r < blk.ndata := by
    rw [← blockList_map_ndata e, ← List.map_take, List.countP_map]; rfl
  have hrow : (dataRow (blockList e) r)[(e.blocks.take b).countP (r < ·)]? = some (startOf e b + r) := by
    rw [htake, dataRow, dealRow, List.getElem?_map,
      getElem?_filter_countP _ (blockList_getElem? hb) (decide_eq_true hr), Option.map_some]
  have hplace := getElem?_flatMap_range (dataRow (blockList e)) (hr.trans_le (le_maxData (mem_blockList hb))) hrow
  simp only [dataRow_length] at hplace
  rw [dealOrder_eq, dataIndex, List.getElem?_append_left (List.getElem?_eq_some_iff.1 hplace).1]
  exact hplace

/-- R120: row `r` of block `b`'s EC codewords is dealt after the codewords that `ecIndex` counts. -/
theorem dealOrder_ecIndex {b r : Nat} (hb : b < e.blocks.length) (hr : r < e.ecPerBlock) :
    (dealOrder e.ecPerBlock (blockList e))[ecIndex e b r]? = some (startOf e b + ndataOf e b + r) := by
  have hrow : (ecRow (blockList e) r)[b]? = some (startOf e b + ndataOf e b + r) := by
    rw [ecRow, List.getElem?_map, blockList_getElem? hb, Option.map_some]
  have hplace := getElem?_flatMap_range (ecRow (blockList e)) hr hrow
  rw [sum_map_ecRow_length] at hplace
  have hlen : ((List.range (maxData (blockList e))).flatMap (dataRow (blockList e))).length = e.blocks.sum := by
    rw [List.length_flatMap, sum_map_dataRow_length]
  rw [dealOrder_eq, ecIndex, Nat.add_assoc, List.getElem?_append_right (hlen.trans_le (Nat.le_add_right ..)), hlen,
    Nat.add_sub_cancel_left]
  exact hplace

/-! ## Each offset once -/

/-- R120: as many codewords are dealt as the blocks hold. -/
theorem dealOrder_length (e : EcEntry) : (dealOrder e.ecPerBlock (blockList e)).length = e.total := by
  rw [dealOrder_eq, List.length_append, List.length_flatMap, List.length_flatMap, sum_map_dataRow_length, sum_map_ecRow_length,
    EcEntry.total, List.sum_map_add, List.map_id', List.map_const', List.sum_replicate, smul_eq_mul, Nat.mul_comm]

theorem exists_block {ec start o : Nat} {nds : List Nat} (hlo : start ≤ o) (hhi : o < start + (nds.map (· + ec)).sum) :
    ∃ b ∈ blocksFrom ec start nds, b.start ≤ o ∧ o < b.start + b.ndata + ec := by
  induction nds generalizing start with
  | nil => simp at hhi; omega
  | cons nd nds ih =>
    rw [List.map_cons, List.sum_cons] at hhi
    by_cases hin : o < start + nd + ec
    · exact ⟨_, List.mem_cons_self .., hlo, hin⟩
    · obtain ⟨b, hb, hbound⟩ := ih (start := start + (nd + ec)) (by omega) (by omega)
      exact ⟨b, List.mem_cons_of_mem _ hb, hbound⟩

/-- R120: every offset below the total is dealt to. -/
theorem mem_dealOrder {o : Nat} (ho : o < e.total) : o ∈ dealOrder e.ecPerBlock (blockList e) := by
  obtain ⟨b, hb, hlo, hhi⟩ := exists_block (start := 0) (Nat.zero_le o) (by rwa [Nat.zero_add])
  rw [dealOrder_eq, List.mem_append, List.mem_flatMap, List.mem_flatMap]
  by_cases hdata : o < b.start + b.ndata
  · have hmax : b.ndata ≤ maxData (blockList e) := le_maxData hb
    exact .inl ⟨o - b.start, List.mem_range.2 (by omega),
      List.mem_map.2 ⟨b, List.mem_filter.2 ⟨hb, decide_eq_true (by omega)⟩, by omega⟩⟩
  · exact .inr ⟨o - (b.start + b.ndata), List.mem_range.2 (by omega), List.mem_map.2 ⟨b, hb, by omega⟩⟩

/-- R120: the deal is an arrangement of the offsets below the total. -/
theorem dealOrder_nodup (e : EcEntry) : (dealOrder e.ecPerBlock (blockList e)).Nodup := by
  have hsub : List.Subperm (List.range e.total) (dealOrder e.ecPerBlock (blockList e)) :=
    List.nodup_range.subperm fun o ho => mem_dealOrder (List.mem_range.1 ho)
  have hperm := hsub.perm_of_length_le (by rw [dealOrder_length, List.length_range])
  exact hperm.nodup_iff.1 List.nodup_range

/-! ## DEINTERLEAVE, R122 -/

variable {s : State}

/-- R120, R122: the codeword dealt `i`-th goes to the `i`-th offset of the deal. -/
theorem deinterleaveStage_read (he : e.ok = true) (hcount : e.total ≤ s.cwCount.toNat) {i o : Nat}
    (h : (dealOrder e.ecPerBlock (blockList e))[i]? = some o) :
    (s.deinterleaveStage e).1.mem.read (blkRam + o) = s.mem.read (cwRam + i) := by
  have htotal := (EcEntry.ok_bounds he).2.1
  obtain ⟨hi, rfl⟩ := List.getElem?_eq_some_iff.1 h
  have hi' : i < e.total := by rwa [dealOrder_length] at hi
  have hcw : (s.writeDescriptors e).mem.read (cwRam + i) = s.mem.read (cwRam + i) :=
    s.writeDescriptors_stores he _ fun hin => by unfold Within cwRam blkDesc at hin; omega
  obtain ⟨hlt, -⟩ | ⟨-, hd⟩ := s.deinterleaveStage_cases e
  · omega
  · rw [hd, ← hcw]
    have hlen := (dealOrder_length e).trans ((s.writeDescriptors e).mem.readBytes_length cwRam e.total).symm
    refine Memory.read_scatter_mem _ _ _ _ _ ?_ ?_
    · rw [List.map_fst_zip hlen.le]
      exact dealOrder_nodup e
    · refine List.mem_of_getElem? (i := i) ?_
      rw [List.getElem?_zip_eq_some]
      exact ⟨h, by rw [List.getElem?_eq_getElem (by simpa using hi'), Memory.readBytes_getElem]⟩

/-- Settles O23: the place of each codeword in the deal, and what the stage writes. -/
theorem deinterleaveDeals : Obligations.DeinterleaveDeals := by
  intro s ver ecl e hr hv hentry hle hcount
  obtain ⟨r, -, -, he⟩ := entry?_some hentry
  have hexec := exec_deinterleave hr hv hentry hcount
  have hcode : (s.deinterleaveStage e).2 = .ok := by
    obtain ⟨hlt, -⟩ | ⟨-, hd⟩ := s.deinterleaveStage_cases e
    · omega
    · rw [hd]
  rw [hcode] at hexec
  refine ⟨_, hexec, completed_complete .., (s.deinterleaveStage_descriptorsOf he).complete _, fun b hb r hr => ?_,
    fun b hb r hr => ?_, s.deinterleaveStage_stores he, ?_⟩
  · rw [Nat.add_assoc]
    exact deinterleaveStage_read he hle (dealOrder_dataIndex hb hr)
  · rw [Nat.add_assoc, Nat.add_assoc, ← Nat.add_assoc (startOf e b)]
    exact deinterleaveStage_read he hle (dealOrder_ecIndex hb hr)
  · obtain ⟨-, hd⟩ | ⟨-, hd⟩ := s.deinterleaveStage_cases e <;> rw [hd] <;> rfl

/-- Settles O24: one entry of the default table and its deal, evaluated. -/
theorem workedDeal : Obligations.WorkedDeal := by
  refine ⟨.two 18 2 15 2 16, by decide, by decide, by decide, by decide, ?_⟩
  decide +kernel

end Sys2Proof.Machine
end

section
/-! SUPPORT. GF(256) as a field of Mathlib (R91 to R105): bytes as the elements of a field `K`, and the model's polynomials as
polynomials over `K`, so that the theory of polynomials over a field applies to the Reed-Solomon engine. -/

namespace Sys2Proof.ReedSolomon

open Polynomial
open Sys2Proof.Machine hiding Field

/-- `φ` carries the bytes, with exclusive-or as the sum and `gfMul` as the product, onto the field `K`. -/
structure ByteField {K : Type} [Field K] (φ : Byte → K) : Prop where
  xor : ∀ a b, φ (a ^^^ b) = φ a + φ b
  mul : ∀ a b, φ (gfMul a b) = φ a * φ b
  one : φ 0x01 = 1
  bijective : Function.Bijective φ

/-- The bytes as elements of GF(256), apart from the arithmetic modulo 256 that `BitVec` has. -/
def GfElement : Type := Byte

/-- R98: the field laws of the model's operations, as a field of Mathlib. -/
@[reducible] noncomputable def gfField : Field GfElement :=
  @Field.ofMinimalAxioms GfElement ⟨fun a b : Byte => a ^^^ b⟩ ⟨fun a b : Byte => gfMul a b⟩ ⟨fun a => a⟩
    ⟨fun a : Byte => if a = 0 then (0 : Byte) else gfInv a⟩ ⟨(0 : Byte)⟩ ⟨(0x01 : Byte)⟩
    BitVec.xor_assoc byte_zero_xor byte_xor_self gfMul_assoc gfMul_comm gfMul_one_left
    (fun a ha => (congrArg (gfMul a) (if_neg ha)).trans (gfMul_gfInv ha)) (if_pos rfl) gfMul_xor_right
    ⟨(0 : Byte), (0x01 : Byte), show (0 : Byte) ≠ 0x01 by decide⟩

/-- The bytes form a field. -/
theorem exists_byteField : ∃ (K : Type) (_ : Field K) (φ : Byte → K), ByteField φ :=
  letI := gfField
  ⟨GfElement, gfField, fun a => a, fun _ _ => rfl, fun _ _ => rfl, rfl, Function.bijective_id⟩

variable {K : Type} [Field K] {φ : Byte → K}

/-! ## The field operations, R92 to R97 -/

namespace ByteField

theorem zero (h : ByteField φ) : φ 0 = 0 := by
  have hsum := h.xor 0 0
  rwa [byte_xor_self, left_eq_add] at hsum

theorem eq_zero_iff (h : ByteField φ) {a : Byte} : φ a = 0 ↔ a = 0 := by
  rw [← h.zero, h.bijective.injective.eq_iff]

/-- R92: subtraction is addition. -/
theorem charP (h : ByteField φ) : CharP K 2 :=
  CharTwo.of_one_ne_zero_of_two_eq_zero one_ne_zero <| by
    rw [← one_add_one_eq_two, ← h.one, ← h.xor, byte_xor_self, h.zero]

theorem inv (h : ByteField φ) {a : Byte} (ha : a ≠ 0) : φ (gfInv a) = (φ a)⁻¹ :=
  eq_inv_of_mul_eq_one_right (by rw [← h.mul, gfMul_gfInv ha, h.one])

theorem div (h : ByteField φ) (a : Byte) {b : Byte} (hb : b ≠ 0) : φ (gfDiv a b) = φ a / φ b := by
  rw [gfDiv, h.mul, h.inv hb, div_eq_mul_inv]

theorem pow (h : ByteField φ) (i j : Nat) : φ (gfExp (i * j)) = φ (gfExp i) ^ j := by
  induction j with
  | zero => rw [Nat.mul_zero, pow_zero, gfExp, h.one]
  | succ j ih => rw [Nat.mul_succ, ← gfMul_gfExp_gfExp, h.mul, ih, pow_succ]

theorem gfExp_ne_zero (h : ByteField φ) (i : Nat) : φ (gfExp i) ≠ 0 := mt h.eq_zero_iff.1 (Machine.gfExp_ne_zero i)

end ByteField

/-! ## Polynomials, R99 to R102 -/

/-- The model's polynomial as a polynomial over `K`. -/
noncomputable def toPoly (φ : Byte → K) : Poly → K[X]
  | [] => 0
  | a :: p => C (φ a) + X * toPoly φ p

theorem coeff_toPoly (h : ByteField φ) (p : Poly) (i : Nat) : (toPoly φ p).coeff i = φ (p.coeff i) := by
  induction p generalizing i with
  | nil => rw [toPoly, coeff_zero, Poly.coeff_nil, h.zero]
  | cons a p ih =>
    cases i with
    | zero => simp [toPoly]
    | succ i => simp [toPoly, ih]

theorem toPoly_isZero (h : ByteField φ) (p : Poly) : p.isZero = true ↔ toPoly φ p = 0 := by
  simp only [Poly.isZero_iff, Polynomial.ext_iff, coeff_toPoly h, coeff_zero, h.eq_zero_iff]

/-- R99: the degree, with the degree 0 of the zero polynomial. -/
theorem natDegree_toPoly (h : ByteField φ) (p : Poly) : (toPoly φ p).natDegree = p.deg := by
  refine le_antisymm (natDegree_le_iff_coeff_eq_zero.2 fun i hi => ?_) ?_
  · rw [coeff_toPoly h, Poly.coeff_of_deg_lt hi, h.zero]
  · cases hp : p.isZero with
    | true =>
      have hdeg : p.deg = 0 := by
        cases p with
        | nil => rfl
        | cons a p =>
          rw [Poly.isZero, List.all_cons, ← Poly.isZero, Bool.and_eq_true] at hp
          rw [Poly.deg, if_pos hp.2]
      exact hdeg.le.trans (Nat.zero_le _)
    | false =>
      refine le_natDegree_of_ne_zero ?_
      rw [coeff_toPoly h]
      exact mt h.eq_zero_iff.1 (Poly.lead_ne_zero hp)

@[simp] theorem toPoly_nil : toPoly φ [] = 0 := rfl
@[simp] theorem toPoly_cons (a : Byte) (p : Poly) : toPoly φ (a :: p) = C (φ a) + X * toPoly φ p := rfl

theorem toPoly_one (h : ByteField φ) : toPoly φ [0x01] = 1 := by
  rw [toPoly_cons, toPoly_nil, mul_zero, add_zero, h.one, C_1]

theorem toPoly_add (h : ByteField φ) (p q : Poly) : toPoly φ (Poly.add p q) = toPoly φ p + toPoly φ q := by
  ext i
  rw [Polynomial.coeff_add, coeff_toPoly h, coeff_toPoly h, coeff_toPoly h, Poly.coeff_add, h.xor]

theorem toPoly_scale (h : ByteField φ) (c : Byte) (p : Poly) : toPoly φ (Poly.scale c p) = C (φ c) * toPoly φ p := by
  ext i
  rw [coeff_C_mul, coeff_toPoly h, coeff_toPoly h, Poly.coeff_scale, h.mul]

theorem toPoly_mul (h : ByteField φ) (p q : Poly) : toPoly φ (Poly.mul p q) = toPoly φ p * toPoly φ q := by
  induction p with
  | nil => simp [Poly.mul]
  | cons a p ih => rw [Poly.mul, toPoly_add h, toPoly_scale h, toPoly_cons, toPoly_cons, ih, h.zero, C_0]; ring

theorem toPoly_mono (h : ByteField φ) (d : Nat) (c : Byte) : toPoly φ (Poly.mono d c) = C (φ c) * X ^ d := by
  induction d with
  | zero => simp [Poly.mono, Poly.shift]
  | succ d ih =>
    rw [show Poly.mono (d + 1) c = 0 :: Poly.mono d c from rfl, toPoly_cons, ih, h.zero, C_0]
    ring

theorem toPoly_eval (h : ByteField φ) (p : Poly) (e : Byte) : φ (p.eval e) = (toPoly φ p).eval (φ e) := by
  induction p with
  | nil => rw [Poly.eval, h.zero, toPoly_nil, eval_zero]
  | cons a p ih => rw [Poly.eval, h.xor, h.mul, ih, toPoly_cons, eval_add, eval_C, eval_mul, eval_X]; ring

/-- R101: division with remainder. -/
theorem toPoly_divmod (h : ByteField φ) (a : Poly) {b : Poly} (hb : b.isZero = false) :
    toPoly φ a = toPoly φ (Poly.divmod a b).1 * toPoly φ b + toPoly φ (Poly.divmod a b).2 := by
  ext i
  rw [← toPoly_mul h, ← toPoly_add h, coeff_toPoly h, coeff_toPoly h, (divisionWithRemainder a b hb).1]

end Sys2Proof.ReedSolomon
end

section
/-! SUPPORT. Errors at known locations, over any field: the locator and the evaluator of an error pattern, their key equation with
the syndromes, and that a solution of the key equation of small degree is a multiple of them. -/

namespace Sys2Proof.ReedSolomon

open Polynomial

variable {K : Type} [Field K]

/-- The error locator: the product of `1 - x_k·X` over the locations. -/
noncomputable def locator (s : Finset Nat) (x : Nat → K) : K[X] := ∏ k ∈ s, (1 - C (x k) * X)

/-- The error evaluator of the magnitudes `v`. -/
noncomputable def evaluator (s : Finset Nat) (x v : Nat → K) : K[X] := ∑ k ∈ s, C (v k) * locator (s.erase k) x

/-- R104: the first `n` syndromes of the error pattern, as a polynomial. -/
noncomputable def syndromePoly (s : Finset Nat) (x v : Nat → K) (n : Nat) : K[X] :=
  ∑ j ∈ Finset.range n, C (∑ k ∈ s, v k * x k ^ j) * X ^ j

variable {s : Finset Nat} {x v : Nat → K}

theorem coeff_syndromePoly (s : Finset Nat) (x v : Nat → K) (n i : Nat) :
    (syndromePoly s x v n).coeff i = if i < n then ∑ k ∈ s, v k * x k ^ i else 0 := by
  simp only [syndromePoly, finsetSum_coeff, coeff_C_mul_X_pow, Finset.sum_ite_eq, Finset.mem_range]

theorem natDegree_factor {a : K} (ha : a ≠ 0) : (1 - C a * X).natDegree = 1 := by
  rw [show (1 : K[X]) - C a * X = C (-a) * X + C 1 by simp; ring, natDegree_linear (neg_ne_zero.2 ha)]

/-- The locator has a location of its own for each degree. -/
theorem natDegree_locator (hx : ∀ k ∈ s, x k ≠ 0) : (locator s x).natDegree = s.card := by
  have hne : ∀ k ∈ s, 1 - C (x k) * X ≠ 0 := fun k hk => ne_zero_of_natDegree_gt (natDegree_factor (hx k hk)).ge
  rw [locator, natDegree_prod s _ hne, Finset.sum_congr rfl fun k hk => natDegree_factor (hx k hk), Finset.sum_const, smul_eq_mul,
    mul_one]

theorem locator_eval (s : Finset Nat) (x : Nat → K) (e : K) : (locator s x).eval e = ∏ k ∈ s, (1 - x k * e) := by
  simp [locator, eval_prod]

theorem coeff_zero_locator (s : Finset Nat) (x : Nat → K) : (locator s x).coeff 0 = 1 := by
  simp [coeff_zero_eq_eval_zero, locator_eval]

theorem locator_ne_zero (s : Finset Nat) (x : Nat → K) : locator s x ≠ 0 := fun h => by
  simpa [h] using coeff_zero_locator s x

theorem locator_erase (x : Nat → K) {k : Nat} (hk : k ∈ s) : locator s x = (1 - C (x k) * X) * locator (s.erase k) x :=
  (Finset.mul_prod_erase s _ hk).symm

theorem degree_evaluator_lt (hx : ∀ k ∈ s, x k ≠ 0) : (evaluator s x v).degree < s.card := by
  rw [← mem_degreeLT]
  refine Submodule.sum_mem _ fun k hk => mem_degreeLT.2 (degree_le_natDegree.trans_lt (Nat.cast_lt.2 ?_))
  calc (C (v k) * locator (s.erase k) x).natDegree
    _ ≤ (locator (s.erase k) x).natDegree := natDegree_C_mul_le ..
    _ = (s.erase k).card := natDegree_locator fun l hl => hx l (Finset.mem_of_mem_erase hl)
    _ < s.card := Finset.card_erase_lt_of_mem hk

theorem natDegree_evaluator (hx : ∀ k ∈ s, x k ≠ 0) :
    (evaluator s x v).natDegree < s.card ∨ (evaluator s x v).natDegree = 0 := by
  by_cases hzero : evaluator s x v = 0
  · exact .inr (by rw [hzero, natDegree_zero])
  · exact .inl ((natDegree_lt_iff_degree_lt hzero).2 (degree_evaluator_lt hx))

/-- At the inverse of a location only the term of that location is left. -/
theorem evaluator_eval_inv {k : Nat} (hk : k ∈ s) (hxk : x k ≠ 0) :
    (evaluator s x v).eval (x k)⁻¹ = v k * ∏ l ∈ s.erase k, (1 - x l * (x k)⁻¹) := by
  rw [evaluator, eval_finsetSum, Finset.sum_eq_single_of_mem k hk fun l hl hlk => ?_]
  · rw [eval_mul, eval_C, locator_eval]
  · rw [eval_mul, locator_erase x (Finset.mem_erase.2 ⟨hlk.symm, hk⟩)]
    simp [hxk]

theorem prod_erase_ne_zero (hinj : Set.InjOn x s) {k : Nat} (hk : k ∈ s) (hxk : x k ≠ 0) :
    ∏ l ∈ s.erase k, (1 - x l * (x k)⁻¹) ≠ 0 := by
  refine Finset.prod_ne_zero_iff.2 fun l hl hzero => ?_
  obtain ⟨hlk, hls⟩ := Finset.mem_erase.1 hl
  rw [sub_eq_zero, eq_comm, mul_inv_eq_one₀ hxk] at hzero
  exact hlk (hinj hls hk hzero)

/-- The key equation: locator times syndromes is the evaluator, modulo `X^n`. -/
theorem X_pow_dvd_key (s : Finset Nat) (x v : Nat → K) (n : Nat) :
    X ^ n ∣ locator s x * syndromePoly s x v n - evaluator s x v := by
  have hsynd : syndromePoly s x v n = ∑ k ∈ s, C (v k) * ∑ j ∈ Finset.range n, (C (x k) * X) ^ j := by
    simp only [syndromePoly, map_sum, Finset.sum_mul, Finset.mul_sum]
    rw [Finset.sum_comm]
    refine Finset.sum_congr rfl fun k _ => Finset.sum_congr rfl fun j _ => ?_
    rw [mul_pow, C_mul, C_pow, mul_assoc]
  rw [hsynd, evaluator, Finset.mul_sum, ← Finset.sum_sub_distrib]
  refine Finset.dvd_sum fun k hk => ?_
  have hterm : locator s x * (C (v k) * ∑ j ∈ Finset.range n, (C (x k) * X) ^ j) - C (v k) * locator (s.erase k) x
      = X ^ n * (-(C (v k) * locator (s.erase k) x * C (x k) ^ n)) := by
    have hgeom := mul_neg_geom_sum (C (x k) * X) n
    rw [locator_erase x hk]
    linear_combination (C (v k) * locator (s.erase k) x) * hgeom
  exact hterm ▸ dvd_mul_right _ _

/-- With magnitudes that are not 0, locator and evaluator have no common factor. -/
theorem isCoprime_locator_evaluator (hx : ∀ k ∈ s, x k ≠ 0) (hinj : Set.InjOn x s) (hv : ∀ k ∈ s, v k ≠ 0) :
    IsCoprime (locator s x) (evaluator s x v) := by
  refine IsCoprime.prod_left fun k hk => ?_
  have hdeg : (1 - C (x k) * X).degree = 1 := 
    (degree_eq_iff_natDegree_eq_of_pos one_pos).2 (natDegree_factor (hx k hk))
  refine ((irreducible_of_degree_eq_one hdeg).coprime_iff_not_dvd).2 fun hdvd => ?_
  have hroot : (evaluator s x v).eval (x k)⁻¹ = 0 := by
    refine eval_eq_zero_of_dvd_of_eval_eq_zero hdvd ?_
    simp [hx k hk]
  rw [evaluator_eval_inv hk (hx k hk)] at hroot
  exact mul_ne_zero (hv k hk) (prod_erase_ne_zero hinj hk (hx k hk)) hroot

/-- A reduced solution `t`, `r` of the key equation of the degrees where the Euclidean algorithm stops is, up to a constant
factor, the locator and the evaluator. -/
theorem eq_locator_evaluator {n : Nat} {t u r : K[X]} (hx : ∀ k ∈ s, x k ≠ 0) (hinj : Set.InjOn x s) (hv : ∀ k ∈ s, v k ≠ 0)
    (hcard : 2 * s.card ≤ n) (hsol : t * syndromePoly s x v n + u * X ^ n = r) (hcop : IsCoprime t u)
    (hr : 2 * r.natDegree < n) (ht : 2 * t.natDegree ≤ n) :
    ∃ κ : K, κ ≠ 0 ∧ t = C κ * locator s x ∧ r = C κ * evaluator s x v := by
  obtain ⟨w, hw⟩ := X_pow_dvd_key s x v n
  have hdiff : locator s x * r - t * evaluator s x v = X ^ n * (locator s x * u + t * w) := by
    linear_combination t * hw - locator s x * hsol
  have hzero : locator s x * r - t * evaluator s x v = 0 := by
    refine eq_zero_of_dvd_of_degree_lt ⟨_, hdiff⟩ ?_
    rw [degree_X_pow]
    refine (degree_sub_le _ _).trans_lt (max_lt (degree_le_natDegree.trans_lt (Nat.cast_lt.2 ?_))
      (degree_le_natDegree.trans_lt (Nat.cast_lt.2 ?_)))
    · have hmul := natDegree_mul_le (p := locator s x) (q := r)
      have hloc := natDegree_locator hx
      omega
    · have hmul := natDegree_mul_le (p := t) (q := evaluator s x v)
      have heval := natDegree_evaluator (v := v) hx
      omega
  have hu : locator s x * u + t * w = 0 := by
    rw [hzero] at hdiff
    exact (mul_eq_zero.1 hdiff.symm).resolve_left (pow_ne_zero n X_ne_zero)
  obtain ⟨κ, rfl⟩ : locator s x ∣ t :=
    (isCoprime_locator_evaluator hx hinj hv).dvd_of_dvd_mul_right ⟨r, (sub_eq_zero.1 hzero).symm⟩
  have hκu : u = -κ * w := mul_left_cancel₀ (locator_ne_zero s x) (by linear_combination hu)
  have hκr : r = κ * evaluator s x v := mul_left_cancel₀ (locator_ne_zero s x) (by linear_combination hzero)
  have hunit : IsUnit κ := hcop.isUnit_of_dvd' (dvd_mul_left ..) (Dvd.intro (-w) (by rw [hκu]; ring))
  obtain ⟨c, hc, rfl⟩ := Polynomial.isUnit_iff.1 hunit
  exact ⟨c, hc.ne_zero, mul_comm .., hκr⟩

end Sys2Proof.ReedSolomon
end

section
/-! SUPPORT. The extended Euclidean algorithm (R127): what its loop keeps, and that neither of its checks fails. With it the two
ways through rsdecode (R126, R127), and what is known of an OK result (R134 (a), (e)). -/

namespace Sys2Proof.ReedSolomon

open Polynomial
open Sys2Proof.Machine hiding Field

variable {K : Type} [Field K] {φ : Byte → K}

/-! ## What the loop keeps, R127 -/

/-- The loop's variables between two passes, as polynomials over the field: each remainder is a combination of `S` and `X^n`
whose cofactors have determinant 1, and cofactors gain what remainders lose in degree. -/
structure EuclidInv (n : Nat) (S rLast r tLast t : K[X]) : Prop where
  bezout : ∃ uLast u, tLast * S + uLast * X ^ n = rLast ∧ t * S + u * X ^ n = r ∧ t * uLast + tLast * u = 1
  remainder : r.natDegree < rLast.natDegree
  cofactor : t.natDegree + rLast.natDegree ≤ n
  cofactorLast : tLast.natDegree + r.natDegree ≤ n
  running : n ≤ 2 * rLast.natDegree

/-- What the loop leaves: a reduced solution of the key equation. -/
structure EuclidDone (n : Nat) (S t r : K[X]) : Prop where
  bezout : ∃ u, t * S + u * X ^ n = r ∧ IsCoprime t u
  remainder : 2 * r.natDegree < n
  cofactor : 2 * t.natDegree ≤ n

theorem EuclidInv.start {n : Nat} {S : K[X]} (hS : S.natDegree < n) : EuclidInv n S (X ^ n) S 0 1 where
  bezout := ⟨1, 0, by ring, by ring, by ring⟩
  remainder := by rwa [natDegree_X_pow]
  cofactor := by rw [natDegree_one, natDegree_X_pow, Nat.zero_add]
  cofactorLast := by rw [natDegree_zero, Nat.zero_add]; exact hS.le
  running := by rw [natDegree_X_pow]; omega

theorem EuclidInv.done {n : Nat} {S rLast r tLast t : K[X]} (hinv : EuclidInv n S rLast r tLast t)
    (hr : 2 * r.natDegree < n) : EuclidDone n S t r where
  bezout := by
    obtain ⟨uLast, u, -, hsol, hdet⟩ := hinv.bezout
    exact ⟨u, hsol, uLast, tLast, by linear_combination hdet⟩
  remainder := hr
  cofactor := by have := hinv.cofactor; have := hinv.running; omega

/-- In a division the quotient has at most the degree that the divisor leaves. -/
theorem natDegree_quotient_add_le {a b q r : K[X]} (hab : b.natDegree ≤ a.natDegree) (hrb : r.natDegree < b.natDegree)
    (h : a = q * b + r) : q.natDegree + b.natDegree ≤ a.natDegree := by
  by_cases hq : q = 0
  · rwa [hq, natDegree_zero, Nat.zero_add]
  · have hb : b ≠ 0 := ne_zero_of_natDegree_gt hrb
    rw [← natDegree_mul hq hb, eq_sub_of_add_eq h.symm]
    exact (natDegree_sub_le _ _).trans (by omega)

theorem EuclidInv.step [CharP K 2] {n : Nat} {S rLast r tLast t q r' : K[X]} (hinv : EuclidInv n S rLast r tLast t)
    (hdiv : rLast = q * r + r') (hr' : r'.natDegree < r.natDegree) (hloop : n ≤ 2 * r.natDegree) :
    EuclidInv n S r r' t (q * t + tLast) where
  bezout := by
    obtain ⟨uLast, u, hlast, hsol, hdet⟩ := hinv.bezout
    have htwo : (2 : K[X]) = 0 := CharTwo.two_eq_zero
    exact ⟨u, q * u + uLast, hsol, by linear_combination hlast + q * hsol + hdiv + q * r * htwo,
      by linear_combination hdet + q * t * u * htwo⟩
  remainder := hr'
  cofactor := by
    have hq := natDegree_quotient_add_le hinv.remainder.le hr' hdiv
    have hmul := natDegree_mul_le (p := q) (q := t)
    have hadd := natDegree_add_le (q * t) tLast
    have := hinv.cofactor
    have := hinv.cofactorLast
    omega
  cofactorLast := by have := hinv.cofactor; have := hinv.remainder; omega
  running := hloop

/-! ## The loop, R127 -/

/-- R101: a division by a polynomial of positive degree lowers the degree, with the degree 0 of the zero polynomial. -/
theorem deg_divmod_lt (a : Poly) {b : Poly} (hb : 0 < b.deg) : (Poly.divmod a b).2.deg < b.deg := by
  obtain ⟨K, _, φ, h⟩ := exists_byteField
  have hzero : b.isZero = false := Bool.eq_false_iff.2 fun hz => by
    rw [← natDegree_toPoly h, (toPoly_isZero h b).1 hz, natDegree_zero] at hb
    exact hb.false
  rcases (divisionWithRemainder a b hzero).2 with hz | hlt
  · rwa [← natDegree_toPoly h (Poly.divmod a b).2, (toPoly_isZero h _).1 hz, natDegree_zero]
  · exact hlt

/-- R134 (e): within nEC + 1 rounds the loop stops with a reduced solution. -/
theorem euclidLoop_done (h : ByteField φ) {nEc fuel : Nat} {S : K[X]} {rLast r tLast t : Poly} (hn : 1 ≤ nEc)
    (hfuel : r.deg < fuel) (hinv : EuclidInv nEc S (toPoly φ rLast) (toPoly φ r) (toPoly φ tLast) (toPoly φ t)) :
    ∃ t' r', euclidLoop nEc fuel rLast r tLast t = .ok t' r' ∧ EuclidDone nEc S (toPoly φ t') (toPoly φ r') := by
  have := h.charP
  induction fuel generalizing rLast r tLast t with
  | zero => omega
  | succ fuel ih =>
    by_cases hloop : nEc ≤ 2 * r.deg
    · have hlt := deg_divmod_lt rLast (b := r) (by omega)
      have hzero : r.isZero = false := Bool.eq_false_iff.2 fun hz => by
        have := natDegree_toPoly h r
        rw [(toPoly_isZero h r).1 hz, natDegree_zero] at this
        omega
      have hstep := hinv.step (toPoly_divmod h rLast hzero) (by simpa only [natDegree_toPoly h] using hlt)
        (by rwa [natDegree_toPoly h])
      rw [← toPoly_mul h, ← toPoly_add h] at hstep
      rw [euclidLoop, if_pos hloop, hzero, if_neg Bool.false_ne_true]
      dsimp only
      rw [if_neg (not_le.2 hlt)]
      exact ih (by omega) hstep
    · refine ⟨t, r, by rw [euclidLoop, if_neg hloop], hinv.done ?_⟩
      rw [natDegree_toPoly h]
      omega

theorem deg_le_length (p : Poly) : p.deg ≤ p.length - 1 := by
  induction p with
  | nil => exact le_rfl
  | cons a p ih =>
    rw [Poly.deg]
    split
    case isTrue => exact Nat.zero_le _
    case isFalse hp =>
      have hpos : 0 < p.length := List.length_pos_of_ne_nil fun hnil => hp (by rw [hnil]; rfl)
      rw [List.length_cons]
      omega

theorem euclid_done (h : ByteField φ) {nEc : Nat} {s : Poly} (hn : 1 ≤ nEc) (hs : s.length = nEc) :
    ∃ t r, euclid nEc s = .ok t r ∧ EuclidDone nEc (toPoly φ s) (toPoly φ t) (toPoly φ r) := by
  have hdeg := deg_le_length s
  refine euclidLoop_done h hn (by omega) ?_
  rw [toPoly_mono h, h.one, C_1, one_mul, toPoly_one h, toPoly_nil]
  exact .start (by rw [natDegree_toPoly h]; omega)

/-! ## The ways through rsdecode, R126 to R132 -/

theorem syndromes_length (c : List Byte) (nEc : Nat) : (syndromes c nEc).length = nEc := by simp [syndromes]

theorem syndromes_all_zero_iff (c : List Byte) (nEc : Nat) : (syndromes c nEc).all (· == 0) = true ↔ Codeword c nEc := by
  simp [syndromes, Codeword]

/-- R126: a codeword is returned as it is. -/
theorem rsdecode_codeword {c : List Byte} {nEc : Nat} (hc : Codeword c nEc) : rsdecode c nEc = .ok c 0 :=
  if_pos ((syndromes_all_zero_iff c nEc).2 hc)

/-- R126, R127: any other block is corrected by what the Euclidean algorithm leaves. -/
theorem rsdecode_not_codeword (h : ByteField φ) {c : List Byte} {nEc : Nat} (hc : ¬ Codeword c nEc) :
    ∃ t r, rsdecode c nEc = rsCorrect c t r ∧ EuclidDone nEc (toPoly φ (syndromes c nEc)) (toPoly φ t) (toPoly φ r) := by
  have hn : 1 ≤ nEc := Nat.one_le_iff_ne_zero.2 fun hzero => hc fun j hj => by omega
  obtain ⟨t, r, heuclid, hdone⟩ := euclid_done h hn (syndromes_length c nEc)
  refine ⟨t, r, ?_, hdone⟩
  simp only [rsdecode, if_neg (mt (syndromes_all_zero_iff c nEc).1 hc), heuclid]

/-- R133: the codes that rsdecode fails with after the loop. -/
theorem rsCorrect_fail {c : List Byte} {t r : Poly} {code : ErrorCode} (hfail : rsCorrect c t r = .fail code) :
    code = .rsSigma0Zero ∨ code = .rsRootcount ∨ code = .rsPosition := by
  simp only [rsCorrect] at hfail
  split_ifs at hfail <;> cases hfail <;> simp

/-- Settles O30: the loop stops with a solution, and what comes after it fails with other codes. -/
theorem euclidChecksNeverFail : Obligations.EuclidChecksNeverFail := by
  intro c nEc _
  obtain ⟨K, _, φ, h⟩ := exists_byteField
  by_cases hc : Codeword c nEc
  · simp [rsdecode_codeword hc]
  · obtain ⟨t, r, heq, -⟩ := rsdecode_not_codeword h hc
    rw [heq]
    exact ⟨fun hfail => by simpa using rsCorrect_fail hfail, fun hfail => by simpa using rsCorrect_fail hfail⟩

/-! ## What an OK result keeps, R132, R134 (a) -/

theorem getD_set_ne (c : List Byte) {p k : Nat} (x : Byte) (hk : k ≠ p) : (c.set p x).getD k 0 = c.getD k 0 := by
  rw [List.getD_eq_getElem?_getD, List.getElem?_set_ne hk.symm, ← List.getD_eq_getElem?_getD]

theorem getD_xorAt_other {c : List Byte} {es : List (Nat × Byte)} {k : Nat} (hk : k ∉ es.map Prod.fst) :
    (xorAt c es).getD k 0 = c.getD k 0 := by
  induction es generalizing c with
  | nil => rfl
  | cons e es ih =>
    obtain ⟨p, x⟩ := e
    rw [List.map_cons, List.mem_cons, not_or] at hk
    rw [xorAt, ih hk.2, getD_set_ne c _ hk.1]

/-- R132: a correction changes no more positions than it lists. -/
theorem differences_xorAt_le (c : List Byte) (es : List (Nat × Byte)) : differences c (xorAt c es) ≤ es.length := by
  rw [differences, List.countP_eq_length_filter, ← List.length_map (f := Prod.fst) (as := es)]
  refine ((List.nodup_range.filter _).subperm fun k hk => ?_).length_le
  by_contra hother
  exact bne_iff_ne.1 (List.mem_filter.1 hk).2 (getD_xorAt_other hother).symm

theorem rsCorrect_ok {c c' : List Byte} {t r : Poly} {nu : Nat} (hok : rsCorrect c t r = .ok c' nu) :
    nu = (Poly.scale (gfInv (t.coeff 0)) t).deg ∧ ∃ es : List (Nat × Byte), es.length ≤ nu ∧ c' = xorAt c es := by
  simp only [rsCorrect] at hok
  split_ifs at hok with _ hcount
  cases hok
  refine ⟨rfl, _, ?_, rfl⟩
  rw [List.length_zip, List.length_map, not_not.1 hcount]
  exact min_le_left ..

/-- Settles O31: a codeword comes back as it is, and else the cofactor's degree bounds the corrections. -/
theorem rsdecodeBound : Obligations.RsdecodeBound := by
  intro c c' nEc nu _ hok
  refine ⟨rsdecode_ok_length hok, ?_⟩
  obtain ⟨K, _, φ, h⟩ := exists_byteField
  by_cases hc : Codeword c nEc
  · rw [rsdecode_codeword hc] at hok
    cases hok
    exact ⟨Nat.zero_le _, differences_xorAt_le c []⟩
  · obtain ⟨t, r, heq, hdone⟩ := rsdecode_not_codeword h hc
    obtain ⟨hnu, es, hlen, rfl⟩ := rsCorrect_ok (heq ▸ hok)
    refine ⟨?_, (differences_xorAt_le c es).trans hlen⟩
    have hscale := natDegree_C_mul_le (φ (gfInv (t.coeff 0))) (toPoly φ t)
    rw [← toPoly_scale h, natDegree_toPoly h, ← hnu] at hscale
    have := hdone.cofactor
    omega

end Sys2Proof.ReedSolomon
end

section
/-! SUPPORT. Blocks and the codewords near them (R103, R104): the syndromes of a block are those of its errors, the Forney
magnitudes (R130) are the errors, and the Chien search (R129) finds their positions. -/

namespace Sys2Proof.ReedSolomon

open Polynomial
open Sys2Proof.Machine hiding Field

variable {K : Type} [Field K] {φ : Byte → K}

/-! ## Positions and locations, R103 -/

/-- R103: the location of position `p` in a block of `n`. -/
def locationAt (n p : Nat) : Byte := gfExp (n - 1 - p)

theorem gfLog_locationAt {n p : Nat} (hn : n ≤ 255) (hp : p < n) : gfLog (locationAt n p) = n - 1 - p := gfLog_gfExp (by omega)

/-- R131: the position of a location. -/
theorem position_locationAt {n p : Nat} (hn : n ≤ 255) (hp : p < n) : n - 1 - gfLog (locationAt n p) = p := by
  rw [gfLog_locationAt hn hp]
  omega

theorem locationAt_ne_zero (n p : Nat) : locationAt n p ≠ 0 := gfExp_ne_zero _

theorem locationAt_inj {n p q : Nat} (hn : n ≤ 255) (hp : p < n) (hq : q < n) (h : locationAt n p = locationAt n q) : p = q := by
  rw [← position_locationAt hn hp, h, position_locationAt hn hq]

theorem gfInv_ne_zero {a : Byte} (ha : a ≠ 0) : gfInv a ≠ 0 := fun hzero => by
  have hone := gfMul_gfInv ha
  rw [hzero, gfMul_zero_right] at hone
  exact absurd hone (by decide)

theorem gfInv_gfInv {a : Byte} (ha : a ≠ 0) : gfInv (gfInv a) = a := by
  have hmul := gfMul_gfInv_cancel a (gfInv_ne_zero ha)
  rwa [gfMul_comm a, gfMul_assoc, gfMul_gfInv ha, gfMul_one_right] at hmul

/-- R103: the location as an element of the field. -/
def fieldLocation (φ : Byte → K) (n p : Nat) : K := φ (locationAt n p)

theorem ByteField.fieldLocation_ne_zero (h : ByteField φ) (n p : Nat) : fieldLocation φ n p ≠ 0 := h.gfExp_ne_zero _

theorem ByteField.gfInv_locationAt (h : ByteField φ) (n p : Nat) : φ (gfInv (locationAt n p)) = (fieldLocation φ n p)⁻¹ :=
  h.inv (locationAt_ne_zero n p)

/-! ## The syndromes of a block near a codeword, R104 -/

theorem eval_toPoly_eq_sum (φ : Byte → K) (p : Poly) (e : K) :
    (toPoly φ p).eval e = ∑ i ∈ Finset.range p.length, φ (p.getD i 0) * e ^ i := by
  induction p with
  | nil => simp
  | cons a p ih =>
    rw [toPoly_cons, eval_add, eval_C, eval_mul, eval_X, ih, List.length_cons, Finset.sum_range_succ', Finset.mul_sum, add_comm]
    simp [pow_succ', mul_left_comm]

theorem eval_codewordPoly (h : ByteField φ) (c : List Byte) (j : Nat) : φ ((codewordPoly c).eval (gfExp j))
    = ∑ k ∈ Finset.range c.length, φ (c.getD k 0) * fieldLocation φ c.length k ^ j := by
  rw [toPoly_eval h, eval_toPoly_eq_sum, codewordPoly, List.length_reverse, ← Finset.sum_range_reflect]
  refine Finset.sum_congr rfl fun k hk => ?_
  have hk := Finset.mem_range.1 hk
  rw [List.getD_reverse _ (by omega), show c.length - 1 - (c.length - 1 - k) = k by omega, ← h.pow, Nat.mul_comm, h.pow,
    fieldLocation, locationAt]

/-- The error of the block `c` at position `k`, seen from `d`. -/
def errorAt (c d : List Byte) (k : Nat) : Byte := c.getD k 0 ^^^ d.getD k 0

/-- The error as an element of the field. -/
def fieldError (φ : Byte → K) (c d : List Byte) (k : Nat) : K := φ (errorAt c d k)

theorem errorAt_eq_zero_iff {c d : List Byte} {k : Nat} : errorAt c d k = 0 ↔ c.getD k 0 = d.getD k 0 := BitVec.xor_eq_zero_iff

/-- `d` is a codeword of `m` EC codewords that differs from the block `c` at positions of `s` only. -/
structure NearCodeword (c d : List Byte) (m : Nat) (s : Finset Nat) : Prop where
  codeword : Codeword d m
  length : d.length = c.length
  bound : c.length ≤ 255
  within : ∀ k ∈ s, k < c.length
  same : ∀ k ∉ s, c.getD k 0 = d.getD k 0

variable {c d : List Byte} {m : Nat} {s : Finset Nat}

theorem NearCodeword.injOn (near : NearCodeword c d m s) (h : ByteField φ) :
    Set.InjOn (fieldLocation φ c.length) s := fun _ hp _ hq hpq =>
  locationAt_inj near.bound (near.within _ hp) (near.within _ hq) (h.bijective.injective hpq)

/-- R104: each syndrome is a power sum of the errors. -/
theorem NearCodeword.syndrome (near : NearCodeword c d m s) (h : ByteField φ) {j : Nat} (hj : j < m) :
    φ ((codewordPoly c).eval (gfExp j)) = ∑ k ∈ s, fieldError φ c d k * fieldLocation φ c.length k ^ j := by
  have hd := eval_codewordPoly h d j
  rw [near.codeword j hj, h.zero, near.length] at hd
  have hsub : s ⊆ Finset.range c.length := fun k hk => Finset.mem_range.2 (near.within k hk)
  rw [eval_codewordPoly h, ← add_zero (Finset.sum ..), hd, ← Finset.sum_add_distrib, Finset.sum_subset hsub fun k _ hk => ?_]
  · refine Finset.sum_congr rfl fun k _ => ?_
    rw [fieldError, errorAt, h.xor]
    ring
  · rw [fieldError, errorAt_eq_zero_iff.2 (near.same k hk), h.zero, zero_mul]

theorem NearCodeword.toPoly_syndromes (near : NearCodeword c d m s) (h : ByteField φ) : toPoly φ (syndromes c m)
    = syndromePoly s (fieldLocation φ c.length) (fieldError φ c d) m := by
  ext j
  rw [coeff_toPoly h, coeff_syndromePoly]
  split
  case isTrue hj =>
    rw [← near.syndrome h hj]
    simp [syndromes, Poly.coeff, hj]
  case isFalse hj =>
    rw [Poly.coeff, List.getD_eq_default _ _ (by rw [syndromes_length]; omega), h.zero]

/-! ## Forney magnitudes, R130 -/

theorem forneyDenominator_eq (h : ByteField φ) {x : Byte} (hx : x ≠ 0) (ys : List Byte) :
    φ (forneyDenominator x ys) = (ys.map fun y => 1 - φ y * (φ x)⁻¹).prod := by
  have := h.charP
  induction ys with
  | nil => exact h.one
  | cons y ys ih =>
    rw [forneyDenominator, h.mul, h.xor, h.one, h.mul, h.inv hx, ih, List.map_cons, List.prod_cons, CharTwo.sub_eq_add]

/-- R130: the magnitude at a location is the error there. -/
theorem NearCodeword.forneyMagnitude_eq (near : NearCodeword c d m s) (h : ByteField φ) {omega : Poly}
    (homega : toPoly φ omega = evaluator s (fieldLocation φ c.length) (fieldError φ c d)) {p : Nat}
    {others : List Nat} (hp : p ∈ s) (hnodup : others.Nodup) (hothers : others.toFinset = s.erase p) :
    forneyMagnitude omega (locationAt c.length p) (others.map (locationAt c.length)) = errorAt c d p := by
  have hx := h.fieldLocation_ne_zero c.length p
  have hden : φ (forneyDenominator (locationAt c.length p) (others.map (locationAt c.length)))
      = ∏ l ∈ s.erase p, (1 - fieldLocation φ c.length l * (fieldLocation φ c.length p)⁻¹) := by
    rw [forneyDenominator_eq h (locationAt_ne_zero _ _), ← hothers, List.prod_toFinset _ hnodup, List.map_map]
    rfl
  have hne := prod_erase_ne_zero (near.injOn h) hp hx
  refine h.bijective.injective ?_
  rw [forneyMagnitude, h.div _ (mt h.eq_zero_iff.2 (hden ▸ hne)), toPoly_eval h, h.gfInv_locationAt, homega,
    evaluator_eval_inv hp hx, hden, mul_div_cancel_right₀ _ hne, fieldError]

/-- R130: the magnitudes of all locations, in whatever order these are listed. -/
theorem NearCodeword.forneyAll_eq (near : NearCodeword c d m s) (h : ByteField φ) {omega : Poly}
    (homega : toPoly φ omega = evaluator s (fieldLocation φ c.length) (fieldError φ c d))
    {before ps : List Nat} (hnodup : (before ++ ps).Nodup) (hps : (before ++ ps).toFinset = s) :
    forneyAll omega (before.map (locationAt c.length)) (ps.map (locationAt c.length)) = ps.map (errorAt c d) := by
  induction ps generalizing before with
  | nil => rfl
  | cons p ps ih =>
    have hperm : (before ++ p :: ps).Perm (p :: (before ++ ps)) := List.perm_middle
    obtain ⟨hp, hrest⟩ := List.nodup_cons.1 (hperm.nodup_iff.1 hnodup)
    have hset : s = insert p (before ++ ps).toFinset := by rw [← hps, List.toFinset_eq_of_perm _ _ hperm, List.toFinset_cons]
    have hothers : (before ++ ps).toFinset = s.erase p := by
      rw [hset, Finset.erase_insert (mt List.mem_toFinset.1 hp)]
    have hhead := near.forneyMagnitude_eq h homega (hset ▸ Finset.mem_insert_self ..) hrest hothers
    rw [List.map_append] at hhead
    rw [List.append_cons] at hnodup hps
    have htail := ih hnodup hps
    rw [List.map_append] at htail
    rw [List.map_cons, forneyAll, hhead, List.map_cons]
    exact congrArg _ htail

/-! ## The Chien search, R129 -/

theorem mem_chienRoots {sigma : Poly} {e : Byte} : e ∈ chienRoots sigma ↔ e ≠ 0 ∧ sigma.eval e = 0 := by
  rw [chienRoots, List.mem_filter, beq_iff_eq, List.mem_map, and_congr_left_iff]
  refine fun _ => ⟨?_, fun he => ⟨e.toNat - 1, ?_, ?_⟩⟩
  · rintro ⟨i, hi, rfl⟩ hzero
    have hi := List.mem_range.1 hi
    have : (i + 1) % 2 ^ 8 = 0 := (BitVec.toNat_ofNat ..).symm.trans (congrArg BitVec.toNat hzero)
    omega
  · have := e.isLt
    exact List.mem_range.2 (by omega)
  · have : e.toNat ≠ 0 := fun hzero => he (BitVec.eq_of_toNat_eq hzero)
    rw [show e.toNat - 1 + 1 = e.toNat by omega, BitVec.ofNat_toNat, BitVec.setWidth_eq]

theorem chienRoots_nodup (sigma : Poly) : (chienRoots sigma).Nodup := by
  refine (List.Nodup.map_on (fun i hi j hj hij => ?_) List.nodup_range).filter _
  have hi := List.mem_range.1 hi
  have hj := List.mem_range.1 hj
  have := congrArg BitVec.toNat hij
  rw [BitVec.toNat_ofNat, BitVec.toNat_ofNat] at this
  omega

/-- R129: the roots of the locator are the inverses of its locations. -/
theorem mem_chienRoots_locator (h : ByteField φ) {n : Nat} {sigma : Poly}
    (hsigma : toPoly φ sigma = locator s (fieldLocation φ n)) {e : Byte} :
    e ∈ chienRoots sigma ↔ ∃ p ∈ s, e = gfInv (locationAt n p) := by
  have hfactor : ∀ p, 1 - fieldLocation φ n p * φ e = 0 ↔ e = gfInv (locationAt n p) := fun p => by
    rw [sub_eq_zero, eq_comm, mul_comm, mul_eq_one_iff_eq_inv₀ (h.fieldLocation_ne_zero _ _), ← h.gfInv_locationAt,
      h.bijective.injective.eq_iff]
  rw [mem_chienRoots, ← h.eq_zero_iff, toPoly_eval h, hsigma, locator_eval, Finset.prod_eq_zero_iff]
  simp only [hfactor]
  refine and_iff_right_of_imp ?_
  rintro ⟨p, -, rfl⟩
  exact gfInv_ne_zero (locationAt_ne_zero _ _)

/-- R129, R131: the locations that the search lists are those of the locator, in some order. -/
theorem exists_chien_positions (h : ByteField φ) {n : Nat} (hn : n ≤ 255) (hs : ∀ p ∈ s, p < n) {sigma : Poly}
    (hsigma : toPoly φ sigma = locator s (fieldLocation φ n)) :
    ∃ ps : List Nat, ps.Nodup ∧ ps.toFinset = s ∧ (chienRoots sigma).map gfInv = ps.map (locationAt n) := by
  have hposition : ∀ p ∈ s, n - 1 - gfLog (locationAt n p) = p := fun p hp => position_locationAt hn (hs p hp)
  have hroots : ∀ e ∈ chienRoots sigma, ∃ p ∈ s, gfInv e = locationAt n p ∧ n - 1 - gfLog (gfInv e) = p := fun e he => by
    obtain ⟨p, hp, rfl⟩ := (mem_chienRoots_locator h hsigma).1 he
    rw [gfInv_gfInv (locationAt_ne_zero _ _)]
    exact ⟨p, hp, rfl, hposition p hp⟩
  refine ⟨(chienRoots sigma).map fun e => n - 1 - gfLog (gfInv e), ?_, ?_, ?_⟩
  · refine List.Nodup.map_on (fun e he e' he' heq => ?_) (chienRoots_nodup sigma)
    obtain ⟨p, -, hinv, hlog⟩ := hroots e he
    obtain ⟨p', -, hinv', hlog'⟩ := hroots e' he'
    rw [← gfInv_gfInv (mem_chienRoots.1 he).1, ← gfInv_gfInv (mem_chienRoots.1 he').1, hinv, hinv', ← hlog, ← hlog', heq]
  · ext p
    rw [List.mem_toFinset, List.mem_map]
    constructor
    · rintro ⟨e, he, rfl⟩
      obtain ⟨p, hp, -, hlog⟩ := hroots e he
      exact hlog ▸ hp
    · intro hp
      refine ⟨gfInv (locationAt n p), (mem_chienRoots_locator h hsigma).2 ⟨p, hp, rfl⟩, ?_⟩
      rw [gfInv_gfInv (locationAt_ne_zero _ _), hposition p hp]
  · rw [List.map_map]
    refine List.map_congr_left fun e he => ?_
    obtain ⟨p, -, hinv, hlog⟩ := hroots e he
    rw [Function.comp_apply, hlog, hinv]

end Sys2Proof.ReedSolomon
end

section
/-! SUPPORT. rsdecode corrects (R128 to R132, R134 (b)): a block near enough to a codeword is corrected to it. -/

namespace Sys2Proof.ReedSolomon

open Polynomial
open Sys2Proof.Machine hiding Field

variable {K : Type} [Field K] {φ : Byte → K} {c d : List Byte} {m : Nat} {s : Finset Nat}

/-! ## The commit, R132 -/

theorem getD_set (c : List Byte) {p : Nat} (k : Nat) (x : Byte) (hp : p < c.length) :
    (c.set p x).getD k 0 = if k = p then x else c.getD k 0 := by
  simp only [List.getD_eq_getElem?_getD, List.getElem?_set, hp, if_true, eq_comm (a := p)]
  split <;> rfl

/-- R132: each listed position, listed once, gets its correction. -/
theorem getD_xorAt_map (e : Nat → Byte) {c : List Byte} {ps : List Nat} (hnodup : ps.Nodup) (hlt : ∀ p ∈ ps, p < c.length)
    (k : Nat) : (xorAt c (ps.map fun p => (p, e p))).getD k 0 = if k ∈ ps then c.getD k 0 ^^^ e k else c.getD k 0 := by
  induction ps generalizing c with
  | nil => rfl
  | cons p ps ih =>
    obtain ⟨hp, hps⟩ := List.nodup_cons.1 hnodup
    obtain ⟨hplt, hpslt⟩ := List.forall_mem_cons.1 hlt
    rw [List.map_cons, xorAt, ih hps (by simpa using hpslt), getD_set _ _ _ hplt]
    by_cases hk : k = p
    · subst hk
      simp [hp]
    · simp [hk]

theorem ext_getD {c d : List Byte} (hlen : c.length = d.length) (h : ∀ k, c.getD k 0 = d.getD k 0) : c = d :=
  List.ext_getElem hlen fun k hc hd => by
    rw [← List.getD_eq_getElem c 0 hc, h, List.getD_eq_getElem d 0 hd]

theorem xor_errorAt (c d : List Byte) (k : Nat) : c.getD k 0 ^^^ errorAt c d k = d.getD k 0 := by
  rw [errorAt, ← BitVec.xor_assoc, byte_xor_self, byte_zero_xor]

theorem NearCodeword.xorAt_eq (near : NearCodeword c d m s) {ps : List Nat} (hnodup : ps.Nodup) (hps : ps.toFinset = s) :
    xorAt c (ps.map fun p => (p, errorAt c d p)) = d := by
  refine ext_getD (by rw [xorAt_length, near.length]) fun k => ?_
  rw [getD_xorAt_map _ hnodup fun p hp => near.within p (hps ▸ List.mem_toFinset.2 hp)]
  split
  case isTrue => exact xor_errorAt c d k
  case isFalse hk => exact near.same k fun hs => hk (List.mem_toFinset.1 (hps ▸ hs))

/-! ## The correction, R128 to R132 -/

/-- R128: dividing by the constant term of a multiple of `p`, whose constant term is 1, gives `p`. -/
theorem toPoly_normalised (h : ByteField φ) {κ : K} {s0 : Byte} {q : Poly} {p : K[X]} (hκ : κ ≠ 0) (hs0 : φ s0 = κ)
    (hq : toPoly φ q = C κ * p) : toPoly φ (Poly.scale (gfInv s0) q) = p := by
  have hne : s0 ≠ 0 := mt h.eq_zero_iff.2 (hs0 ▸ hκ)
  rw [toPoly_scale h, h.inv hne, hs0, hq, ← mul_assoc, ← C_mul, inv_mul_cancel₀ hκ, C_1, one_mul]

/-- R131: the locations of positions of the block lie in it. -/
theorem any_outside_locationAt {n : Nat} {ps : List Nat} (hn : n ≤ 255) (hps : ∀ p ∈ ps, p < n) :
    ((ps.map (locationAt n)).any fun x => decide (gfLog x ≥ n)) = false := by
  rw [List.any_map, List.any_eq_false]
  intro p hp
  have := hps p hp
  rw [Function.comp_apply, gfLog_locationAt hn this, decide_eq_true_eq]
  omega

/-- R131: the positions of the locations. -/
theorem map_position_locationAt {n : Nat} {ps : List Nat} (hn : n ≤ 255) (hps : ∀ p ∈ ps, p < n) :
    ((ps.map (locationAt n)).map fun x => n - 1 - gfLog x) = ps := by
  rw [List.map_map]
  exact (List.map_congr_left fun p hp => position_locationAt hn (hps p hp)).trans (List.map_id ps)

/-- R128 to R132: a multiple of the locator and the evaluator corrects the block. -/
theorem NearCodeword.rsCorrect_eq (near : NearCodeword c d m s) (h : ByteField φ) {κ : K} {t r : Poly} (hκ : κ ≠ 0)
    (ht : toPoly φ t = C κ * locator s (fieldLocation φ c.length))
    (hr : toPoly φ r = C κ * evaluator s (fieldLocation φ c.length) (fieldError φ c d)) :
    rsCorrect c t r = .ok d s.card := by
  have hs0 : φ (t.coeff 0) = κ := by rw [← coeff_toPoly h, ht, coeff_C_mul, coeff_zero_locator, mul_one]
  have hne : t.coeff 0 ≠ 0 := mt h.eq_zero_iff.2 (hs0 ▸ hκ)
  have hsigma := toPoly_normalised h hκ hs0 ht
  have homega := toPoly_normalised h hκ hs0 hr
  have hdeg : (Poly.scale (gfInv (t.coeff 0)) t).deg = s.card := by
    rw [← natDegree_toPoly h, hsigma, natDegree_locator fun k _ => h.fieldLocation_ne_zero _ k]
  obtain ⟨ps, hnodup, hps, hlocations⟩ := exists_chien_positions h near.bound near.within hsigma
  have hmem : ∀ p ∈ ps, p < c.length := fun p hp => near.within p (hps ▸ List.mem_toFinset.2 hp)
  have hcount : ps.length = s.card := by rw [← hps, List.toFinset_card_of_nodup hnodup]
  have hinside := any_outside_locationAt near.bound hmem
  have hpositions := map_position_locationAt near.bound hmem
  have hmagnitudes := near.forneyAll_eq (before := []) h homega hnodup hps
  rw [List.map_nil] at hmagnitudes
  simp only [rsCorrect, if_neg hne, hlocations, List.length_map, hcount, hdeg, ne_eq, not_true_eq_false, if_false, hinside,
    Bool.false_eq_true, hpositions, hmagnitudes, ← List.map_prod_left_eq_zip]
  exact congrArg (RsResult.ok · _) (near.xorAt_eq hnodup hps)

/-! ## Within half of the EC codewords, R134 (b) -/

section
variable (herr : ∀ k ∈ s, errorAt c d k ≠ 0) (hcard : 2 * s.card ≤ m)
include herr hcard

theorem NearCodeword.eq_locator_evaluator (near : NearCodeword c d m s) (h : ByteField φ) {t u r : K[X]}
    (hsol : t * toPoly φ (syndromes c m) + u * X ^ m = r) (hcop : IsCoprime t u) (hr : 2 * r.natDegree < m)
    (ht : 2 * t.natDegree ≤ m) : ∃ κ : K, κ ≠ 0 ∧ t = C κ * locator s (fieldLocation φ c.length) ∧
      r = C κ * evaluator s (fieldLocation φ c.length) (fieldError φ c d) :=
  ReedSolomon.eq_locator_evaluator (fun k _ => h.fieldLocation_ne_zero _ k) (near.injOn h)
    (fun k hk => mt h.eq_zero_iff.1 (herr k hk)) hcard (near.toPoly_syndromes h ▸ hsol) hcop hr ht

/-- Two codewords as near as that are the same: `t = 1` and `r = 0` solve the key equation. -/
theorem NearCodeword.card_eq_zero (near : NearCodeword c d m s) (hc : Codeword c m) : s.card = 0 := by
  obtain ⟨K, _, φ, h⟩ := exists_byteField
  rcases Nat.eq_zero_or_pos m with rfl | hm
  · omega
  have hsynd : toPoly φ (syndromes c m) = 0 := (toPoly_isZero h _).1 ((syndromes_all_zero_iff c m).2 hc)
  obtain ⟨κ, hκ, ht, -⟩ := near.eq_locator_evaluator herr hcard h (t := 1) (u := 0) (r := 0) (by rw [hsynd]; ring)
    isCoprime_one_left (by rwa [natDegree_zero]) (by rw [natDegree_one]; exact Nat.zero_le m)
  rw [← natDegree_locator fun k _ => h.fieldLocation_ne_zero c.length k, ← natDegree_C_mul hκ, ← ht, natDegree_one]

/-- R134 (b): the block is corrected to the codeword. -/
theorem NearCodeword.rsdecode_eq (near : NearCodeword c d m s) : rsdecode c m = .ok d s.card := by
  by_cases hc : Codeword c m
  · have hzero := near.card_eq_zero herr hcard hc
    obtain rfl : c = d := ext_getD near.length.symm fun k => near.same k (by rw [Finset.card_eq_zero.1 hzero]; simp)
    rw [rsdecode_codeword hc, hzero]
  · obtain ⟨K, _, φ, h⟩ := exists_byteField
    obtain ⟨t, r, heq, ⟨u, hsol, hcop⟩, hr, ht⟩ := rsdecode_not_codeword h hc
    obtain ⟨κ, hκ, ht, hr⟩ := near.eq_locator_evaluator herr hcard h hsol hcop hr ht
    rw [heq, near.rsCorrect_eq h hκ ht hr]

end

/-- The positions two blocks differ in. -/
def differingPositions (c d : List Byte) : Finset Nat := (Finset.range c.length).filter fun k => c.getD k 0 ≠ d.getD k 0

theorem card_differingPositions (c d : List Byte) : (differingPositions c d).card = differences c d := by
  rw [differences, List.countP_eq_length_filter, ← List.toFinset_card_of_nodup (List.nodup_range.filter _), List.toFinset_filter,
    List.toFinset_range]
  simp [differingPositions]

theorem nearCodeword_differingPositions (hd : Codeword d m) (hlen : c.length = d.length) (hbound : c.length ≤ 255) :
    NearCodeword c d m (differingPositions c d) where
  codeword := hd
  length := hlen.symm
  bound := hbound
  within k hk := Finset.mem_range.1 (Finset.mem_filter.1 hk).1
  same k hk := by
    by_cases hlt : k < c.length
    · by_contra hne
      exact hk (Finset.mem_filter.2 ⟨Finset.mem_range.2 hlt, hne⟩)
    · rw [List.getD_eq_default _ _ (by omega), List.getD_eq_default _ _ (by omega)]

/-- Settles O29: the errors stand at the positions the blocks differ in. -/
theorem rsdecodeCorrects : Obligations.RsdecodeCorrects := by
  intro c d nEc _ hbound hlen _ hd hdiff
  rw [← card_differingPositions] at hdiff ⊢
  refine (nearCodeword_differingPositions hd hlen hbound).rsdecode_eq (fun k hk => ?_) hdiff
  exact mt errorAt_eq_zero_iff.1 (Finset.mem_filter.1 hk).2

end Sys2Proof.ReedSolomon
end

section
/-! SUPPORT. The encoder (R137): the division register holds, at each root of the generator, what the data read so far leaves
there, so the encoded block is a codeword. -/

namespace Sys2Proof.ReedSolomon

open Polynomial
open Sys2Proof.Machine hiding Field

variable {K : Type} [Field K] {φ : Byte → K}

/-! ## The generator polynomial, R105 -/

theorem length_mul_pair {p : Poly} (hp : p ≠ []) (a b : Byte) : (Poly.mul p [a, b]).length = p.length + 1 := by
  have hadd : ∀ q r : Poly, (Poly.add q r).length = max q.length r.length := fun q r => by
    induction q, r using Poly.add.induct with
    | case1 r => simp [Poly.add]
    | case2 q _ => simp [Poly.add_nil]
    | case3 a q b r ih => simp only [Poly.add, List.length_cons, ih]; omega
  induction p with
  | nil => exact absurd rfl hp
  | cons c p ih =>
    rw [Poly.mul, hadd]
    cases p with
    | nil => rfl
    | cons c' p =>
      rw [List.length_cons (a := (0 : Byte)), ih (List.cons_ne_nil _ _)]
      simp only [Poly.scale, List.length_map, List.length_cons, List.length_nil]
      omega

theorem generator_length (n : Nat) : (generator n).length = n + 1 := by
  induction n with
  | zero => rfl
  | succ n ih =>
    have hne : generator n ≠ [] := fun hnil => by simp [hnil] at ih
    rw [generator, length_mul_pair hne, ih]

theorem toPoly_generator (h : ByteField φ) (n : Nat) :
    toPoly φ (generator n) = ∏ j ∈ Finset.range n, (X + C (φ (gfExp j))) := by
  induction n with
  | zero => exact toPoly_one h
  | succ n ih =>
    rw [generator, toPoly_mul h, ih, Finset.prod_range_succ, toPoly_cons, toPoly_cons, toPoly_nil, h.one, C_1]
    ring

/-- R105: the generator's leading coefficient is 1. -/
theorem generator_reverse (n : Nat) : (generator n).reverse = 0x01 :: (generator n).reverse.tail := by
  obtain ⟨K, _, φ, h⟩ := exists_byteField
  have hmonic : (toPoly φ (generator n)).Monic := by
    rw [toPoly_generator h]
    exact monic_prod_of_monic _ _ fun j _ => monic_X_add_C _
  have hdeg : (toPoly φ (generator n)).natDegree = n := by
    rw [toPoly_generator h, natDegree_prod_of_monic _ _ fun j _ => monic_X_add_C _]
    simp
  have hlead : (generator n).coeff n = 0x01 := by
    refine h.bijective.injective ?_
    rw [← coeff_toPoly h, h.one, ← hmonic.coeff_natDegree, hdeg]
  have hlen := generator_length n
  have hhead : (generator n).reverse[0]? = some 0x01 := by
    rw [List.getElem?_reverse (by omega), hlen, ← hlead, Poly.coeff, List.getD_eq_getElem _ _ (by omega),
      List.getElem?_eq_getElem (by omega)]
    rfl
  rw [← List.head?_eq_getElem?] at hhead
  exact (List.cons_head?_tail hhead).symm

/-! ## The value of a block at a field element, R102, R103 -/

/-- `C(x)` for the codeword polynomial `C` of a block. -/
noncomputable def blockValue (φ : Byte → K) (c : List Byte) (x : K) : K := (toPoly φ (codewordPoly c)).eval x

theorem blockValue_nil (φ : Byte → K) (x : K) : blockValue φ [] x = 0 := eval_zero

theorem blockValue_append_singleton (c : List Byte) (a : Byte) (x : K) :
    blockValue φ (c ++ [a]) x = blockValue φ c x * x + φ a := by
  simp only [blockValue, codewordPoly, List.reverse_append, List.reverse_singleton, List.singleton_append, toPoly_cons, eval_add,
    eval_C, eval_mul, eval_X]
  ring

theorem blockValue_append (c d : List Byte) (x : K) :
    blockValue φ (c ++ d) x = blockValue φ c x * x ^ d.length + blockValue φ d x := by
  induction d using List.reverseRecOn with
  | nil => rw [List.append_nil, blockValue_nil, List.length_nil, pow_zero, mul_one, add_zero]
  | append_singleton d a ih =>
    rw [← List.append_assoc, blockValue_append_singleton, blockValue_append_singleton, ih, List.length_append,
      List.length_singleton, pow_succ]
    ring

theorem blockValue_cons (a : Byte) (c : List Byte) (x : K) : blockValue φ (a :: c) x = φ a * x ^ c.length + blockValue φ c x := by
  rw [← List.singleton_append, blockValue_append, ← List.nil_append [a], blockValue_append_singleton, blockValue_nil, zero_mul,
    zero_add]

theorem blockValue_add_scaled (h : ByteField φ) (fb : Byte) {r g : List Byte} (hlen : r.length = g.length) (x : K) :
    blockValue φ (List.zipWith (fun a b => a ^^^ gfMul fb b) r g) x = blockValue φ r x + φ fb * blockValue φ g x := by
  induction r generalizing g with
  | nil =>
    obtain rfl := List.length_eq_zero_iff.1 hlen.symm
    simp [blockValue_nil]
  | cons a r ih =>
    cases g with
    | nil => cases hlen
    | cons b g =>
      have hlen : r.length = g.length := Nat.succ.inj hlen
      rw [List.zipWith_cons_cons, blockValue_cons, blockValue_cons, blockValue_cons, ih hlen, List.length_zipWith, hlen,
        Nat.min_self, h.xor, h.mul]
      ring

theorem codeword_iff (h : ByteField φ) (c : List Byte) (nEc : Nat) :
    Codeword c nEc ↔ ∀ j < nEc, blockValue φ c (φ (gfExp j)) = 0 := by
  simp only [Codeword, blockValue, ← toPoly_eval h, h.eq_zero_iff]

/-! ## The division register, R137 -/

/-- R137: gh[1..NEC], the generator's coefficients behind the leading one. -/
def generatorTail (nEc : Nat) : List Byte := (generator nEc).reverse.tail

theorem generatorTail_length (nEc : Nat) : (generatorTail nEc).length = nEc := by
  rw [generatorTail, List.length_tail, List.length_reverse, generator_length, Nat.add_sub_cancel]

/-- R105: at a root of the generator its tail has the value of its leading term. -/
theorem blockValue_generatorTail (h : ByteField φ) {nEc j : Nat} (hj : j < nEc) :
    blockValue φ (generatorTail nEc) (φ (gfExp j)) = φ (gfExp j) ^ nEc := by
  have := h.charP
  have hroot : blockValue φ (0x01 :: generatorTail nEc) (φ (gfExp j)) = 0 := by
    rw [generatorTail, ← generator_reverse, blockValue, codewordPoly, List.reverse_reverse, toPoly_generator h, eval_prod]
    refine Finset.prod_eq_zero (Finset.mem_range.2 hj) ?_
    rw [eval_add, eval_X, eval_C, CharTwo.add_self_eq_zero]
  rw [blockValue_cons, generatorTail_length, h.one, one_mul] at hroot
  exact (CharTwo.add_eq_zero.1 hroot).symm

theorem encodeStep_length {gt rem : List Byte} (d : Byte) (hlen : rem.length = gt.length) :
    (encodeStep gt rem d).length = gt.length := by
  rw [encodeStep, List.length_zipWith, List.length_append, List.length_tail, List.length_singleton]
  omega

/-- R137: a pass reads one more data codeword. -/
theorem blockValue_encodeStep (h : ByteField φ) {nEc j : Nat} (hj : j < nEc) {rem : List Byte} (d : Byte)
    (hlen : rem.length = nEc) : blockValue φ (encodeStep (generatorTail nEc) rem d) (φ (gfExp j))
      = blockValue φ rem (φ (gfExp j)) * φ (gfExp j) + φ d * φ (gfExp j) ^ nEc := by
  cases rem with
  | nil => exact absurd hlen.symm (Nat.ne_of_gt (Nat.zero_lt_of_lt hj))
  | cons r rem =>
    have hlen : rem.length + 1 = nEc := hlen
    rw [encodeStep, List.headD_cons, List.tail_cons, blockValue_add_scaled h _ (by simp [generatorTail_length, hlen]),
      blockValue_append_singleton, blockValue_generatorTail h hj, h.xor, h.zero, blockValue_cons, ← hlen, pow_succ]
    ring

theorem rsEncodeBlock_append_singleton (data : List Byte) (d : Byte) (nEc : Nat) :
    rsEncodeBlock (data ++ [d]) nEc = encodeStep (generatorTail nEc) (rsEncodeBlock data nEc) d := by
  rw [rsEncodeBlock, List.foldl_append]
  rfl

theorem rsEncodeBlock_length (data : List Byte) (nEc : Nat) : (rsEncodeBlock data nEc).length = nEc := by
  induction data using List.reverseRecOn with
  | nil => exact List.length_replicate
  | append_singleton data d ih =>
    have hlen := encodeStep_length d (ih.trans (generatorTail_length nEc).symm)
    rw [rsEncodeBlock_append_singleton, hlen, generatorTail_length]

/-- R137: at a root of the generator the EC codewords have the value of the data shifted by NEC. -/
theorem blockValue_rsEncodeBlock (h : ByteField φ) {nEc j : Nat} (hj : j < nEc) (data : List Byte) :
    blockValue φ (rsEncodeBlock data nEc) (φ (gfExp j)) = blockValue φ data (φ (gfExp j)) * φ (gfExp j) ^ nEc := by
  induction data using List.reverseRecOn with
  | nil =>
    have hzero : Poly.isZero (codewordPoly (List.replicate nEc 0)) = true := by simp [codewordPoly, Poly.isZero]
    rw [blockValue_nil, zero_mul, rsEncodeBlock, List.foldl_nil, blockValue, (toPoly_isZero h _).1 hzero, eval_zero]
  | append_singleton data d ih =>
    rw [rsEncodeBlock_append_singleton, blockValue_encodeStep h hj d (rsEncodeBlock_length data nEc), ih,
      blockValue_append_singleton]
    ring

/-- R137: data and EC codewords together are a codeword. -/
theorem codeword_rsEncodeBlock (data : List Byte) (nEc : Nat) : Codeword (data ++ rsEncodeBlock data nEc) nEc := by
  obtain ⟨K, _, φ, h⟩ := exists_byteField
  have := h.charP
  refine (codeword_iff h _ _).2 fun j hj => ?_
  rw [blockValue_append, rsEncodeBlock_length, blockValue_rsEncodeBlock h hj, CharTwo.add_self_eq_zero]

end Sys2Proof.ReedSolomon
end

section
/-! SUPPORT. RS_DECODE and RS_ENCODE (R135, R137, R139): what each leaves in RS_RAM and the registers. -/

namespace Sys2Proof.ReedSolomon

open Sys2Proof.Machine hiding Field

/-! ## Runs of bytes -/

theorem readBytes_congr {m m' : Memory} {a n : Nat} (h : ∀ i < n, m'.read (a + i) = m.read (a + i)) :
    m'.readBytes a n = m.readBytes a n := List.map_congr_left fun i hi => h i (List.mem_range.1 hi)

theorem readBytes_add (m : Memory) (a j k : Nat) : m.readBytes a (j + k) = m.readBytes a j ++ m.readBytes (a + j) k := by
  simp [Memory.readBytes, List.range_add, Nat.add_assoc]

theorem readBytes_writeBytes_of_length (m : Memory) (a : Nat) {bs : List Byte} {n : Nat} (hlen : bs.length = n) :
    (m.writeBytes a bs).readBytes a n = bs := hlen ▸ Memory.readBytes_writeBytes m a bs

/-- Writing back what is read changes no byte. -/
theorem read_writeBytes_readBytes (m : Memory) (a n b : Nat) : (m.writeBytes a (m.readBytes a n)).read b = m.read b := by
  rw [Memory.read_writeBytes, Memory.readBytes_length]
  split
  case isTrue hb => rw [Memory.readBytes_getD _ _ _ _ (by omega), Nat.add_sub_cancel' hb.1]
  case isFalse => rfl

variable {s t : State} {n nec : BitVec 8}

/-! ## RS_DECODE, R135 -/

theorem exec_rsDecode_ok (hr : s.ready = true) (hb : blockOk n nec = true) {c : List Byte} {nu : Nat}
    (hc : rsdecode (s.mem.readBytes rsRam n.toNat) nec.toNat = .ok c nu) : exec (.rsDecode n nec) s
      = .next ({ s with mem := s.mem.writeBytes rsRam c, errCnt := BitVec.ofNat 16 nu }.complete .ok) := by
  simp only [exec, execRsDecode, State.whenReady_ready _ hr, hb, State.whenParam_true, hc]

theorem exec_rsDecode_fail (hr : s.ready = true) (hb : blockOk n nec = true) {code : ErrorCode}
    (hc : rsdecode (s.mem.readBytes rsRam n.toNat) nec.toNat = .fail code) : exec (.rsDecode n nec) s
      = .next ({ s with errCnt := 0 }.complete code) := by
  simp only [exec, execRsDecode, State.whenReady_ready _ hr, hb, State.whenParam_true, hc]

/-- Settles O28: the two results of rsdecode, and the check of N and NEC. -/
theorem rsDecodeCommand : Obligations.RsDecodeCommand := by
  intro s n nec hr
  refine ⟨fun hb c nu hc => ?_, fun hb code hc => ?_, fun hb => completes_param rfl hr hb⟩
  · have hlen : c.length = n.toNat := (rsdecode_ok_length hc).trans (Memory.readBytes_length ..)
    exact ⟨_, exec_rsDecode_ok hr hb hc, completed_complete .., rfl, readBytes_writeBytes_of_length _ _ hlen,
      rsDecode_stores hc rfl, rfl⟩
  · exact ⟨_, exec_rsDecode_fail hr hb hc, completed_complete .., rfl, rfl⟩

/-! ## RS_ENCODE, R137 -/

/-- R137: the state RS_ENCODE answers. -/
def rsEncoded (s : State) (n nec : BitVec 8) : State :=
  { s with
    mem := s.mem.writeBytes (rsRam + (n.toNat - nec.toNat))
      (rsEncodeBlock (s.mem.readBytes rsRam (n.toNat - nec.toNat)) nec.toNat)
    errCnt := 0 }.complete .ok

theorem exec_rsEncode (hr : s.ready = true) (hb : blockOk n nec = true) : exec (.rsEncode n nec) s = .next (rsEncoded s n nec) := by
  simp only [exec, execRsEncode, State.whenReady_ready _ hr, hb, State.whenParam_true, rsEncoded]

/-- R137: the block in RS_RAM is the data codewords as they were and behind them their EC codewords. -/
theorem rsEncoded_block (hb : blockOk n nec = true) {data : List Byte}
    (hdata : s.mem.readBytes rsRam (n.toNat - nec.toNat) = data) :
    (rsEncoded s n nec).mem.readBytes rsRam n.toNat = data ++ rsEncodeBlock data nec.toNat := by
  have hle := ((blockOk_iff n nec).1 hb).2
  subst hdata
  conv_lhs => rw [← Nat.sub_add_cancel hle, readBytes_add]
  refine congrArg₂ _ (readBytes_congr fun i hi => Memory.read_writeBytes_other _ (.inl (by omega))) ?_
  exact readBytes_writeBytes_of_length _ _ (rsEncodeBlock_length ..)

/-- R137: with no data codewords the EC codewords are 0. -/
theorem rsEncoded_no_data (hb : blockOk n nec = true) (hn : n = nec) {p : Nat} (hp : p < n.toNat) :
    (rsEncoded s n nec).mem.read (rsRam + p) = 0 := by
  have hdata : s.mem.readBytes rsRam (n.toNat - nec.toNat) = [] := by rw [hn, Nat.sub_self]; rfl
  rw [← Memory.readBytes_getD _ _ _ _ hp, rsEncoded_block hb hdata]
  simp [rsEncodeBlock]

/-- Settles O32: the encoded block is a codeword. -/
theorem rsEncodeMakesCodeword : Obligations.RsEncodeMakesCodeword := by
  intro s n nec hr
  refine ⟨fun hb => ?_, fun hb => completes_param rfl hr hb⟩
  have hcodeword : Codeword ((rsEncoded s n nec).mem.readBytes rsRam n.toNat) nec.toNat := by
    rw [rsEncoded_block hb rfl]
    exact codeword_rsEncodeBlock _ _
  exact ⟨_, exec_rsEncode hr hb, completed_complete .., rfl, hcodeword, rsdecode_codeword hcodeword,
    fun hn p hp => rsEncoded_no_data hb hn hp, rsEncode_stores rfl, rfl⟩

/-- Settles O33: RS_DECODE finds a codeword and writes it back. -/
theorem encodeThenDecode : Obligations.EncodeThenDecode := by
  intro s t n nec hr hb ht
  obtain ⟨hencode, -⟩ := rsEncodeMakesCodeword s n nec hr
  obtain ⟨t', ht', -, -, -, hdecode, -, -, hframe⟩ := hencode hb
  obtain rfl : t' = t := Host.Outcome.next.inj (ht'.symm.trans ht)
  have hready : t'.ready = true := by rw [hframe]; exact hr
  exact ⟨_, exec_rsDecode_ok hready hb hdecode, completed_complete .., rfl, fun a _ => read_writeBytes_readBytes ..⟩

end Sys2Proof.ReedSolomon
end

section
/-! SUPPORT. RS_FILL (R138): the filler finds the codeword that agrees with the block outside the erased positions where there is
one, and with as many erased positions as EC codewords there always is one. -/

namespace Sys2Proof.ReedSolomon

open Polynomial
open Sys2Proof.Machine hiding Field

variable {K : Type} [Field K] {φ : Byte → K} {c d : List Byte} {m : Nat} {ps : List Nat}

/-! ## Setting positions -/

theorem setAt_length (c : List Byte) (es : List (Nat × Byte)) : (setAt c es).length = c.length := by
  induction es generalizing c with
  | nil => rfl
  | cons e es ih => rw [setAt, ih, List.length_set]

theorem getD_setAt_other {c : List Byte} {es : List (Nat × Byte)} {k : Nat} (hk : k ∉ es.map Prod.fst) :
    (setAt c es).getD k 0 = c.getD k 0 := by
  induction es generalizing c with
  | nil => rfl
  | cons e es ih =>
    rw [List.map_cons, List.mem_cons, not_or] at hk
    rw [setAt, ih hk.2, getD_set_ne c _ hk.1]

theorem getD_setAt_map (v : Nat → Byte) {c : List Byte} {ps : List Nat} (hlt : ∀ p ∈ ps, p < c.length) (k : Nat) :
    (setAt c (ps.map fun p => (p, v p))).getD k 0 = if k ∈ ps then v k else c.getD k 0 := by
  induction ps generalizing c with
  | nil => rfl
  | cons p ps ih =>
    obtain ⟨hplt, hpslt⟩ := List.forall_mem_cons.1 hlt
    rw [List.map_cons, setAt, ih (by simpa using hpslt), getD_set _ _ _ hplt]
    by_cases hk : k = p
    · subst hk
      simp
    · simp [hk]

/-! ## The filler, R138 -/

theorem toPoly_erasureLocator (h : ByteField φ) (n : Nat) (hnodup : ps.Nodup) :
    toPoly φ (erasureLocator (ps.map (locationAt n))) = locator ps.toFinset (fieldLocation φ n) := by
  have := h.charP
  rw [locator, List.prod_toFinset _ hnodup]
  clear hnodup
  induction ps with
  | nil => exact toPoly_one h
  | cons p ps ih =>
    rw [List.map_cons, erasureLocator, toPoly_mul h, ih, List.map_cons, List.prod_cons, toPoly_cons, toPoly_cons, toPoly_nil, h.one,
      C_1, CharTwo.sub_eq_add, fieldLocation]
    ring

theorem coeff_toPoly_take (h : ByteField φ) (p : Poly) (m i : Nat) :
    (toPoly φ (p.take m)).coeff i = if i < m then (toPoly φ p).coeff i else 0 := by
  rw [coeff_toPoly h, coeff_toPoly h, Poly.coeff, Poly.coeff, List.getD_eq_getElem?_getD, List.getElem?_take]
  split
  · rw [← List.getD_eq_getElem?_getD]
  · exact h.zero

/-- The key equation gives the evaluator: it is the product of syndromes and locator below `X^m`. -/
theorem NearCodeword.toPoly_evaluator {s : Finset Nat} (near : NearCodeword c d m s) (h : ByteField φ) (hcard : s.card ≤ m)
    {l : Poly} (hl : toPoly φ l = locator s (fieldLocation φ c.length)) :
    toPoly φ ((Poly.mul (syndromes c m) l).take m) = evaluator s (fieldLocation φ c.length) (fieldError φ c d) := by
  ext i
  rw [coeff_toPoly_take h]
  split
  case isTrue hi =>
    have hkey := X_pow_dvd_iff.1 (X_pow_dvd_key s (fieldLocation φ c.length) (fieldError φ c d) m) i hi
    rw [coeff_sub, sub_eq_zero, ← near.toPoly_syndromes h, ← hl, mul_comm] at hkey
    rw [toPoly_mul h, hkey]
  case isFalse hi =>
    have hdeg := degree_evaluator_lt (v := fieldError φ c d) fun k (_ : k ∈ s) => h.fieldLocation_ne_zero c.length k
    exact (coeff_eq_zero_of_degree_lt (hdeg.trans_le (Nat.cast_le.2 (by omega)))).symm

theorem fillErasures_length (c : List Byte) (ps : List Nat) : (fillErasures c ps).length = c.length := by
  rw [fillErasures, setAt_length, setAt_length]

/-- R138: the filler sets no other position. -/
theorem getD_fillErasures_other {k : Nat} (hk : k ∉ ps) : (fillErasures c ps).getD k 0 = c.getD k 0 := by
  have hzip : ∀ vs : List Byte, k ∉ (ps.zip vs).map Prod.fst := fun vs hmem => by
    obtain ⟨⟨p, v⟩, hpv, rfl⟩ := List.mem_map.1 hmem
    exact hk (List.of_mem_zip hpv).1
  rw [fillErasures, getD_setAt_other (hzip _), getD_setAt_other]
  simpa using hk

/-- R138: the codeword that agrees with the block outside the erased positions is what the filler gives. -/
theorem fillErasures_eq (hnodup : ps.Nodup) (hlt : ∀ p ∈ ps, p < c.length) (hbound : c.length ≤ 255) (hlen : d.length = c.length)
    (hd : Codeword d ps.length) (hsame : ∀ k ∉ ps, c.getD k 0 = d.getD k 0) : fillErasures c ps = d := by
  obtain ⟨K, _, φ, h⟩ := exists_byteField
  obtain ⟨c0, hc0⟩ : ∃ c0, c0 = setAt c (ps.map fun p => (p, 0)) := ⟨_, rfl⟩
  have hc0len : c0.length = c.length := by rw [hc0, setAt_length]
  have hget : ∀ k, c0.getD k 0 = if k ∈ ps then 0 else c.getD k 0 := hc0 ▸ getD_setAt_map (fun _ => 0) hlt
  have near : NearCodeword c0 d ps.length ps.toFinset :=
    { codeword := hd
      length := hlen.trans hc0len.symm
      bound := hc0len ▸ hbound
      within := fun k hk => hc0len ▸ hlt k (List.mem_toFinset.1 hk)
      same := fun k hk => by rw [hget, if_neg (mt List.mem_toFinset.2 hk), hsame k (mt List.mem_toFinset.2 hk)] }
  have homega := near.toPoly_evaluator h (List.toFinset_card_le ps) (toPoly_erasureLocator h c0.length hnodup)
  have hmagnitudes := near.forneyAll_eq (before := []) h homega hnodup rfl
  have hfill : fillErasures c ps = setAt c0 (ps.map fun p => (p, errorAt c0 d p)) := by
    rw [List.map_prod_left_eq_zip, ← hmagnitudes, hc0len, hc0]
    simp only [fillErasures, List.length_map]
    rfl
  refine ext_getD (by rw [fillErasures_length, hlen]) fun k => ?_
  rw [hfill, getD_setAt_map _ fun p hp => hc0len ▸ hlt p hp]
  split
  case isTrue hk => rw [errorAt, hget, if_pos hk, byte_zero_xor]
  case isFalse hk => rw [hget, if_neg hk, hsame k hk]

/-! ## As many erased positions as EC codewords, R138 -/

/-- Power sums at distinct points take any values, as the interpolation of a power of `X` is that power. -/
theorem exists_power_sums {s : Finset Nat} {x : Nat → K} (hinj : Set.InjOn x s) (b : Nat → K) :
    ∃ v : Nat → K, ∀ j < s.card, ∑ k ∈ s, v k * x k ^ j = b j := by
  refine ⟨fun k => ∑ i ∈ Finset.range s.card, (Lagrange.basis s x k).coeff i * b i, fun j hj => ?_⟩
  have hinterpolate : (X ^ j : K[X]) = ∑ k ∈ s, C (x k ^ j) * Lagrange.basis s x k := by
    have hdeg : (X ^ j : K[X]).degree < s.card := by rwa [degree_X_pow, Nat.cast_lt]
    refine (Lagrange.eq_interpolate hinj hdeg).trans ?_
    rw [Lagrange.interpolate_apply]
    exact Finset.sum_congr rfl fun k _ => by rw [eval_pow, eval_X]
  calc ∑ k ∈ s, (∑ i ∈ Finset.range s.card, (Lagrange.basis s x k).coeff i * b i) * x k ^ j
    _ = ∑ i ∈ Finset.range s.card, (X ^ j : K[X]).coeff i * b i := by
      simp only [hinterpolate, finsetSum_coeff, coeff_C_mul, Finset.sum_mul]
      rw [Finset.sum_comm]
      exact Finset.sum_congr rfl fun i _ => Finset.sum_congr rfl fun k _ => by ring
    _ = b j := by simp [coeff_X_pow, hj]

/-- R138: a codeword that agrees with the block outside the erased positions. -/
theorem exists_codeword_fill (hnodup : ps.Nodup) (hlt : ∀ p ∈ ps, p < c.length) (hbound : c.length ≤ 255) :
    ∃ d : List Byte, d.length = c.length ∧ Codeword d ps.length ∧ ∀ k ∉ ps, d.getD k 0 = c.getD k 0 := by
  obtain ⟨K, _, φ, h⟩ := exists_byteField
  have := h.charP
  have hinj : Set.InjOn (fieldLocation φ c.length) ps.toFinset := fun p hp q hq hpq =>
    locationAt_inj hbound (hlt p (List.mem_toFinset.1 hp)) (hlt q (List.mem_toFinset.1 hq)) (h.bijective.injective hpq)
  obtain ⟨v, hv⟩ := exists_power_sums hinj fun j => φ ((codewordPoly c).eval (gfExp j))
  obtain ⟨e, he⟩ : ∃ e : Nat → Byte, ∀ k, φ (e k) = v k := ⟨_, fun k => Function.surjInv_eq h.bijective.surjective (v k)⟩
  have hget := getD_xorAt_map e hnodup hlt
  refine ⟨xorAt c (ps.map fun p => (p, e p)), xorAt_length .., fun j hj => ?_, fun k hk => by rw [hget, if_neg hk]⟩
  rw [← List.toFinset_card_of_nodup hnodup] at hj
  have hvalue : ∀ k, φ ((xorAt c (ps.map fun p => (p, e p))).getD k 0) = φ (c.getD k 0) + if k ∈ ps.toFinset then v k else 0 := by
    intro k
    simp only [hget, List.mem_toFinset]
    split_ifs
    · rw [h.xor, he]
    · rw [add_zero]
  have hsub : ps.toFinset ⊆ Finset.range c.length := fun k hk => Finset.mem_range.2 (hlt k (List.mem_toFinset.1 hk))
  rw [← h.eq_zero_iff, eval_codewordPoly h, xorAt_length]
  simp only [hvalue, add_mul, Finset.sum_add_distrib, ite_mul, zero_mul, Finset.sum_ite_mem, Finset.inter_eq_right.2 hsub]
  rw [hv j hj, ← eval_codewordPoly h, CharTwo.add_self_eq_zero]

/-! ## The command, R138 -/

variable {s : State} {n nec : BitVec 8}

theorem mem_erasedPositions {k p : Nat} : p ∈ s.erasedPositions k ↔ s.inErased k p := by
  rw [State.erasedPositions, List.mem_filter, List.mem_range, State.inErased]

theorem erasedPositions_nodup (s : State) (k : Nat) : (s.erasedPositions k).Nodup := List.nodup_range.filter _

theorem exec_rsFill_count (hr : s.ready = true) (hb : blockOk n nec = true)
    (hcount : nec.toNat < (s.erasedPositions n.toNat).length) :
    exec (.rsFill n nec) s = .next ({ s with errCnt := 0 }.complete .rsErasureCount) := by
  simp only [exec, execRsFill, State.whenReady_ready _ hr, hb, State.whenParam_true, gt_iff_lt, if_pos hcount]

theorem exec_rsFill_some (hr : s.ready = true) (hb : blockOk n nec = true)
    (hcount : (s.erasedPositions n.toNat).length ≤ nec.toNat) {d : List Byte}
    (hd : rsFillBlock (s.mem.readBytes rsRam n.toNat) nec.toNat (s.erasedPositions n.toNat) = some d) :
    exec (.rsFill n nec) s = .next ({ s with
      mem := s.mem.scatter rsRam ((s.erasedPositions n.toNat).map fun p => (p, d.getD p 0))
      errCnt := BitVec.ofNat 16 (s.erasedPositions n.toNat).length }.complete .ok) := by
  simp only [exec, execRsFill, State.whenReady_ready _ hr, hb, State.whenParam_true, gt_iff_lt, if_neg (not_lt.2 hcount), hd]

theorem exec_rsFill_none (hr : s.ready = true) (hb : blockOk n nec = true)
    (hcount : (s.erasedPositions n.toNat).length ≤ nec.toNat)
    (hnone : rsFillBlock (s.mem.readBytes rsRam n.toNat) nec.toNat (s.erasedPositions n.toNat) = none) :
    exec (.rsFill n nec) s = .next ({ s with errCnt := 0 }.complete .rsInconsistent) := by
  simp only [exec, execRsFill, State.whenReady_ready _ hr, hb, State.whenParam_true, gt_iff_lt, if_neg (not_lt.2 hcount), hnone]

/-- R138: the fill that zeroes every syndrome is the one the filler gives. -/
theorem rsFillBlock_eq_some (hcount : (s.erasedPositions n.toNat).length ≤ nec.toNat) {d : List Byte}
    (hd : FillOf s n.toNat nec.toNat d) :
    rsFillBlock (s.mem.readBytes rsRam n.toNat) nec.toNat (s.erasedPositions n.toNat) = some d := by
  have hn := n.isLt
  have hfill : fillErasures (s.mem.readBytes rsRam n.toNat) (s.erasedPositions n.toNat) = d := by
    refine fillErasures_eq (erasedPositions_nodup s _) (fun p hp => ?_) (by rw [Memory.readBytes_length]; omega)
      (by rw [hd.length, Memory.readBytes_length]) (fun j hj => hd.codeword j (hj.trans_le hcount)) fun k hk => ?_
    · rw [Memory.readBytes_length]
      exact (mem_erasedPositions.1 hp).1
    · by_cases hlt : k < n.toNat
      · rw [Memory.readBytes_getD _ _ _ _ hlt, hd.kept k hlt (mt mem_erasedPositions.2 hk)]
      · rw [List.getD_eq_default _ _ (by rw [Memory.readBytes_length]; omega), List.getD_eq_default _ _ (by rw [hd.length]; omega)]
  simp only [rsFillBlock, hfill, (syndromes_all_zero_iff d nec.toNat).2 hd.codeword, if_true]

/-- R138: what the filler gives is a fill that zeroes every syndrome. -/
theorem fillOf_rsFillBlock {d : List Byte}
    (hd : rsFillBlock (s.mem.readBytes rsRam n.toNat) nec.toNat (s.erasedPositions n.toNat) = some d) :
    FillOf s n.toNat nec.toNat d := by
  simp only [rsFillBlock] at hd
  split at hd
  case isTrue hzero =>
    cases hd
    exact
      { length := by rw [fillErasures_length, Memory.readBytes_length]
        kept := fun p hp hnot => by
          rw [getD_fillErasures_other (mt mem_erasedPositions.1 hnot), Memory.readBytes_getD _ _ _ _ hp]
        codeword := (syndromes_all_zero_iff ..).1 hzero }
  case isFalse => cases hd

/-- R138: storing the erased positions of the fill makes RS_RAM the fill. -/
theorem readBytes_scatter_fill {d : List Byte} (hd : FillOf s n.toNat nec.toNat d) :
    (s.mem.scatter rsRam ((s.erasedPositions n.toNat).map fun p => (p, d.getD p 0))).readBytes rsRam n.toNat = d := by
  refine List.ext_getElem (by rw [Memory.readBytes_length, hd.length]) fun p hp hpd => ?_
  rw [Memory.readBytes_length] at hp
  rw [Memory.readBytes_getElem, ← List.getD_eq_getElem d 0 hpd]
  by_cases hmem : p ∈ s.erasedPositions n.toNat
  · refine Memory.read_scatter_mem _ _ _ _ _ ?_ (List.mem_map.2 ⟨p, hmem, rfl⟩)
    rw [List.map_map]
    exact (List.map_id _).symm ▸ erasedPositions_nodup s _
  · rw [hd.kept p hp (mt mem_erasedPositions.2 hmem)]
    refine Memory.read_scatter_other _ _ _ _ fun x hx hpx => hmem ?_
    obtain ⟨q, hq, rfl⟩ := List.mem_map.1 hx
    exact Nat.add_left_cancel hpx ▸ hq

/-- Settles O34. -/
theorem rsFillSolves : Obligations.RsFillSolves := by
  intro s n nec d hr hb hcount hd
  exact ⟨_, exec_rsFill_some hr hb hcount (rsFillBlock_eq_some hcount hd), completed_complete .., readBytes_scatter_fill hd, rfl,
    rsFill_stores rfl, rfl⟩

/-- Settles O35: the count of erased positions, and that the filler gives fills only. -/
theorem rsFillFails : Obligations.RsFillFails := by
  intro s n nec hr hb
  refine ⟨fun hcount => ⟨_, exec_rsFill_count hr hb hcount, completed_complete .., rfl, rfl⟩, fun hcount hno => ?_⟩
  have hnone : rsFillBlock (s.mem.readBytes rsRam n.toNat) nec.toNat (s.erasedPositions n.toNat) = none :=
    Option.eq_none_iff_forall_not_mem.2 fun d hd => hno d (fillOf_rsFillBlock hd)
  exact ⟨_, exec_rsFill_none hr hb hcount hnone, completed_complete .., rfl, rfl⟩

/-- Settles O36: the fill exists, so RS_FILL stores it. -/
theorem rsFillFullRank : Obligations.RsFillFullRank := by
  intro s n nec hr hb hcount
  have hn := n.isLt
  obtain ⟨d, hlen, hcode, hsame⟩ := exists_codeword_fill (c := s.mem.readBytes rsRam n.toNat) (erasedPositions_nodup s n.toNat)
    (fun p hp => by rw [Memory.readBytes_length]; exact (mem_erasedPositions.1 hp).1) (by rw [Memory.readBytes_length]; omega)
  have hd : FillOf s n.toNat nec.toNat d :=
    { length := by rw [hlen, Memory.readBytes_length]
      kept := fun p hp hnot => by rw [hsame p (mt mem_erasedPositions.1 hnot), Memory.readBytes_getD _ _ _ _ hp]
      codeword := hcount ▸ hcode }
  obtain ⟨t, ht, hok, hblock, -⟩ := rsFillSolves s n nec d hr hb hcount.le hd
  exact ⟨t, ht, hok, hblock ▸ hd.codeword⟩

end Sys2Proof.ReedSolomon
end

section
/-! SUPPORT. RS_DECODE_ALL (R136): the memory after the first blocks are corrected, the first loop as far as those blocks, and the
stream the second loop gathers. -/

namespace Sys2Proof.ReedSolomon

open Sys2Proof.Machine hiding Field

variable {s : State} {e : EcEntry} {m : Memory} {k : Nat}

/-! ## The blocks one after another, R119 -/

theorem startOf_succ {b : Nat} (hb : b < e.blocks.length) : startOf e (b + 1) = startOf e b + (ndataOf e b + e.ecPerBlock) := by
  rw [startOf, startOf, ndataOf, List.take_add_one, List.getElem?_eq_getElem hb, List.getD_eq_getElem _ _ hb]
  simp only [Option.toList_some, List.map_append, List.map_cons, List.map_nil, List.sum_append, List.sum_singleton]

theorem startOf_mono {b : Nat} (hbk : b ≤ k) (hk : k ≤ e.blocks.length) : startOf e b ≤ startOf e k := by
  induction k, hbk using Nat.le_induction with
  | base => exact le_rfl
  | succ k _ ih =>
    rw [startOf_succ hk]
    exact (ih (by omega)).trans (Nat.le_add_right ..)

/-! ## The corrected blocks, R136 -/

/-- R136: the memory `m` with the first `k` blocks corrected. -/
def correctedMem (s : State) (e : EcEntry) (m : Memory) : Nat → Memory
  | 0 => m
  | k + 1 =>
    match s.decodedBlock e k with
    | .ok c _ => (correctedMem s e m k).writeBytes (blkRam + startOf e k) c
    | .fail _ => correctedMem s e m k

theorem correctedMem_succ {c : List Byte} {nu : Nat} (hc : s.decodedBlock e k = .ok c nu) :
    correctedMem s e m (k + 1) = (correctedMem s e m k).writeBytes (blkRam + startOf e k) c := by rw [correctedMem, hc]

theorem decodedBlock_length {b : Nat} {c : List Byte} {nu : Nat} (hc : s.decodedBlock e b = .ok c nu) :
    c.length = ndataOf e b + e.ecPerBlock := (rsdecode_ok_length hc).trans (Memory.readBytes_length ..)

section
variable (hk : k ≤ e.blocks.length) (hok : ∀ b < k, ∃ c nu, s.decodedBlock e b = .ok c nu)
include hk hok

/-- R136: correcting the first `k` blocks writes before block `k` only. -/
theorem correctedMem_read_other {a : Nat} (ha : ¬ Within blkRam (startOf e k) a) : (correctedMem s e m k).read a = m.read a := by
  induction k with
  | zero => rfl
  | succ k ih =>
    obtain ⟨c, nu, hc⟩ := hok k (Nat.lt_succ_self k)
    have hlen := decodedBlock_length hc
    rw [startOf_succ hk] at ha
    unfold Within at ha
    rw [correctedMem_succ hc, Memory.read_writeBytes_other _ (by omega)]
    exact ih (by omega) (fun b hb => hok b (by omega)) fun hin => ha ⟨hin.1, hin.2.trans_le (by omega)⟩

/-- R136: each of the first `k` blocks holds its corrected codewords. -/
theorem correctedMem_readBytes {b : Nat} (hb : b < k) {c : List Byte} {nu : Nat} (hc : s.decodedBlock e b = .ok c nu) :
    (correctedMem s e m k).readBytes (blkRam + startOf e b) (ndataOf e b + e.ecPerBlock) = c := by
  induction k with
  | zero => omega
  | succ k ih =>
    obtain ⟨c', nu', hc'⟩ := hok k (Nat.lt_succ_self k)
    rw [correctedMem_succ hc']
    rcases Nat.lt_succ_iff_lt_or_eq.1 hb with hlt | rfl
    · have hmono := startOf_mono (e := e) (b := b + 1) hlt (by omega)
      rw [startOf_succ (by omega)] at hmono
      refine (readBytes_congr fun i hi => Memory.read_writeBytes_other _ (.inl (by omega))).trans ?_
      exact ih (by omega) (fun b hb => hok b (by omega)) hlt
    · obtain ⟨rfl, -⟩ := RsResult.ok.inj (hc'.symm.trans hc)
      exact readBytes_writeBytes_of_length _ _ (decodedBlock_length hc)

variable (hm : ∀ a, Within blkRam e.total a → m.read a = s.mem.read a)
include hm

/-- R136: block `k` is still as the command found it. -/
theorem rsdecode_correctedMem (hlt : k < e.blocks.length) :
    rsdecode ((correctedMem s e m k).readBytes (blkRam + startOf e k) (ndataOf e k + e.ecPerBlock)) e.ecPerBlock
      = s.decodedBlock e k := by
  have hend := startOf_add_le hlt
  rw [State.decodedBlock, readBytes_congr fun i hi => ?_]
  rw [correctedMem_read_other hk hok fun hin => ?_, hm _ ⟨by omega, by omega⟩]
  exact absurd hin.2 (by omega)

end

theorem blockList_drop (hk : k < e.blocks.length) : (blockList e).drop k
    = ⟨startOf e k, ndataOf e k, ndataOf e k + e.ecPerBlock⟩ :: (blockList e).drop (k + 1) := by
  obtain ⟨hlt, hblk⟩ := List.getElem?_eq_some_iff.1 (blockList_getElem? hk)
  rw [List.drop_eq_getElem_cons hlt, hblk]

theorem nuSum_succ {c : List Byte} {nu : Nat} (hc : s.decodedBlock e k = .ok c nu) : s.nuSum e (k + 1) = s.nuSum e k + nu := by
  rw [State.nuSum, State.nuSum, List.range_succ, List.map_append, List.sum_append, List.map_singleton, List.sum_singleton, hc]
  rfl

/-- R136: the first loop through blocks that decode. -/
theorem decodeBlocks_eq (hk : k ≤ e.blocks.length) (hok : ∀ b < k, ∃ c nu, s.decodedBlock e b = .ok c nu)
    (hm : ∀ a, Within blkRam e.total a → m.read a = s.mem.read a) : decodeBlocks e.ecPerBlock m 0 0 (blockList e)
      = decodeBlocks e.ecPerBlock (correctedMem s e m k) k (s.nuSum e k) ((blockList e).drop k) := by
  induction k with
  | zero => rfl
  | succ k ih =>
    have hok' : ∀ b < k, ∃ c nu, s.decodedBlock e b = .ok c nu := fun b hb => hok b (by omega)
    obtain ⟨c, nu, hc⟩ := hok k (Nat.lt_succ_self k)
    have hblock := rsdecode_correctedMem (Nat.le_of_succ_le hk) hok' hm hk
    rw [ih (Nat.le_of_succ_le hk) hok', blockList_drop hk, decodeBlocks]
    simp only [hblock, hc]
    rw [nuSum_succ hc, correctedMem_succ hc]

theorem decodeBlocks_ok (hok : ∀ b < e.blocks.length, ∃ c nu, s.decodedBlock e b = .ok c nu)
    (hm : ∀ a, Within blkRam e.total a → m.read a = s.mem.read a) : decodeBlocks e.ecPerBlock m 0 0 (blockList e)
      = ⟨correctedMem s e m e.blocks.length, s.nuSum e e.blocks.length, none⟩ := by
  rw [decodeBlocks_eq le_rfl hok hm, List.drop_eq_nil_of_le (blockList_length e).le, decodeBlocks]

theorem decodeBlocks_fail (hk : k < e.blocks.length) (hok : ∀ b < k, ∃ c nu, s.decodedBlock e b = .ok c nu) {code : ErrorCode}
    (hfail : s.decodedBlock e k = .fail code) (hm : ∀ a, Within blkRam e.total a → m.read a = s.mem.read a) :
    decodeBlocks e.ecPerBlock m 0 0 (blockList e) = ⟨correctedMem s e m k, s.nuSum e k, some (k, code)⟩ := by
  have hblock := rsdecode_correctedMem hk.le hok hm hk
  rw [decodeBlocks_eq hk.le hok hm, blockList_drop hk, decodeBlocks]
  simp only [hblock, hfail]

/-! ## The gathered stream, R136 -/

/-- R9: reading back the middle of a run that was written. -/
theorem readBytes_writeBytes_middle (m : Memory) (a : Nat) (pre mid post : List Byte) :
    (m.writeBytes a (pre ++ mid ++ post)).readBytes (a + pre.length) mid.length = mid := by
  have hall := Memory.readBytes_writeBytes m a (pre ++ mid ++ post)
  rw [List.length_append, List.length_append, readBytes_add, readBytes_add] at hall
  have hpair := (List.append_inj hall (by simp)).1
  exact (List.append_inj hpair (by simp)).2

/-- R136: the data codewords of block `b` stand behind those of the earlier blocks. -/
theorem readBytes_gatherData (m m' : Memory) {b : Nat} (hb : b < e.blocks.length) :
    (m'.writeBytes dataRam (gatherData m (blockList e))).readBytes (dataRam + (e.blocks.take b).sum) (ndataOf e b)
      = m.readBytes (blkRam + startOf e b) (ndataOf e b) := by
  have hsplit : gatherData m (blockList e) = gatherData m ((blockList e).take b)
      ++ m.readBytes (blkRam + startOf e b) (ndataOf e b) ++ gatherData m ((blockList e).drop (b + 1)) := by
    conv_lhs => rw [← List.take_append_drop b (blockList e), blockList_drop hb]
    simp only [gatherData, List.flatMap_append, List.flatMap_cons, List.append_assoc]
  have hpre : (gatherData m ((blockList e).take b)).length = (e.blocks.take b).sum := by
    rw [← blockList_map_ndata e, ← List.map_take, gatherData, List.length_flatMap]
    simp only [Memory.readBytes_length]
  have hmiddle := readBytes_writeBytes_middle m' dataRam (gatherData m ((blockList e).take b))
    (m.readBytes (blkRam + startOf e b) (ndataOf e b)) (gatherData m ((blockList e).drop (b + 1)))
  rwa [← hsplit, hpre, Memory.readBytes_length] at hmiddle

theorem readBytes_take (m : Memory) (a i j : Nat) : (m.readBytes a (i + j)).take i = m.readBytes a i := by
  rw [readBytes_add, List.take_left' (Memory.readBytes_length ..)]

/-! ## The command, R136 -/

/-- R121: the descriptors are written outside the blocks. -/
theorem writeDescriptors_read_blkRam (s : State) (he : e.ok = true) {a : Nat} (ha : Within blkRam e.total a) :
    (s.writeDescriptors e).mem.read a = s.mem.read a := by
  have htotal := (EcEntry.ok_bounds he).2.1
  refine s.writeDescriptors_stores he a fun hin => ?_
  unfold Within blkRam at ha
  unfold Within blkDesc at hin
  omega

/-- R136: every block decodes. -/
theorem rsDecodeAllStage_ok (he : e.ok = true) (hok : ∀ b < e.blocks.length, ∃ c nu, s.decodedBlock e b = .ok c nu) {m : Memory}
    (hm : m = correctedMem s e (s.writeDescriptors e).mem e.blocks.length) : s.rsDecodeAllStage e = ({ s.writeDescriptors e with
      mem := m.writeBytes dataRam (gatherData m (blockList e))
      dlen := BitVec.ofNat 13 e.blocks.sum
      errCnt := BitVec.ofNat 16 (s.nuSum e e.blocks.length)
      failBlk := 0xFF }, .ok) := by
  have hall := decodeBlocks_ok hok fun a ha => writeDescriptors_read_blkRam s he ha
  obtain ⟨b, code, hfailed, -⟩ | ⟨-, hd⟩ := s.rsDecodeAllStage_cases e hall.symm
  · cases hfailed
  · rw [hd, gatherData_length, hm]

/-- R136: block `k` is the first that fails. -/
theorem rsDecodeAllStage_fail (he : e.ok = true) (hk : k < e.blocks.length)
    (hok : ∀ b < k, ∃ c nu, s.decodedBlock e b = .ok c nu) {code : ErrorCode} (hfail : s.decodedBlock e k = .fail code) :
    s.rsDecodeAllStage e = ({ s.writeDescriptors e with
      mem := correctedMem s e (s.writeDescriptors e).mem k
      errCnt := BitVec.ofNat 16 (s.nuSum e k)
      failBlk := BitVec.ofNat 8 k }, code) := by
  have hall := decodeBlocks_fail hk hok hfail fun a ha => writeDescriptors_read_blkRam s he ha
  obtain ⟨b, code', hfailed, hd⟩ | ⟨hfailed, -⟩ := s.rsDecodeAllStage_cases e hall.symm
  · cases hfailed
    exact hd
  · cases hfailed

/-- Settles O37: the corrected blocks, and the stream gathered from them into DATA_RAM. -/
theorem rsDecodeAllSucceeds : Obligations.RsDecodeAllSucceeds := by
  intro s ver ecl e hr hv hentry hok
  have he := ok_of_entry hentry
  obtain ⟨-, htotal, hdata⟩ := EcEntry.ok_bounds he
  obtain ⟨m, hm⟩ : ∃ m, m = correctedMem s e (s.writeDescriptors e).mem e.blocks.length := ⟨_, rfl⟩
  have hstage := rsDecodeAllStage_ok he hok hm
  have hexec := exec_rsDecodeAll hr hv hentry
  have hdesc := (s.rsDecodeAllStage_descriptorsOf he).complete .ok
  have hstores := s.rsDecodeAllStage_stores he
  rw [hstage] at hexec hdesc hstores
  refine ⟨_, hexec, completed_complete .., hdesc, fun b hb c nu hc => ?_, ?_, rfl, rfl, hstores, rfl⟩
  · have hblock : m.readBytes (blkRam + startOf e b) (ndataOf e b + e.ecPerBlock) = c :=
      hm ▸ correctedMem_readBytes le_rfl hok hb hc
    have hend := startOf_add_le hb
    refine ⟨(readBytes_congr fun i hi => Memory.read_writeBytes_other _ (.inl ?_)).trans hblock, ?_⟩
    · unfold blkRam dataRam
      omega
    · refine (readBytes_gatherData m m hb).trans ?_
      rw [← hblock, readBytes_take]
  · exact (BitVec.toNat_ofNat ..).trans (Nat.mod_eq_of_lt (by omega))

/-- Settles O38: the blocks before the failing one are corrected, and nothing is gathered. -/
theorem rsDecodeAllFails : Obligations.RsDecodeAllFails := by
  intro s ver ecl e k code hr hv hentry hk hok hfail
  have he := ok_of_entry hentry
  have hblocks := (EcEntry.ok_bounds he).1
  have hstage := rsDecodeAllStage_fail he hk hok hfail
  have hexec := exec_rsDecodeAll hr hv hentry
  have hdesc := (s.rsDecodeAllStage_descriptorsOf he).complete code
  rw [hstage] at hexec hdesc
  refine ⟨_, hexec, completed_complete .., hdesc, fun b hb c nu hc => correctedMem_readBytes hk.le hok hb hc, rfl,
    (BitVec.toNat_ofNat ..).trans (Nat.mod_eq_of_lt (by omega)), fun a ha => ?_, rfl⟩
  exact (correctedMem_read_other hk.le hok fun hin => ha (.inl hin)).trans (s.writeDescriptors_stores he a fun hin => ha (.inr hin))

end Sys2Proof.ReedSolomon
end

section
/-! SUPPORT. The fields of a segment (R75 to R81): their widths, their ranges and their bytes, in the terms of Safety.lean, and what
the meaning of a segment does with what reading them gives. -/

namespace Sys2Proof.Machine

/-- R143 to R150: the fields the meaning of a segment reads, its mode indicator first. -/
def segmentFields (sc : SizeClass) : Instr → List Field
  | .num groups tail => .plain 4 :: .plain (numCountWidth sc) :: (groups.map numGroupField ++ numTailFields tail)
  | .alnum pairs last => .plain 4 :: .plain (alnumCountWidth sc) :: (pairs.map alnumPairField ++ last.toList.map alnumLastField)
  | .byte bytes => .plain 4 :: .plain (byteCountWidth sc) :: bytes.map byteField
  | .kanji chars => .plain 4 :: .plain (kanjiCountWidth sc) :: chars.map kanjiField
  | .eci7 _ | .eciCorrupt => [.plain 4, .plain 8]
  | .eci14 _ => [.plain 4, .plain 8, .plain 8]
  | .eci21 _ => [.plain 4, .plain 8, .plain 16]
  | .sa _ _ _ => [.plain 4, .plain 4, .plain 4, .plain 8]
  | .term | .unlisted5 | .unlisted6 | .unlisted9 | .unlistedA | .unlistedB | .unlistedC | .unlistedD | .unlistedE
  | .unlistedF => [.plain 4]
  | .nop | .extract _ _ | .deinterleave _ _ | .rsDecode _ _ | .rsDecodeAll _ _ | .parse _ | .decode _ _ _
  | .rsEncode _ _ | .rsFill _ _ | .init | .reservedOp9 | .reservedOpA | .reservedOpB | .reservedOpC | .reservedOpD
  | .reservedOpE | .illegalRsv _ => []

/-- R144, R145: the code a value out of range ends the parse with; the other modes have no range. -/
def rangeCode : Instr → ErrorCode
  | .num _ _ => .streamNumericRange
  | .alnum _ _ => .streamAlnumRange
  | _ => .streamUnderrun

/-- What reading the segment's fields gives at the parser's position. -/
def State.readSegment (s : State) (i : Instr) : ReadResult :=
  readFields s.streamEnd (rangeCode i) s.parser.pos (segmentFields s.parser.sizeClass i)

variable {s : State} {i : Instr} {code : ErrorCode} {p : Nat}

/-! ## What follows from reading the fields -/

theorem State.bytesSegment_of_stop (typ : BitVec 4) {bad : ErrorCode} {fs : List Field} (count : Nat)
    (h : readFields s.streamEnd bad s.parser.pos fs = .stop code p) : s.bytesSegment typ bad fs count = s.endParse code p := by
  simp only [State.bytesSegment, h]

theorem State.bytesSegment_of_ok (typ : BitVec 4) {bad : ErrorCode} {fs : List Field} (count : Nat) {out : List Byte}
    (h : readFields s.streamEnd bad s.parser.pos fs = .ok p out) : s.bytesSegment typ bad fs count
      = s.emit typ out (word14 s.parser.outLen) (word14 out.length) (word14 count) p := by
  simp only [State.bytesSegment, h]

theorem State.headerSegment_of_stop (typ : BitVec 4) {fs : List Field} (w1 : Word)
    (h : readFields s.streamEnd .streamUnderrun s.parser.pos fs = .stop code p) :
    s.headerSegment typ fs w1 = s.endParse code p := by
  simp only [State.headerSegment, h]

theorem State.headerSegment_of_ok (typ : BitVec 4) {fs : List Field} (w1 : Word) {out : List Byte}
    (h : readFields s.streamEnd .streamUnderrun s.parser.pos fs = .ok p out) :
    s.headerSegment typ fs w1 = s.emit typ [] w1 0 0 p := by
  simp only [State.headerSegment, h]

theorem State.unlistedMode_of_stop (h : readFields s.streamEnd .streamUnderrun s.parser.pos [.plain 4] = .stop code p) :
    s.unlistedMode = s.endParse code p := by
  simp only [State.unlistedMode, h]

/-- R150: the nine unlisted mode indicators mean the same. -/
theorem exec_of_isUnlisted (hi : i.isUnlisted) (s : State) : exec i s = .next s.unlistedMode := by
  cases i with
  | unlisted5 | unlisted6 | unlisted9 | unlistedA | unlistedB | unlistedC | unlistedD | unlistedE | unlistedF => rfl
  | _ => cases hi

/-- R141, R144, R145: where reading the fields stops, the parse ends. -/
theorem exec_of_readSegment_stop (h : s.readSegment i = .stop code p) : exec i s = .next (s.endParse code p) := by
  cases i with
  | num | alnum | byte | kanji => exact congrArg Host.Outcome.next (State.bytesSegment_of_stop _ _ h)
  | eci7 | eci14 | eci21 | eciCorrupt | sa => exact congrArg Host.Outcome.next (State.headerSegment_of_stop _ _ h)
  | term =>
    have hread : readFields s.streamEnd .streamUnderrun s.parser.pos [.plain 4] = .stop code p := h
    simp only [exec, execTerm, hread]
  | unlisted5 | unlisted6 | unlisted9 | unlistedA | unlistedB | unlistedC | unlistedD | unlistedE | unlistedF =>
    exact congrArg Host.Outcome.next (State.unlistedMode_of_stop h)
  | _ => cases h

theorem isCommand_of_emits {out : List Byte} (h : i.emittedBytes = some out) : isCommand i = false := by
  cases i with
  | num | alnum | byte | kanji | eci7 | eci14 | eci21 | eciCorrupt | sa => rfl
  | _ => cases h

/-- R152: where the fields of a segment that emits a record are read, the segment is emitted. -/
theorem exec_of_readSegment_ok {out out' : List Byte} (hi : i.emittedBytes = some out') (h : s.readSegment i = .ok p out) :
    ∃ typ w1 w2 w3, exec i s = .next (s.emit typ out w1 w2 w3 p) := by
  cases i with
  | num | alnum | byte | kanji =>
    exact ⟨_, _, _, _, congrArg Host.Outcome.next (State.bytesSegment_of_ok _ _ h)⟩
  | eci7 | eci14 | eci21 | eciCorrupt | sa =>
    obtain ⟨-, rfl, -⟩ := readFields_ok h
    exact ⟨_, _, _, _, congrArg Host.Outcome.next (State.headerSegment_of_ok _ _ h)⟩
  | _ => cases hi

/-! ## Widths, R75 to R84 -/

theorem width_segmentFields (sc : SizeClass) (i : Instr) : (segmentFields sc i).map (·.width) = i.fieldWidths sc := by
  cases i with
  | num groups tail =>
    simp only [segmentFields, Instr.fieldWidths, List.map_cons, List.map_append, List.map_map]
    cases tail <;> rfl
  | alnum | byte | kanji =>
    simp only [segmentFields, Instr.fieldWidths, List.map_cons, List.map_append, List.map_map]
    rfl
  | _ => rfl

theorem fieldsWidth_take (fs : List Field) (k : Nat) : fieldsWidth (fs.take k) = ((fs.map (·.width)).take k).sum := by
  rw [fieldsWidth, List.map_take]

theorem tableLength_num (sc : SizeClass) (groups : List (BitVec 10)) (tail : NumTail) : (Instr.num groups tail).tableLength sc
    = 4 + numCountWidth sc + 10 * groups.length + [0, 4, 7].getD tail.digits 0 := by
  simp only [Instr.tableLength, numCount_div, numCount_mod]

theorem tableLength_alnum (sc : SizeClass) (pairs : List (BitVec 11)) (last : Option (BitVec 6)) :
    (Instr.alnum pairs last).tableLength sc
      = 4 + alnumCountWidth sc + 11 * pairs.length + 6 * (if last.isSome then 1 else 0) := by
  simp only [Instr.tableLength, alnumCount_div, alnumCount_mod]

/-- R84: a segment is as long as its fields. -/
theorem fieldWidths_sum (sc : SizeClass) (hi : isCommand i = false) : (i.fieldWidths sc).sum = i.tableLength sc := by
  cases i with
  | num groups tail =>
    simp only [Instr.fieldWidths, tableLength_num, List.sum_append, List.map_const', List.sum_replicate]
    cases tail <;> simp [NumTail.digits] <;> omega
  | alnum pairs last =>
    simp only [Instr.fieldWidths, tableLength_alnum, List.sum_append, List.map_const', List.sum_replicate]
    cases last <;> simp <;> omega
  | byte | kanji =>
    simp only [Instr.fieldWidths, Instr.tableLength, List.sum_append, List.map_const', List.sum_replicate]
    simp only [List.sum_cons, List.sum_nil, smul_eq_mul]
    omega
  | term | unlisted5 | unlisted6 | unlisted9 | unlistedA | unlistedB | unlistedC | unlistedD | unlistedE | unlistedF => rfl
  | eci7 | eci14 | eci21 | eciCorrupt | sa => rfl
  | _ => cases hi

theorem fieldsWidth_segmentFields (sc : SizeClass) (hi : isCommand i = false) :
    fieldsWidth (segmentFields sc i) = i.tableLength sc := by
  rw [fieldsWidth, width_segmentFields, fieldWidths_sum sc hi]

/-- R76, R77: the fields of a counted segment before one of its values. -/
theorem fieldsWidth_counted {α : Type} {f : α → Field} {w : Nat} (hw : ∀ x, (f x).width = w) (cc : Nat) (xs : List α) :
    fieldsWidth (.plain 4 :: .plain cc :: xs.map f) = 4 + cc + w * xs.length := by
  have hmap : fieldsWidth (xs.map f) = w * xs.length := by simp [fieldsWidth, Function.comp_def, hw, Nat.mul_comm]
  simp only [fieldsWidth_cons, hmap, Field.plain]
  omega

/-- R141: field `k` is the first to run past the end. -/
theorem readFields_underrun_at {limit k pos : Nat} {bad : ErrorCode} {fs : List Field} (hk : k < fs.length)
    (hr : ∀ f ∈ fs.take k, f.inRange = true) (hstart : pos + fieldsWidth (fs.take k) ≤ limit)
    (hend : limit < pos + fieldsWidth (fs.take k) + (fs.map (·.width)).getD k 0) :
    readFields limit bad pos fs = .stop .streamUnderrun (pos + fieldsWidth (fs.take k)) := by
  have hwidth : (fs.map (·.width)).getD k 0 = fs[k].width := by simp [List.getD, hk]
  have hstop := readFields_underrun (bad := bad) (post := fs.drop (k + 1)) hr hstart (hwidth ▸ hend)
  rwa [← List.drop_eq_getElem_cons hk, List.take_append_drop] at hstop

/-! ## Ranges, R144, R145 -/

/-- The fields of a counted segment before field `k` are in range where its values before field `k` are. -/
theorem inRange_take_counted {fs gs : List Field} {k w1 w2 : Nat} (hfs : ∀ f ∈ fs.take (k - 2), f.inRange = true)
    (hgs : fs.length + 2 < k → ∀ g ∈ gs, g.inRange = true) :
    ∀ f ∈ (.plain w1 :: .plain w2 :: (fs ++ gs) : List Field).take k, f.inRange = true := by
  intro f hf
  match k with
  | 0 => cases hf
  | 1 =>
    obtain rfl := List.mem_singleton.1 hf
    rfl
  | k + 2 =>
    simp only [List.take_succ_cons, List.take_append, List.mem_cons, List.mem_append] at hf
    obtain rfl | rfl | hf | hg := hf
    · rfl
    · rfl
    · exact hfs f hf
    · have hlen := (List.length_pos_of_mem hg).trans_le (List.length_take_le _ _)
      exact hgs (by omega) f (List.mem_of_mem_take hg)

theorem inRange_numTailFields {tail : NumTail} (h : tail.InRange) : ∀ f ∈ numTailFields tail, f.inRange = true := by
  cases tail with
  | none => simp [numTailFields]
  | one g => simpa [numTailFields, NumTail.InRange] using h
  | two g => simpa [numTailFields, NumTail.InRange] using h

/-- R144, R145: the fields before field `k` are in range where the values before field `k` are. -/
theorem inRange_take_segmentFields (sc : SizeClass) {k : Nat} (h : i.ValuesInRangeBefore k) :
    ∀ f ∈ (segmentFields sc i).take k, f.inRange = true := by
  cases i with
  | num groups tail =>
    obtain ⟨hgroups, htail⟩ := h
    refine inRange_take_counted ?_ fun hk => inRange_numTailFields (htail (by simpa using hk))
    simpa [← List.map_take, numGroupField] using hgroups
  | alnum pairs last =>
    obtain ⟨hpairs, hlast⟩ := h
    refine inRange_take_counted ?_ fun hk => ?_
    · simpa [← List.map_take, alnumPairField] using hpairs
    · simpa [alnumLastField] using hlast (by simpa using hk)
  | _ =>
    refine fun f hf => (?_ : ∀ f ∈ segmentFields sc _, f.inRange = true) f (List.mem_of_mem_take hf)
    simp [segmentFields, byteField, kanjiField, Field.plain]

theorem valuesInRangeBefore_of_valuesInRange (h : i.ValuesInRange) (k : Nat) : i.ValuesInRangeBefore k := by
  cases i with
  | num groups tail =>
    obtain ⟨hgroups, htail⟩ := h
    exact ⟨fun g hg => hgroups g (List.mem_of_mem_take hg), fun _ => htail⟩
  | alnum pairs last =>
    obtain ⟨hpairs, hlast⟩ := h
    exact ⟨fun v hv => hpairs v (List.mem_of_mem_take hv), fun _ => hlast⟩
  | _ => trivial

theorem inRange_segmentFields (sc : SizeClass) (h : i.ValuesInRange) : ∀ f ∈ segmentFields sc i, f.inRange = true := by
  have htake := inRange_take_segmentFields sc (valuesInRangeBefore_of_valuesInRange h (segmentFields sc i).length)
  rwa [List.take_length] at htake

theorem numTailFields_of_not_inRange {tail : NumTail} (h : ¬ tail.InRange) :
    ∃ f, numTailFields tail = [f] ∧ f.width = [0, 4, 7].getD tail.digits 0 ∧ f.inRange = false := by
  cases tail with
  | none => exact absurd trivial h
  | one g => exact ⟨_, rfl, rfl, decide_eq_false h⟩
  | two g => exact ⟨_, rfl, rfl, decide_eq_false h⟩

/-! ## Bytes, R144 to R147 -/

/-- R144: a group in range gives its three digits. -/
theorem out_numGroupField {g : BitVec 10} (hg : g.toNat < 1000) : (numGroupField g).out = asciiDigits 3 g.toNat := by
  have hlead : g.toNat / 100 % 10 = g.toNat / 100 := Nat.mod_eq_of_lt (by omega)
  simp [numGroupField, digitByte, asciiDigits, List.range_succ, hlead]

theorem numericBytes_eq_append (groups : List (BitVec 10)) (tail : NumTail) :
    numericBytes groups tail = groups.flatMap (fun g => asciiDigits 3 g.toNat) ++ numericBytes [] tail := rfl

theorem out_numTailFields {tail : NumTail} (h : tail.InRange) :
    (numTailFields tail).flatMap (·.out) = numericBytes [] tail := by
  cases tail with
  | none => rfl
  | one g =>
    have hlead : g.toNat % 10 = g.toNat := Nat.mod_eq_of_lt h
    simp [numTailFields, digitByte, numericBytes, asciiDigits, hlead]
  | two g =>
    have hg : g.toNat < 100 := h
    have hlead : g.toNat / 10 % 10 = g.toNat / 10 := Nat.mod_eq_of_lt (by omega)
    simp [numTailFields, digitByte, numericBytes, asciiDigits, List.range_succ, hlead]

/-- R77: the model's alphabet is the source's. -/
theorem alnumByte_eq_symbolByte : ∀ i < 45, alnumByte i = symbolByte i := by decide

theorem out_alnumPairField {v : BitVec 11} (hv : v.toNat < 2025) :
    (alnumPairField v).out = [symbolByte (v.toNat / 45), symbolByte (v.toNat % 45)] := by
  rw [alnumPairField, alnumByte_eq_symbolByte _ (by omega), alnumByte_eq_symbolByte _ (by omega)]

theorem out_alnumLastField {v : BitVec 6} (hv : v.toNat < 45) : (alnumLastField v).out = [symbolByte v.toNat] := by
  rw [alnumLastField, alnumByte_eq_symbolByte _ hv]

/-- R79: the Shift-JIS number of a 13-bit value has 16 bits. -/
theorem sjis_le (k : BitVec 13) : sjis k.toNat ≤ 0xEBBF := by
  have hk := k.isLt
  simp only [sjis]
  split <;> omega

theorem kanjiCode_toNat (k : BitVec 13) : (kanjiCode k).toNat = sjis k.toNat := by
  have hcode : (kanjiCode k).toNat = sjis k.toNat % 2 ^ 16 := by
    rw [kanjiCode, sjis, BitVec.toNat_ofNat, Nat.mul_comm]
  rw [hcode, Nat.mod_eq_of_lt ((sjis_le k).trans_lt (by decide))]

theorem out_kanjiField (k : BitVec 13) :
    (kanjiField k).out = [BitVec.ofNat 8 (sjis k.toNat / 256), BitVec.ofNat 8 (sjis k.toNat % 256)] := by
  have hhigh : (kanjiCode k).extractLsb' 8 8 = BitVec.ofNat 8 (sjis k.toNat / 256) := BitVec.eq_of_toNat_eq <| by
    simp [BitVec.extractLsb'_toNat, kanjiCode_toNat, Nat.shiftRight_eq_div_pow]
  have hlow : (kanjiCode k).extractLsb' 0 8 = BitVec.ofNat 8 (sjis k.toNat % 256) := BitVec.eq_of_toNat_eq <| by
    simp [BitVec.extractLsb'_toNat, kanjiCode_toNat]
  rw [kanjiField, hhigh, hlow]

/-- R152: what a segment in range emits is the bytes of its fields. -/
theorem out_segmentFields (sc : SizeClass) {out : List Byte} (hr : i.ValuesInRange) (hout : i.emittedBytes = some out) :
    (segmentFields sc i).flatMap (·.out) = out := by
  cases i with
  | num groups tail =>
    obtain ⟨hgroups, htail⟩ := hr
    cases hout
    simp only [segmentFields, Field.plain, List.flatMap_cons, List.flatMap_append, List.nil_append, List.flatMap_map,
      out_numTailFields htail]
    rw [numericBytes_eq_append groups, List.flatMap_congr fun g hg => out_numGroupField (hgroups g hg)]
  | alnum pairs last =>
    obtain ⟨hpairs, hlast⟩ := hr
    cases hout
    simp only [segmentFields, Field.plain, List.flatMap_cons, List.flatMap_append, List.nil_append, List.flatMap_map, alnumBytes]
    rw [List.flatMap_congr fun v hv => out_alnumPairField (hpairs v hv)]
    cases last with
    | none => rfl
    | some v => simp [out_alnumLastField (hlast v rfl)]
  | byte bytes =>
    cases hout
    simp [segmentFields, Field.plain, List.flatMap_map, byteField]
  | kanji chars =>
    cases hout
    simp only [segmentFields, Field.plain, List.flatMap_cons, List.nil_append, List.flatMap_map, kanjiBytes, out_kanjiField]
  | eci7 | eci14 | eci21 | eciCorrupt | sa => cases hout; rfl
  | _ => cases hout

theorem length_numericBytes (groups : List (BitVec 10)) (tail : NumTail) :
    (numericBytes groups tail).length = numCount groups tail := by
  cases tail <;> simp [numericBytes, asciiDigits, numCount, NumTail.digits, Nat.mul_comm]

theorem length_alnumBytes (pairs : List (BitVec 11)) (last : Option (BitVec 6)) :
    (alnumBytes pairs last).length = alnumCount pairs last := by
  cases last <;> simp [alnumBytes, alnumCount, Nat.mul_comm]

theorem length_kanjiBytes (chars : List (BitVec 13)) : (kanjiBytes chars).length = 2 * chars.length := by
  simp [kanjiBytes, Nat.mul_comm]

end Sys2Proof.Machine
end

section
/-! SUPPORT. The segment parser (R141 to R154): how each segment answers, and the ends of a parse. -/

namespace Sys2Proof.Machine

variable {s : State} {i : Instr}

/-! ## Emitted segments, R144 to R149, R152 -/

/-- R86, R144 to R147: a segment of bytes that is in range and fits is emitted. -/
theorem exec_bytesSegment_emitted {typ : BitVec 4} {out : List Byte} {count : Nat}
    (hexec : exec i s = .next (s.bytesSegment typ (rangeCode i) (segmentFields s.parser.sizeClass i) count))
    (hr : i.ValuesInRange) (hout : i.emittedBytes = some out) (hc : count ≤ out.length)
    (hf : s.Fits (i.tableLength s.parser.sizeClass) out.length) :
    ∃ t, exec i s = .next t ∧
      Emitted s t typ.toNat out s.parser.outLen out.length count (i.tableLength s.parser.sizeClass) := by
  have hroom := hf.out
  unfold outCap at hroom
  rw [← fieldsWidth_segmentFields _ (isCommand_of_emits hout), ← out_segmentFields s.parser.sizeClass hr hout] at hf ⊢
  rw [← out_segmentFields s.parser.sizeClass hr hout] at hc hroom
  exact ⟨_, hexec, State.bytesSegment_emitted _ _ (inRange_segmentFields _ hr) (by omega) hf⟩

/-- R86, R148, R149: a segment of header fields that fits is emitted. -/
theorem exec_headerSegment_emitted {typ : BitVec 4} {w1 : Word} (hi : isCommand i = false)
    (hexec : exec i s = .next (s.headerSegment typ (segmentFields s.parser.sizeClass i) w1)) (hr : i.ValuesInRange)
    (hf : s.Fits (i.tableLength s.parser.sizeClass) 0) :
    ∃ t, exec i s = .next t ∧ Emitted s t typ.toNat [] w1.toNat 0 0 (i.tableLength s.parser.sizeClass) := by
  rw [← fieldsWidth_segmentFields _ hi] at hf ⊢
  exact ⟨_, hexec, State.headerSegment_emitted _ _ (inRange_segmentFields _ hr) hf⟩

/-! ## Values out of range, R144, R145 -/

/-- R144, R145: a value out of range ends the parse. -/
theorem exec_range {pre post : List Field} {f : Field} (hs : s.ParserOk)
    (hfields : segmentFields s.parser.sizeClass i = pre ++ f :: post) (hr : ∀ g ∈ pre, g.inRange = true)
    (hfit : s.parser.pos + fieldsWidth pre + f.width ≤ s.streamEnd) (hf : f.inRange = false) :
    ∃ t, exec i s = .next t ∧ ParseEnded s t (rangeCode i) (s.parser.pos + fieldsWidth pre) := by
  have hread : s.readSegment i = .stop (rangeCode i) (s.parser.pos + fieldsWidth pre) := by
    rw [State.readSegment, hfields]
    exact readFields_range hr hfit hf
  exact ⟨_, exec_of_readSegment_stop hread, State.endParse_ended hs _ (by omega)⟩

/-- R144, R145: a value of a counted segment that is out of range ends the parse. -/
theorem exec_range_counted {α : Type} {val : α → Field} {w cc : Nat} {pre : List α} {f : Field} {post : List Field}
    (hw : ∀ x, (val x).width = w) (hs : s.ParserOk)
    (hfields : segmentFields s.parser.sizeClass i = .plain 4 :: .plain cc :: (pre.map val ++ f :: post))
    (hr : ∀ x ∈ pre, (val x).inRange = true)
    (hfit : s.parser.pos + 4 + cc + w * pre.length + f.width ≤ s.streamEnd) (hf : f.inRange = false) :
    ∃ t, exec i s = .next t ∧ ParseEnded s t (rangeCode i) (s.parser.pos + 4 + cc + w * pre.length) := by
  have hpos : s.parser.pos + 4 + cc + w * pre.length
      = s.parser.pos + fieldsWidth (.plain 4 :: .plain cc :: pre.map val) := by
    rw [fieldsWidth_counted hw]
    omega
  rw [hpos] at hfit ⊢
  exact exec_range hs hfields (by simpa [Field.plain] using hr) hfit hf

/-! ## The segments, R144 to R150 -/

/-- Settles O41: the values before the one at fault are read. -/
theorem numericSegment : Obligations.NumericSegment := by
  rintro s groups tail _ _ rfl rfl
  refine ⟨fun hgroups htail hf => ?_, fun pre g post hsplit hpre hg hs hfit => ?_, fun hgroups htail hs hfit => ?_⟩
  · have hlen := length_numericBytes groups tail
    obtain ⟨t, hexec, ht⟩ := exec_bytesSegment_emitted (i := .num groups tail) rfl ⟨hgroups, htail⟩ rfl hlen.ge hf
    exact ⟨t, hexec, hlen, hlen ▸ ht⟩
  · have hfields : segmentFields s.parser.sizeClass (.num groups tail) = .plain 4 :: .plain (numCountWidth s.parser.sizeClass)
        :: (pre.map numGroupField ++ numGroupField g :: (post.map numGroupField ++ numTailFields tail)) := by
      simp [segmentFields, hsplit]
    exact exec_range_counted (fun _ => rfl) hs hfields (fun x hx => decide_eq_true (hpre x hx)) hfit
      (decide_eq_false (by omega))
  · obtain ⟨f, hsingle, hwidth, hf⟩ := numTailFields_of_not_inRange htail
    have hfields : segmentFields s.parser.sizeClass (.num groups tail) = .plain 4 :: .plain (numCountWidth s.parser.sizeClass)
        :: (groups.map numGroupField ++ [f]) := by
      rw [segmentFields, hsingle]
    rw [tableLength_num, ← hwidth] at hfit
    exact exec_range_counted (fun _ => rfl) hs hfields (fun x hx => decide_eq_true (hgroups x hx)) (by omega) hf

/-- Settles O42: the values before the one at fault are read. -/
theorem alphanumericSegment : Obligations.AlphanumericSegment := by
  rintro s pairs last _ _ rfl rfl
  refine ⟨fun hpairs hlast hf => ?_, fun pre v post hsplit hpre hv hs hfit => ?_, fun v hpairs hlast hv hs hfit => ?_⟩
  · have hlen := length_alnumBytes pairs last
    obtain ⟨t, hexec, ht⟩ := exec_bytesSegment_emitted (i := .alnum pairs last) rfl ⟨hpairs, hlast⟩ rfl hlen.ge hf
    exact ⟨t, hexec, hlen, hlen ▸ ht⟩
  · have hfields : segmentFields s.parser.sizeClass (.alnum pairs last)
        = .plain 4 :: .plain (alnumCountWidth s.parser.sizeClass) :: (pre.map alnumPairField
          ++ alnumPairField v :: (post.map alnumPairField ++ last.toList.map alnumLastField)) := by
      simp [segmentFields, hsplit]
    exact exec_range_counted (fun _ => rfl) hs hfields (fun x hx => decide_eq_true (hpre x hx)) hfit
      (decide_eq_false (by omega))
  · obtain rfl := hlast
    have hlen : (Instr.alnum pairs (some v)).tableLength s.parser.sizeClass
        = 4 + alnumCountWidth s.parser.sizeClass + 11 * pairs.length + 6 := tableLength_alnum ..
    exact exec_range_counted (f := alnumLastField v) (fun _ => rfl) hs rfl (fun x hx => decide_eq_true (hpairs x hx))
      (by simp only [alnumLastField]; omega) (decide_eq_false (by omega))

/-- Settles O43. -/
theorem byteSegment : Obligations.ByteSegment := by
  rintro s bytes _ rfl hf
  exact exec_bytesSegment_emitted (i := .byte bytes) rfl trivial rfl le_rfl hf

/-- Settles O44: the pairs are two bytes for each character. -/
theorem kanjiSegment : Obligations.KanjiSegment := by
  refine ⟨sjis_le, ?_⟩
  rintro s chars _ rfl hf
  have hlen := length_kanjiBytes chars
  rw [← hlen] at hf ⊢
  exact exec_bytesSegment_emitted (i := .kanji chars) rfl trivial rfl (by omega) hf

/-- R149: the record's word of a Structured Append segment. -/
theorem saWord_toNat (cur tot : BitVec 4) (par : BitVec 8) :
    ((0 : BitVec 16) ++ par ++ tot ++ cur).toNat = cur.toNat + 2 ^ 4 * tot.toNat + 2 ^ 8 * par.toNat := by
  have hzero : (0 : BitVec 16).toNat = 0 := BitVec.toNat_ofNat ..
  have hcur := cur.isLt
  have htot := tot.isLt
  simp only [BitVec.toNat_append, hzero, Nat.zero_shiftLeft, Nat.zero_or]
  rw [← Nat.shiftLeft_add_eq_or_of_lt htot, ← Nat.shiftLeft_add_eq_or_of_lt hcur]
  simp only [Nat.shiftLeft_eq]
  omega

/-- Settles O45. -/
theorem headerSegments : Obligations.HeaderSegments := by
  refine fun s => ⟨fun a hf => ?_, fun a hf => ?_, fun a hf => ?_, fun hf => ?_, fun cur tot par hf => ?_⟩
  · have h := exec_headerSegment_emitted (i := .eci7 a) rfl rfl trivial hf
    rwa [BitVec.toNat_setWidth_of_le (by decide)] at h
  · have h := exec_headerSegment_emitted (i := .eci14 a) rfl rfl trivial hf
    rwa [BitVec.toNat_setWidth_of_le (by decide)] at h
  · have h := exec_headerSegment_emitted (i := .eci21 a) rfl rfl trivial hf
    rwa [BitVec.toNat_setWidth_of_le (by decide)] at h
  · exact exec_headerSegment_emitted (i := .eciCorrupt) rfl rfl trivial hf
  · have h := exec_headerSegment_emitted (i := .sa cur tot par) rfl rfl trivial hf
    rwa [saWord_toNat] at h

/-- Settles O46: the fields before field `k` are read, and field `k` is not. -/
theorem underrunEndsParse : Obligations.UnderrunEndsParse := by
  rintro s i k _ hs hr hk rfl hstart hend
  rw [← width_segmentFields] at hk hstart hend ⊢
  rw [List.length_map] at hk
  rw [← fieldsWidth_take] at hstart hend ⊢
  have hread := readFields_underrun_at (bad := rangeCode i) hk (inRange_take_segmentFields _ hr) hstart hend
  exact ⟨_, exec_of_readSegment_stop hread, State.endParse_ended hs _ hstart⟩

/-- Settles O47. -/
theorem unlistedModes : Obligations.UnlistedModes := by
  intro s i hi hfit
  rw [exec_of_isUnlisted hi]
  obtain ⟨hshort, -⟩ | ⟨-, hpolicy, hmode⟩ | ⟨-, hpolicy, hmode⟩ := s.unlistedMode_cases
  · omega
  · exact ⟨fun _ => congrArg _ hmode, fun hfail => absurd (hpolicy.symm.trans hfail) (by decide)⟩
  · exact ⟨fun hskip => absurd (hpolicy.symm.trans hskip) (by decide),
      fun _ hs => ⟨_, congrArg _ hmode, State.endParse_ended hs _ hs.pos⟩⟩

/-- Settles O48: the fields are read, and emitting what they give fails. -/
theorem overflowEndsParse : Obligations.OverflowEndsParse := by
  intro s i out hs hr hout hfit hcap
  have hread : s.readSegment i = .ok (s.parser.pos + fieldsWidth (segmentFields s.parser.sizeClass i)) out := by
    rw [← out_segmentFields s.parser.sizeClass hr hout]
    refine readFields_fits ?_ (inRange_segmentFields _ hr)
    rwa [fieldsWidth_segmentFields _ (isCommand_of_emits hout)]
  obtain ⟨typ, w1, w2, w3, hexec⟩ := exec_of_readSegment_ok hout hread
  obtain ⟨-, hfull⟩ | ⟨hroom, hrecords, -⟩ := s.emit_cases typ out w1 w2 w3
    (s.parser.pos + fieldsWidth (segmentFields s.parser.sizeClass i))
  · exact ⟨_, hexec.trans (congrArg _ hfull), State.endParse_ended hs _ hs.pos⟩
  · omega

/-! ## The ends of the loop, R143, R151 -/

theorem length_streamBitsFrom (s : State) (q n : Nat) : (s.streamBitsFrom q n).length = n := by
  induction n generalizing q with
  | zero => rfl
  | succ n ih => rw [State.streamBitsFrom, List.length_cons, ih]

theorem mem_streamBitsFrom {q n : Nat} {b : Bool} :
    b ∈ s.streamBitsFrom q n ↔ ∃ p, q ≤ p ∧ p < q + n ∧ s.streamBit p = b := by
  induction n generalizing q with
  | zero => exact ⟨fun h => (List.not_mem_nil h).elim, fun ⟨p, hlo, hhi, _⟩ => by omega⟩
  | succ n ih =>
    rw [State.streamBitsFrom, List.mem_cons, ih]
    constructor
    · rintro (rfl | ⟨p, hlo, hhi, hp⟩)
      · exact ⟨q, le_rfl, by omega, rfl⟩
      · exact ⟨p, by omega, by omega, hp⟩
    · rintro ⟨p, hlo, hhi, hp⟩
      obtain rfl | hlt := hlo.eq_or_lt
      · exact .inl hp.symm
      · exact .inr ⟨p, hlt, by omega, hp⟩

/-- R72: fewer than 4 bits hold no mode indicator. -/
theorem decodeSegment_of_short {sc : SizeClass} {bits : List Bool} (h : bits.length < 4) :
    decodeSegment sc bits = .error .endOfStream := by
  match bits with
  | [] | [_] | [_, _] | [_, _, _] => rfl
  | _ :: _ :: _ :: _ :: _ => simp only [List.length_cons] at h; omega

/-- R142, R151: with no host event pending and fewer than 4 bits left, a step of the parse loop leaves it. -/
theorem step_of_short (hhost : s.host = []) (hb : s.busy = true) (hstage : s.stage = .parse)
    (h : s.streamEnd < s.parser.pos + 4) : step s = .next s.parseExit := by
  have hfetch : s.fetchSegment = .error .endOfStream :=
    decodeSegment_of_short (by rw [State.streamRest, length_streamBitsFrom]; omega)
  simp only [step, hhost, engineTurn, hb, if_true, engineStep, hstage, hfetch]

/-- R151: the bits that remain are all 0. -/
theorem streamRest_all_iff (hs : s.ParserOk) : s.streamRest.all (· == false) = true ↔
    ∀ q, s.parser.pos ≤ q → q < s.streamEnd → s.streamBit q = false := by
  have hpos := hs.pos
  have hend : s.parser.pos + (s.streamEnd - s.parser.pos) = s.streamEnd := by omega
  simp only [State.streamRest, List.all_eq_true, mem_streamBitsFrom, beq_iff_eq, hend]
  exact ⟨fun h q hlo hhi => h _ ⟨q, hlo, hhi, rfl⟩, fun h _ ⟨q, hlo, hhi, hq⟩ => hq ▸ h q hlo hhi⟩

/-- R151: the exit with OK. -/
theorem parseExit_ok (hs : s.ParserOk) (h : (∀ q, s.parser.pos ≤ q → q < s.streamEnd → s.streamBit q = false) ∨
    s.params.trailing = .accept) : s.parseExit = s.endParse .ok s.streamEnd := by
  rw [← streamRest_all_iff hs] at h
  obtain hall | haccept := h
  · rw [State.parseExit, if_pos hall]
  · rw [State.parseExit, haccept, ite_self]

/-- R151: the exit with STREAM_TRAILING. -/
theorem parseExit_trailing (hs : s.ParserOk) (h : ∃ q, s.parser.pos ≤ q ∧ q < s.streamEnd ∧ s.streamBit q = true)
    (hreject : s.params.trailing = .reject) : s.parseExit = s.endParse .streamTrailing s.parser.pos := by
  obtain ⟨q, hlo, hhi, hq⟩ := h
  have hbit : ¬ s.streamRest.all (· == false) = true := fun hall => by
    rw [(streamRest_all_iff hs).1 hall q hlo hhi] at hq
    cases hq
  rw [State.parseExit, if_neg hbit, hreject]

/-- Settles O49: the step leaves the loop, and its exit looks at the bits that remain. -/
theorem loopExit : Obligations.LoopExit := by
  intro s hhost hb hstage hs hshort
  have hstep := step_of_short hhost hb hstage hshort
  refine ⟨fun h => ⟨_, hstep, ?_⟩, fun h hreject => ⟨_, hstep, ?_⟩⟩
  · rw [parseExit_ok hs h]
    exact State.endParse_ended hs _ le_rfl
  · rw [parseExit_trailing hs h hreject]
    exact State.endParse_ended hs _ hs.pos

/-- Settles O40. -/
theorem termEndsParse : Obligations.TermEndsParse := by
  intro s hs hfit
  have hread : readFields s.streamEnd .streamUnderrun s.parser.pos [.plain 4] = .ok (s.parser.pos + 4) [] :=
    readFields_fits hfit (by simp [Field.plain])
  refine ⟨_, ?_, State.endParse_ended hs .ok hfit⟩
  simp only [exec, execTerm, hread]

/-! ## The start of the loop, R142, R154 -/

/-- R74: the size class by the ranges of VER. -/
theorem sizeClassOf_ranges (ver : BitVec 6) : (ver.toNat ≤ 9 → sizeClassOf ver = .small) ∧
    (10 ≤ ver.toNat → ver.toNat ≤ 26 → sizeClassOf ver = .medium) ∧ (27 ≤ ver.toNat → sizeClassOf ver = .large) := by
  refine ⟨fun h => if_pos h, fun hlo hhi => ?_, fun h => ?_⟩
  · rw [sizeClassOf, if_neg (by omega), if_pos hhi]
  · rw [sizeClassOf, if_neg (by omega), if_neg (by omega)]

/-- Settles O39. -/
theorem parseBegins : Obligations.ParseBegins := by
  intro s ver hr hv hlen
  refine ⟨_, ?_, sizeClassOf_ranges ver⟩
  rw [exec, execParse, State.whenReady_ready _ hr, hv, decide_eq_true hlen]
  rfl

end Sys2Proof.Machine
end

section
/-! SUPPORT. GFTAB as INIT builds it (R94 to R96): what its tables hold at each index. -/

namespace Sys2Proof.Machine

theorem length_gfPowers (n : Nat) (x : Byte) : (gfPowers n x).length = n := by
  induction n generalizing x with
  | zero => rfl
  | succ n ih => rw [gfPowers, List.length_cons, ih]

/-- R94: the powers are those of α, from any of them on. -/
theorem getElem?_gfPowers_gfExp {n i : Nat} (hi : i < n) (j : Nat) : (gfPowers n (gfExp j))[i]? = some (gfExp (j + i)) := by
  induction n generalizing i j with
  | zero => omega
  | succ n ih =>
    cases i with
    | zero => rfl
    | succ i =>
      have hrest : (gfPowers n (gfExp (j + 1)))[i]? = some (gfExp (j + 1 + i)) := ih (by omega) (j + 1)
      rw [gfPowers, List.getElem?_cons_succ, ← gfExp, hrest, Nat.add_right_comm, Nat.add_assoc]

theorem length_exp_build : GfTab.build.exp.length = 256 := by
  simp only [GfTab.build, List.length_append, length_gfPowers, List.length_singleton]

theorem length_log_build : GfTab.build.log.length = 255 := by
  simp only [GfTab.build, List.length_map, List.length_range]

/-- R94: exp[i] is α to the power i; exp[255] is exp[0]. -/
theorem getD_exp_build {i : Nat} (hi : i ≤ 255) : GfTab.build.exp.getD i 0 = gfExp i := by
  rw [GfTab.build, List.getD_eq_getElem?_getD]
  obtain rfl | hlt := hi.eq_or_lt
  · rw [List.getElem?_append_right (length_gfPowers ..).le, length_gfPowers, gfExp_255]
    rfl
  · have hpower := getElem?_gfPowers_gfExp hlt 0
    rw [List.getElem?_append_left (by rwa [length_gfPowers]), ← gfExp, hpower, Nat.zero_add, Option.getD_some]

/-- R95: the entry of a nonzero byte is its logarithm. -/
theorem getD_log_build {e : Byte} (he : e ≠ 0) : GfTab.build.log.getD (e.toNat - 1) 0 = BitVec.ofNat 8 (gfLog e) := by
  have hpos : e.toNat ≠ 0 := fun h => he (BitVec.eq_of_toNat_eq h)
  have hlt := e.isLt
  have hentry : BitVec.ofNat 8 (e.toNat - 1 + 1) = e := by
    rw [Nat.sub_add_cancel (by omega), BitVec.ofNat_toNat, BitVec.setWidth_eq]
  rw [GfTab.build, List.getD_eq_getElem?_getD, List.getElem?_map, List.getElem?_range (by omega), Option.map_some,
    Option.getD_some, hentry]

/-- Settles O8: the tables hold the powers of α and their logarithms. -/
theorem initBuildsTables : Obligations.InitBuildsTables := by
  refine fun s => ⟨_, GfTab.build, rfl, completed_complete .., rfl, rfl, rfl, length_exp_build, length_log_build,
    getD_exp_build (by decide), fun i hi => ?_, ?_, fun i hi => ?_⟩
  · rw [getD_exp_build (by omega), getD_exp_build (by omega)]
    exact (gfMul_gfExp_gfExp i 1).symm
  · rw [getD_exp_build le_rfl, getD_exp_build (Nat.zero_le _), gfExp_255]
    rfl
  · rw [getD_exp_build hi.le, getD_log_build (gfExp_ne_zero i), gfLog_gfExp hi]
    exact ⟨gfExp_ne_zero i, rfl⟩

end Sys2Proof.Machine
end

section
/-! SUPPORT. Command control (R156 to R162): how a step of the engine goes, what ends a command, and the stages of DECODE. -/

namespace Sys2Proof.Machine

variable {s t : State} {i : Instr}

/-! ## NOP and a write to CMD, R156, R160 -/

/-- Settles O7. -/
theorem nopCompletes : Obligations.NopCompletes := fun _ => completesWithNothingElse rfl

/-- R156: what a write to CMD does, by whether the block is busy. -/
theorem writeReg_cmd (s : State) (v : Word) :
    (s.busy = false → s.writeReg .cmd v = s.accept v) ∧
    (s.busy = true → s.writeReg .cmd v = { s with overrun := true }) := by
  refine ⟨fun hb => ?_, fun hb => ?_⟩ <;> simp [State.writeReg, hb]

/-- Settles O51. -/
theorem cmdWrite : Obligations.CmdWrite := by
  intro s v rest h
  have hstep := step_writeReg h (by decide) rfl
  obtain ⟨hidle, hbusy⟩ := writeReg_cmd { s with host := rest } v
  exact ⟨fun hb => ⟨_, hstep.trans (congrArg _ (hidle hb)), rfl, rfl⟩, fun hb => hstep.trans (congrArg _ (hbusy hb))⟩

/-! ## The moves of the engine, R142, R151, R157, R175 -/

theorem engineTurn_idle (hb : s.busy = false) : engineTurn s = .next s := by
  simp [engineTurn, hb]

theorem engineTurn_issue (hb : s.busy = true) (hstage : s.stage = .issue) :
    engineTurn s = exec (decodeCommand s.lcmd) s := by
  simp [engineTurn, engineStep, hb, hstage]

/-- R142, R151: in the parse loop, the segment at the parser's position, or the loop's exit. -/
theorem engineTurn_parse (hb : s.busy = true) (hstage : s.stage = .parse) :
    (∀ i, decodeSegment s.parser.sizeClass s.streamRest = .ok i → engineTurn s = exec i s) ∧
    (s.streamRest.length < 4 → engineTurn s = .next s.parseExit) := by
  refine ⟨fun i hi => ?_, fun hshort => ?_⟩
  · simp [engineTurn, engineStep, State.fetchSegment, hb, hstage, hi]
  · simp [engineTurn, engineStep, State.fetchSegment, hb, hstage, decodeSegment_of_short hshort]

theorem step_of_nil (h : s.host = []) : step s = engineTurn s := by
  simp only [step, h]

theorem step_of_pause {rest : List HostEvent} (h : s.host = .pause :: rest) : step s = engineTurn { s with host := rest } := by
  simp only [step, h, hostStep]

/-- R88: a wait stays pending while the block is busy. -/
theorem step_of_wait {rest : List HostEvent} (h : s.host = .wait :: rest) :
    (s.busy = false → step s = .next { s with host := rest }) ∧ (s.busy = true → step s = engineTurn s) := by
  refine ⟨fun hb => ?_, fun hb => ?_⟩ <;> simp [step, h, hostStep, engineTurn, hb]

/-- R72: the bits of the stream do not depend on the pending host events. -/
theorem streamRest_withHost (s : State) (rest : List HostEvent) :
    ({ s with host := rest } : State).streamRest = s.streamRest := by
  have hbits : ∀ n q, ({ s with host := rest } : State).streamBitsFrom q n = s.streamBitsFrom q n := by
    intro n
    induction n with
    | zero => exact fun _ => rfl
    | succ n ih => exact fun q => congrArg (s.streamBit q :: ·) (ih (q + 1))
  exact hbits _ _

/-- Settles O5: each step is a move of the engine, but that a wait ends while the block is idle. -/
theorem stepRunsDecoded : Obligations.StepRunsDecoded := by
  refine fun s => ⟨fun h hb => ?_, fun h hb hstage => ?_, fun h hb hstage => ?_, fun rest h => ?_, fun rest h => ?_⟩
  · exact (step_of_nil h).trans (engineTurn_idle hb)
  · exact (step_of_nil h).trans (engineTurn_issue hb hstage)
  · rw [step_of_nil h]
    exact engineTurn_parse hb hstage
  · rw [step_of_pause h, ← streamRest_withHost s rest]
    exact ⟨engineTurn_idle (s := { s with host := rest }), engineTurn_issue (s := { s with host := rest }),
      engineTurn_parse (s := { s with host := rest })⟩
  · obtain ⟨hidle, hbusy⟩ := step_of_wait h
    refine ⟨hidle, fun hb hstage => (hbusy hb).trans (engineTurn_issue hb hstage), fun hb hstage => ?_⟩
    rw [hbusy hb]
    exact engineTurn_parse hb hstage

/-! ## The fields of the running command, R158 -/

/-- R158: the fields a completion sets, but the stage. -/
structure CommandFlags where
  seq : Seq
  done : Bool
  err : Bool
  errCode : ErrorCode
  irqPend : Bool

/-- The fields of a state that a completion sets, but the stage. -/
def State.commandFlags (s : State) : CommandFlags := ⟨s.seq, s.done, s.err, s.errCode, s.irqPend⟩

theorem busy_of_commandFlags_eq (h : t.commandFlags = s.commandFlags) : t.busy = s.busy := by
  have hseq : t.seq = s.seq := congrArg CommandFlags.seq h
  simp only [State.busy, hseq]

@[simp] theorem State.extractStage_commandFlags (s : State) (ver : BitVec 6) (mask : BitVec 3) (cs : List Nat) :
    (s.extractStage ver mask cs).commandFlags = s.commandFlags := rfl

@[simp] theorem State.deinterleaveStage_commandFlags (s : State) (e : EcEntry) :
    (s.deinterleaveStage e).1.commandFlags = s.commandFlags := by
  obtain ⟨-, h⟩ | ⟨-, h⟩ := s.deinterleaveStage_cases e <;> rw [h] <;> rfl

@[simp] theorem State.rsDecodeAllStage_commandFlags (s : State) (e : EcEntry) :
    (s.rsDecodeAllStage e).1.commandFlags = s.commandFlags := by
  obtain ⟨b, code, -, h⟩ | ⟨-, h⟩ := s.rsDecodeAllStage_cases e rfl <;> rw [h] <;> rfl

/-! ## What a command and a segment leave, R142, R158 -/

/-- R142: the running command has begun its parse loop, on at most 4096 bytes. -/
structure ParseBegun (s t : State) : Prop where
  flags : t.commandFlags = s.commandFlags
  stage : t.stage = .parse
  length : t.dlen.toNat ≤ 4096
  start : t.parser.pos = 0

/-- R142: the parse loop goes on, at least a mode indicator further in the same stream. -/
structure ParseAdvanced (s t : State) : Prop where
  flags : t.commandFlags = s.commandFlags
  stage : t.stage = s.stage
  length : t.dlen = s.dlen
  progress : s.parser.pos + 4 ≤ t.parser.pos

theorem State.beginParse_begun {u : State} (hflags : u.commandFlags = s.commandFlags) (hlen : u.dlen.toNat ≤ 4096)
    (ver : BitVec 6) : ParseBegun s (u.beginParse ver) := ⟨hflags, rfl, hlen, rfl⟩

/-- R158: a command completes, but that PARSE and DECODE may begin the parse loop. -/
theorem Executed.command_outcome (h : Executed s i t) (hi : isCommand i = true) :
    Completed t t.errCode ∨ ParseBegun s t := by
  cases h with
  | parse _ _ hlen => exact .inr (State.beginParse_begun rfl hlen _)
  | decodeParses _ _ he hdealt hdecoded hok =>
    subst hdealt hdecoded
    exact .inr (State.beginParse_begun (by simp) (State.rsDecodeAllStage_dlen_le (ok_of_entry he) hok) _)
  | parseEnded _ hseg _ | emitted _ _ _ _ hseg _ _ _ | skipped hseg _ => exact absurd (hi.symm.trans hseg) (by decide)
  | _ => exact .inl (completed_complete ..)

theorem State.endParse_completed (s : State) (code : ErrorCode) (p : Nat) : Completed (s.endParse code p) code :=
  completed_complete ..

/-- R152: emitting a segment ends the parse or goes on where the segment ends. -/
theorem State.emit_outcome (typ : BitVec 4) (out : List Byte) (w1 w2 w3 : Word) {p : Nat} (hp : s.parser.pos + 4 ≤ p)
    (ht : t = s.emit typ out w1 w2 w3 p) : Completed t t.errCode ∨ ParseAdvanced s t := by
  obtain ⟨-, h⟩ | ⟨-, -, h⟩ := s.emit_cases typ out w1 w2 w3 p
  · rw [ht, h]; exact .inl (s.endParse_completed ..)
  · rw [ht, h]; exact .inr ⟨rfl, rfl, rfl, hp⟩

/-- R150: an unlisted mode indicator ends the parse or is skipped. -/
theorem State.unlistedMode_outcome (ht : t = s.unlistedMode) : Completed t t.errCode ∨ ParseAdvanced s t := by
  obtain ⟨-, h⟩ | ⟨-, -, h⟩ | ⟨-, -, h⟩ := s.unlistedMode_cases
  · rw [ht, h]; exact .inl (s.endParse_completed ..)
  · rw [ht, h]; exact .inr ⟨rfl, rfl, rfl, le_rfl⟩
  · rw [ht, h]; exact .inl (s.endParse_completed ..)

/-- R72: a segment has at least its mode indicator. -/
theorem four_le_fieldsWidth_segmentFields (sc : SizeClass) (hi : isCommand i = false) :
    4 ≤ fieldsWidth (segmentFields sc i) := by
  cases i with
  | num | alnum | byte | kanji | eci7 | eci14 | eci21 | eciCorrupt | sa => exact Nat.le_add_right 4 _
  | term | unlisted5 | unlisted6 | unlisted9 | unlistedA | unlistedB | unlistedC | unlistedD | unlistedE | unlistedF =>
    exact le_rfl
  | _ => cases hi

/-- R73: the segments are those that emit a record, the terminator and the unlisted mode indicators. -/
theorem segment_kinds (hi : isCommand i = false) : (∃ out, i.emittedBytes = some out) ∨ i = .term ∨ i.isUnlisted := by
  cases i with
  | num | alnum | byte | kanji | eci7 | eci14 | eci21 | eciCorrupt | sa => exact .inl ⟨_, rfl⟩
  | term => exact .inr (.inl rfl)
  | unlisted5 | unlisted6 | unlisted9 | unlistedA | unlistedB | unlistedC | unlistedD | unlistedE | unlistedF =>
    exact .inr (.inr trivial)
  | _ => cases hi

theorem execTerm_completed (h : execTerm s = .next t) : Completed t t.errCode := by
  unfold execTerm at h
  split at h <;> cases h <;> exact s.endParse_completed ..

/-- R142, R158: a segment ends the parse, or the loop goes on after it. -/
theorem exec_segment_outcome (hi : isCommand i = false) (h : exec i s = .next t) :
    Completed t t.errCode ∨ ParseAdvanced s t := by
  cases hread : s.readSegment i with
  | stop code p =>
    obtain rfl := Host.Outcome.next.inj ((exec_of_readSegment_stop hread).symm.trans h)
    exact .inl (s.endParse_completed ..)
  | ok p out =>
    obtain ⟨out', hemits⟩ | rfl | hunlisted := segment_kinds hi
    · obtain ⟨hp, -⟩ := readFields_ok hread
      obtain ⟨typ, w1, w2, w3, hexec⟩ := exec_of_readSegment_ok hemits hread
      have hwidth := four_le_fieldsWidth_segmentFields s.parser.sizeClass hi
      exact State.emit_outcome typ out w1 w2 w3 (by omega) (Host.Outcome.next.inj (h.symm.trans hexec))
    · exact .inl (execTerm_completed h)
    · exact State.unlistedMode_outcome (Host.Outcome.next.inj (h.symm.trans (exec_of_isUnlisted hunlisted s)))

/-- R158: what an instruction leaves of the running command. -/
theorem exec_outcome (h : exec i s = .next t) : Completed t t.errCode ∨ t.commandFlags = s.commandFlags := by
  cases hi : isCommand i with
  | true => exact ((exec_executed h).command_outcome hi).imp_right ParseBegun.flags
  | false => exact (exec_segment_outcome hi h).imp_right ParseAdvanced.flags

/-- Settles O11. -/
theorem completionIsOneStep : Obligations.CompletionIsOneStep := by
  intro i s t hb h
  obtain hdone | hflags := exec_outcome h
  · exact .inr hdone
  · have hbusy := busy_of_commandFlags_eq hflags
    simp only [State.commandFlags, CommandFlags.mk.injEq] at hflags
    obtain ⟨-, hdone, herr, hcode, hirq⟩ := hflags
    exact .inl ⟨hbusy.trans hb, hdone, herr, hcode, hirq⟩

/-! ## Every command ends, R159 -/

/-- From `s` a completion is at most `n` steps away, and CMD still holds the word it holds in `s`. -/
def CompletesWithin (n : Nat) (s : State) : Prop :=
  ∃ k t, k ≤ n ∧ Host.Core.run Sys2Proof.core k s = .next t ∧ Completed t t.errCode ∧ t.lcmd = s.lcmd

theorem Completed.completesWithin (h : Completed s s.errCode) (n : Nat) : CompletesWithin n s :=
  ⟨0, s, Nat.zero_le n, rfl, h, rfl⟩

theorem CompletesWithin.of_step {n : Nat} (h : step s = .next t) (hlcmd : t.lcmd = s.lcmd) (ht : CompletesWithin n t) :
    CompletesWithin (n + 1) s := by
  obtain ⟨k, u, hk, hrun, hdone, hu⟩ := ht
  refine ⟨k + 1, u, Nat.succ_le_succ hk, ?_, hdone, hu.trans hlcmd⟩
  have hcore : Sys2Proof.core.step s = .next t := h
  simp only [Host.Core.run, hcore, hrun]

/-- A command runs in its parse loop, and nothing is pending. -/
structure State.InLoop (s : State) : Prop where
  admissible : s.params.Admissible
  host : s.host = []
  busy : s.busy = true
  stage : s.stage = .parse

/-- R142: an instruction after which the command is still in its parse loop. -/
theorem State.InLoop.of_exec (ha : s.params.Admissible) (hhost : s.host = []) (hb : s.busy = true) (h : exec i s = .next t)
    (hflags : t.commandFlags = s.commandFlags) (hstage : t.stage = .parse) : t.InLoop := by
  obtain ⟨hparams, -, -, -, -, -, -, -, hhost', -⟩ := engineKeepsHostState i s t h
  exact ⟨hparams ▸ ha, hhost'.trans hhost, (busy_of_commandFlags_eq hflags).trans hb, hstage⟩

theorem exec_lcmd (h : exec i s = .next t) : t.lcmd = s.lcmd := by
  obtain ⟨-, -, -, -, -, hlcmd, -⟩ := engineKeepsHostState i s t h
  exact hlcmd

/-- R151: with fewer than 4 bits left, the next step leaves the loop and completes the command. -/
theorem State.InLoop.completesWithin_of_short (h : s.InLoop) (hshort : s.streamEnd < s.parser.pos + 4) (n : Nat) :
    CompletesWithin (n + 1) s := by
  have hstep := step_of_short h.host h.busy h.stage hshort
  obtain hexit | hexit := s.parseExit_cases
  all_goals
    rw [hexit] at hstep
    exact .of_step hstep rfl (Completed.completesWithin (s.endParse_completed ..) n)

/-- R72: at least 4 bits begin a segment. -/
theorem decodeSegment_of_four_le {sc : SizeClass} {bits : List Bool} (h : 4 ≤ bits.length) :
    ∃ i, decodeSegment sc bits = .ok i := by
  match bits with
  | _ :: _ :: _ :: _ :: _ => exact ⟨_, rfl⟩
  | [] | [_] | [_, _] | [_, _, _] => simp only [List.length_cons, List.length_nil] at h; omega

/-- R142, R151: the loop runs at most as many segments as the stream has room for mode indicators, then it is left. -/
theorem State.InLoop.completesWithin {n : Nat} (h : s.InLoop) (hn : s.streamEnd < s.parser.pos + 4 * n + 4) :
    CompletesWithin (n + 1) s := by
  induction n generalizing s with
  | zero => exact h.completesWithin_of_short hn _
  | succ n ih =>
    by_cases hshort : s.streamEnd < s.parser.pos + 4
    · exact h.completesWithin_of_short hshort _
    · obtain ⟨i, hi⟩ := decodeSegment_of_four_le (sc := s.parser.sizeClass) (bits := s.streamRest)
        (by rw [State.streamRest, length_streamBitsFrom]; omega)
      obtain ⟨t, ht⟩ := execNeverStops i s h.admissible
      refine .of_step ((step_of_fetchSegment h.host h.busy h.stage hi).trans ht) (exec_lcmd ht) ?_
      obtain hdone | hgo := exec_segment_outcome (isCommand_decodeSegment hi) ht
      · exact hdone.completesWithin _
      · have hend : t.streamEnd = s.streamEnd := by rw [State.streamEnd, hgo.length, State.streamEnd]
        have hprogress := hgo.progress
        exact ih (.of_exec h.admissible h.host h.busy ht hgo.flags (hgo.stage.trans h.stage)) (by omega)

/-- Settles O12: the command completes at once or begins its parse loop on at most 32768 bits. -/
theorem everyCommandCompletes : Obligations.EveryCommandCompletes := by
  intro s w ha _ hhost
  obtain ⟨t, ht⟩ := execNeverStops (decodeCommand w) (s.accept w) ha
  have hstep : step (s.accept w) = .next t :=
    (step_of_nil (s := s.accept w) hhost).trans ((engineTurn_issue (s := s.accept w) rfl rfl).trans ht)
  refine CompletesWithin.of_step (n := 8193) hstep (exec_lcmd ht) ?_
  obtain hdone | hbegun := (exec_executed ht).command_outcome (isCommand_decodeCommand w)
  · exact hdone.completesWithin _
  · refine State.InLoop.completesWithin (.of_exec (s := s.accept w) ha hhost rfl ht hbegun.flags hbegun.stage) ?_
    have hlen := hbegun.length
    rw [hbegun.start, State.streamEnd]
    omega

/-! ## DECODE, R162 -/

theorem State.complete_writeDescriptors (s : State) (code : ErrorCode) (e : EcEntry) :
    (s.complete code).writeDescriptors e = (s.writeDescriptors e).complete code := rfl

/-- R122, R158: the stage DEINTERLEAVE does not look at the fields a completion sets. -/
theorem State.complete_deinterleaveStage (s : State) (code : ErrorCode) (e : EcEntry) :
    (s.complete code).deinterleaveStage e = ((s.deinterleaveStage e).1.complete code, (s.deinterleaveStage e).2) := by
  by_cases h : s.cwCount.toNat < e.total
  · have hcomplete : (s.complete code).cwCount.toNat < e.total := h
    simp only [State.deinterleaveStage, if_pos h, if_pos hcomplete, State.complete_writeDescriptors]
  · have hcomplete : ¬ (s.complete code).cwCount.toNat < e.total := h
    simp only [State.deinterleaveStage, if_neg h, if_neg hcomplete, State.complete_writeDescriptors]
    rfl

/-- R136, R158: nor does the stage RS_DECODE_ALL. -/
theorem State.complete_rsDecodeAllStage (s : State) (code : ErrorCode) (e : EcEntry) :
    (s.complete code).rsDecodeAllStage e = ((s.rsDecodeAllStage e).1.complete code, (s.rsDecodeAllStage e).2) := by
  simp only [State.rsDecodeAllStage, State.complete_writeDescriptors, State.complete_mem]
  split <;> rfl

theorem params_of_kept_eq (h : t.kept = s.kept) : t.params = s.params := congrArg EngineKept.params h

theorem ready_of_kept_eq (h : t.kept = s.kept) : t.ready = s.ready := congrArg EngineKept.ready h

section
variable {ver : BitVec 6} {ecl : BitVec 2} {e : EcEntry} (hr : s.ready = true) (hv : verOk ver = true)
  (hentry : s.params.entry? ver ecl = some e)
include hr hv hentry

/-- R122: DEINTERLEAVE after a command that completed: the later completion sets all the earlier one set. -/
theorem exec_deinterleave_complete (hcount : s.cwCount.toNat ≤ 4096) (code : ErrorCode) :
    exec (.deinterleave ver ecl) (s.complete code)
      = .next ((s.deinterleaveStage e).1.complete (s.deinterleaveStage e).2) := by
  rw [exec_deinterleave (s := s.complete code) hr hv hentry hcount, State.complete_deinterleaveStage]
  rfl

/-- R136: RS_DECODE_ALL after a command that completed. -/
theorem exec_rsDecodeAll_complete (code : ErrorCode) : exec (.rsDecodeAll ver ecl) (s.complete code)
    = .next ((s.rsDecodeAllStage e).1.complete (s.rsDecodeAllStage e).2) := by
  rw [exec_rsDecodeAll (s := s.complete code) hr hv hentry, State.complete_rsDecodeAllStage]
  rfl

/-- R162: DECODE past its checks. -/
theorem exec_decode {mask : BitVec 3} {r : VersionRecord} {d a : State × ErrorCode} (hrec : s.params.record? ver = some r)
    (hd : d = (s.extractStage ver mask r.alignment).deinterleaveStage e) (ha : a = d.1.rsDecodeAllStage e) :
    exec (.decode ver ecl mask) s = if d.2 ≠ .ok then .next (d.1.complete d.2)
      else if a.2 ≠ .ok then .next (a.1.complete a.2) else .next (a.1.beginParse ver) := by
  simp only [exec, execDecode, State.whenReady_ready _ hr, hv, State.whenParam_true, State.withRecord_some _ hrec,
    State.withEntry_some _ hentry, hd, ha]

end

/-- R154: PARSE past its checks. -/
theorem exec_parse {ver : BitVec 6} (hr : s.ready = true) (hv : verOk ver = true) (hlen : s.dlen.toNat ≤ 4096) :
    exec (.parse ver) s = .next (s.beginParse ver) := by
  simp only [exec, execParse, State.whenReady_ready _ hr, hv, hlen, decide_true, Bool.and_self, State.whenParam_true]

/-- R142, R158: the parse loop begins alike after a completion taken back and where there was none. -/
theorem State.beginParse_withCompletionOf {u : State} (code : ErrorCode) (ver : BitVec 6)
    (h : u.commandFlags = s.commandFlags) : ((u.complete code).withCompletionOf s).beginParse ver = u.beginParse ver := by
  simp only [State.commandFlags, CommandFlags.mk.injEq] at h
  obtain ⟨hseq, hdone, herr, hcode, hirq⟩ := h
  simp only [State.withCompletionOf, State.complete, State.beginParse, ← hseq, ← hdone, ← herr, ← hcode, ← hirq]

/-- Settles O50: each command after EXTRACT runs its stage on what the stage before it left. -/
theorem decodeChainsStages : Obligations.DecodeChainsStages := by
  intro s ver ecl mask e hr hv hentry
  obtain ⟨r, hrec, -, he⟩ := entry?_some hentry
  obtain ⟨d, hd⟩ : ∃ d, d = (s.extractStage ver mask r.alignment).deinterleaveStage e := ⟨_, rfl⟩
  obtain ⟨a, ha⟩ : ∃ a, a = d.1.rsDecodeAllStage e := ⟨_, rfl⟩
  have hcount : (s.extractStage ver mask r.alignment).cwCount.toNat ≤ 4096 := by
    rw [extractStage_cwCount_toNat s mask _ hv, ← (extract_packed_length s ver mask _).1]
    exact extract_length_le s mask _ hv
  have hkept : d.1.kept = s.kept := by rw [hd]; simp
  have hflags : a.1.commandFlags = s.commandFlags := by rw [ha, hd]; simp
  have hdeal : exec (.deinterleave ver ecl) ((s.extractStage ver mask r.alignment).complete .ok) = .next (d.1.complete d.2) :=
    hd ▸ exec_deinterleave_complete (s := s.extractStage ver mask r.alignment) hr hv hentry hcount .ok
  have hall : exec (.rsDecodeAll ver ecl) (d.1.complete d.2) = .next (a.1.complete a.2) :=
    ha ▸ exec_rsDecodeAll_complete ((ready_of_kept_eq hkept).trans hr) hv (params_of_kept_eq hkept ▸ hentry) d.2
  have hdecode := exec_decode hr hv hentry hrec hd ha
  refine ⟨_, _, exec_extract hr hv hrec, hdeal, fun (hshort : d.2 ≠ .ok) => ?_,
    fun (hdealt : d.2 = .ok) => ⟨_, hall, fun (hfail : a.2 ≠ .ok) => ?_, fun (hok : a.2 = .ok) => ?_⟩⟩
  · rw [hdecode, if_pos hshort]
  · rw [hdecode, if_neg (not_not.2 hdealt), if_pos hfail]
  · have hlen : a.1.dlen.toNat ≤ 4096 := by
      rw [ha] at hok ⊢
      exact State.rsDecodeAllStage_dlen_le he hok
    have hready : a.1.ready = true := by
      rw [ha, ready_of_kept_eq (State.rsDecodeAllStage_kept ..), ready_of_kept_eq hkept, hr]
    have hbegin : exec (.decode ver ecl mask) s = .next (((a.1.complete a.2).withCompletionOf s).beginParse ver) := by
      rw [hdecode, if_neg (not_not.2 hdealt), if_neg (not_not.2 hok), State.beginParse_withCompletionOf _ _ hflags]
    exact ⟨hbegin, hbegin.trans (exec_parse (s := (a.1.complete a.2).withCompletionOf s) hready hv hlen).symm⟩

end Sys2Proof.Machine
end

section
/-! SUPPORT. Reset (R62, R176, R177) and READY (R14, R178): what each register and byte holds after a reset, and which
moves of the machine change READY. -/

namespace Sys2Proof.Machine

variable {s t : State}

/-! ## READY, R178 -/

/-- R161: the engine is about to run an INIT, which the host latched in LCMD. -/
def State.RunsInit (s : State) : Prop := s.busy = true ∧ s.stage = .issue ∧ decodeCommand s.lcmd = .init

/-- R161, R178: an instruction changes READY only where it is INIT, which sets it. -/
theorem exec_ready {i : Instr} (h : exec i s = .next t) : t.ready = s.ready ∨ (i = .init ∧ t.ready = true) := by
  obtain hkept | ⟨hi, hkept⟩ := (exec_executed h).kept
  · exact .inl (ready_of_kept_eq hkept)
  · exact .inr ⟨hi, congrArg EngineKept.ready hkept⟩

/-- R73: INIT is a command, so no segment of the stream is one. -/
theorem ne_init_of_decodeSegment {sc : SizeClass} {bits : List Bool} {i : Instr} (h : decodeSegment sc bits = .ok i) :
    i ≠ .init := by
  rintro rfl
  exact nomatch isCommand_decodeSegment h

/-- R151: the exit of the parse loop leaves READY. -/
theorem State.parseExit_ready (s : State) : s.parseExit.ready = s.ready := by
  obtain h | h := s.parseExit_cases <;> rw [h, State.endParse_ready]

/-- R142, R178: one move of a running engine changes READY only where it runs a latched INIT. -/
theorem engineStep_ready (hb : s.busy = true) (h : engineStep s = .next t) :
    t.ready = s.ready ∨ (s.RunsInit ∧ t.ready = true) := by
  unfold engineStep at h
  split at h
  case h_1 hstage =>
    exact (exec_ready h).imp_right fun ⟨hinit, hready⟩ => ⟨⟨hb, hstage, hinit⟩, hready⟩
  case h_2 =>
    split at h
    case h_1 hfetch => exact (exec_ready h).imp_right fun ⟨hinit, _⟩ => absurd hinit (ne_init_of_decodeSegment hfetch)
    case h_2 => cases h; exact .inl s.parseExit_ready

/-- R175, R178: an engine that may be idle. -/
theorem engineTurn_ready (h : engineTurn s = .next t) : t.ready = s.ready ∨ (s.RunsInit ∧ t.ready = true) := by
  unfold engineTurn at h
  split at h
  case isTrue hb => exact engineStep_ready hb h
  case isFalse => cases h; exact .inl rfl

/-- R52: a host read leaves READY. -/
theorem State.hostRead_ready (s : State) (off : Nat) (w : Width) : (s.hostRead off w).ready = s.ready := by
  rw [s.hostRead_frame off w]

/-- R11, R14: a host write leaves READY, which no register write sets. -/
theorem State.hostWrite_ready (s : State) (off : Nat) (w : Width) (v : Word) : (s.hostWrite off w v).ready = s.ready := by
  obtain ⟨-, hready, -⟩ := s.hostWrite_frame off w v
  exact hready

/-- R178: one pending host event leaves READY, lets a latched INIT set it, or is a reset. -/
theorem hostStep_ready {e : HostEvent} {rest : List HostEvent} (h : hostStep s e rest = .next t) :
    t.ready = s.ready ∨ (s.RunsInit ∧ t.ready = true) ∨ (e = .reset ∧ t.ready = false) := by
  cases e with
  | write addr w v =>
    simp only [hostStep] at h
    split at h
    · cases h; exact .inl (State.hostWrite_ready ..)
    · cases h
  | read addr w =>
    simp only [hostStep] at h
    split at h
    · cases h; exact .inl (State.hostRead_ready ..)
    · cases h
  | pause => exact (engineTurn_ready (s := { s with host := rest }) h).imp_right .inl
  | wait =>
    simp only [hostStep] at h
    split at h
    case isTrue hb => exact (engineStep_ready hb h).imp_right .inl
    case isFalse => cases h; exact .inl rfl
  | reset => cases h; exact .inr (.inr ⟨rfl, rfl⟩)

/-- R178: a step leaves READY, runs a latched INIT, which sets it, or takes a pending reset, which clears it. -/
theorem step_ready (h : step s = .next t) :
    t.ready = s.ready ∨ (s.RunsInit ∧ t.ready = true) ∨ ((∃ rest, s.host = .reset :: rest) ∧ t.ready = false) := by
  unfold step at h
  split at h
  case h_1 => exact (engineTurn_ready h).imp_right .inl
  case h_2 e rest hhost =>
    exact (hostStep_ready h).imp_right (.imp_right fun ⟨hreset, hready⟩ => ⟨⟨rest, hreset ▸ hhost⟩, hready⟩)

/-- Settles O16: of the three ways a step treats READY, only INIT's raises it and only a reset's clears it. -/
theorem readyOnlyByInitAndReset : Obligations.ReadyOnlyByInitAndReset := by
  intro s t h
  obtain hsame | ⟨hinit, hset⟩ | ⟨hreset, hclear⟩ := step_ready h
  · exact ⟨fun hlow hhigh => absurd (hsame.trans hlow) (by simp [hhigh]),
      fun hhigh hlow => absurd (hsame.trans hhigh) (by simp [hlow])⟩
  · exact ⟨fun _ _ => hinit, fun _ hlow => by simp [hset] at hlow⟩
  · exact ⟨fun _ hhigh => by simp [hclear] at hhigh, fun _ _ => hreset⟩

/-! ## Reset, R62, R176, R177 -/

/-- R176: a pending reset is taken whatever the block was doing; each reset has a draw of its own (log 24). -/
theorem step_of_reset {rest : List HostEvent} (h : s.host = .reset :: rest) :
    step s = .next (State.afterReset s.params s.draws rest) := by
  simp only [step, h, hostStep]

/-- R14 to R21, R176: after a reset every field of STATUS reads 0. -/
theorem statusWord_afterReset (p : Params) (draw : Nat) (host : List HostEvent) :
    (State.afterReset p draw host).statusWord = 0 := by
  simp only [State.statusWord, State.afterReset, State.busy]
  decide

/-- R22, R176: after a reset IRQ reads 0. -/
theorem irqWord_afterReset (p : Params) (draw : Nat) (host : List HostEvent) :
    (State.afterReset p draw host).irqWord = 0 := by
  simp only [State.irqWord, State.afterReset]
  decide

/-- R62: after a reset no byte is listed. -/
theorem Memory.read_atReset (draw a : Nat) : (Memory.atReset draw).read a = (Memory.atReset draw).unlisted a := rfl

/-- R62, R177: after a reset every byte of the buffers is unspecified. -/
theorem Memory.read_atReset_of_buffer (draw : Nat) {a : Nat} (h : Within moduleRam 0x4100 a ∨ Within outRam 0xA000 a) :
    (Memory.atReset draw).read a = Config.unspecifiedByte draw a := by
  unfold Within moduleRam outRam at h
  have hdrawn : drawAt (Memory.atReset draw).drawn a = some draw := by
    simp only [Memory.atReset, drawAt]
    split_ifs
    · rfl
    · rfl
    · omega
  rw [Memory.read_atReset, Memory.unlisted, hdrawn]

/-- R45, R177: after a reset every byte of BLKDESC is 0. -/
theorem Memory.read_atReset_of_blkDesc (draw : Nat) {a : Nat} (h : Within blkDesc 324 a) :
    (Memory.atReset draw).read a = 0 := by
  have hdrawn : drawAt (Memory.atReset draw).drawn a = none :=
    (Memory.inv_atReset (Nat.lt_succ_self draw)).descriptors a h
  rw [Memory.read_atReset, Memory.unlisted, hdrawn]

/-- R45, R177: after a reset every entry of BLKDESC is 0. -/
theorem Memory.word_atReset_of_blkDesc (draw : Nat) {b : Nat} (h : b < 81) :
    (Memory.atReset draw).word (blkDesc + 4 * b) = 0 := by
  have hbyte : ∀ k < 4, (Memory.atReset draw).read (blkDesc + 4 * b + k) = 0 := fun k hk =>
    Memory.read_atReset_of_blkDesc draw ⟨by omega, by omega⟩
  have hfirst := hbyte 0 (by decide)
  rw [Nat.add_zero] at hfirst
  rw [Memory.word, hfirst, hbyte 1 (by decide), hbyte 2 (by decide), hbyte 3 (by decide)]
  rfl

/-- Settles O57: the registers are those of the reset state, the bytes those of its memory. -/
theorem resetValues : Obligations.ResetValues := by
  intro s rest h
  refine ⟨_, step_of_reset h, rfl, statusWord_afterReset .., irqWord_afterReset .., rfl, rfl, rfl, rfl, rfl, rfl, rfl, rfl,
    rfl, rfl, rfl, rfl, rfl, rfl, rfl, rfl, rfl, ?_, ?_⟩
  · exact fun b hb => Memory.word_atReset_of_blkDesc s.draws hb
  · exact fun a ha => Memory.read_atReset_of_buffer s.draws ha

/-- Settles O58: the reset state is one of those after a reset. -/
theorem invAtReset : Obligations.InvAtReset :=
  ⟨afterReset_inv Params.standard 0 [], afterReset_inv⟩

end Sys2Proof.Machine
end
